-- ==== Sys2Proof/Word.lean ====
section
/-! DEFINITION. The word types of the block: every value is an unsigned integer of a stated width
(`00_scope.md` R7, R9). -/

namespace Sys2Proof

/-- A header, operand, response or event word, carried whole on its channel (`30_encoding.md` R63, R69, R72). -/
abbrev Word := BitVec 32

/-- One byte of ring storage (`00_scope.md` R7). -/
abbrev Byte := BitVec 8

/-- An 8-bit index or identifier field: timer index, action id, opcode (`00_scope.md` R7). -/
abbrev Index := BitVec 8

/-- A 16-bit register or field: `head`, `tail`, `CAP`, `max_len`, name tag, RDATA (`00_scope.md` R7). -/
abbrev Half := BitVec 16

/-- A tick-domain value: tick, period, duration, `start_tick`, `last_run` (`00_scope.md` R7). Its width is the
parameter `TW`, which is exactly 32 (R5). -/
abbrev Tick := BitVec 32

/-- A 9-bit scheduler counter: `SCH.ntasks`, and `i` and `n` of `S.tick` (`10_state.md` R30, R35). -/
abbrev TaskCount := BitVec 9

end Sys2Proof
end

