-- ==== Sys2Proof/Machine/Operands.lean ====
section
/-! DEFINITION. The fields of a header word (`30_encoding.md` R63), operand assembly (R68) and the modular
arithmetic of `00_scope.md` R9. All values are unsigned; none is sign-extended, scaled or shifted. -/

namespace Sys2Proof.Machine

/-- `OPC = (h >> 24) & 0xFF` (R63). -/
def opcField (h : Word) : Index := ((h >>> 24) &&& 0xFF#32).setWidth 8

/-- `IDX = (h >> 16) & 0xFF` (R63): action id or timer index (R68). -/
def idxField (h : Word) : Index := ((h >>> 16) &&& 0xFF#32).setWidth 8

/-- `IMM = h & 0xFFFF` (R63): `cap`, `max_len` or name tag (R68). -/
def immField (h : Word) : Half := (h &&& 0xFFFF#32).setWidth 16

/-- `IMM[7:0]`: the data byte of RB_WRITE (R68). -/
def byteField (h : Word) : Byte := (immField h &&& 0xFF#16).setWidth 8

/-- The header of a command: `(OPC << 24) | (IDX << 16) | IMM` (R83). -/
def header (opc idx : Index) (imm : Half) : Word :=
  (opc.setWidth 32 <<< 24) ||| (idx.setWidth 32 <<< 16) ||| imm.setWidth 32

/-- `a -_32 b`, the source's unsigned modular subtraction (`00_scope.md` R9). -/
def tickSub (a b : Tick) : Tick := a - b

/-- `x +_C 1 = (x + 1) mod CAP` (`00_scope.md` R9, `40_ringbuffer.md` R98), the sum taken as a number. -/
def advance (cap x : Half) : Half := BitVec.ofNat 16 ((x.toNat + 1) % cap.toNat)

/-- `zext_16` of a byte (`30_encoding.md` R81). -/
def zextByte (b : Byte) : Half := b.setWidth 16

/-- A truth value as RDATA: 1 or 0 (`30_encoding.md` R81). -/
def rdataBool (b : Bool) : Half := if b then 1 else 0

/-- A count or index as RDATA: its 16 low bits (`30_encoding.md` R81). -/
def rdataNat (n : Nat) : Half := BitVec.ofNat 16 n

end Sys2Proof.Machine
end

