-- ==== Sys2Proof/Syntax.lean ====
section
/-! DEFINITION. The commands of the block, one constructor per row of `spec/opcode_table.json` (`30_encoding.md` R66),
the ports they arrive on, and the lines of the assembler (`30_encoding.md` R84, R85). -/

namespace Sys2Proof

/-- The four command ports (`00_scope.md` R14). -/
inductive Port where
  /-- producer -/
  | P
  /-- consumer -/
  | C
  /-- setup and tick source -/
  | S
  /-- timer user -/
  | T
  deriving DecidableEq, Repr

/-- The mnemonics of `30_encoding.md` R66. -/
inductive Mnemonic where
  | RB_INIT | RB_IS_EMPTY | RB_IS_FULL | RB_COUNT | RB_AVAILABLE
  | RB_WRITE | RB_READ | RB_PEEK | RB_DRAIN
  | SCH_REGISTER | SCH_TICK
  | TMR_START | TMR_STOP | TMR_EXPIRED
  deriving DecidableEq, Repr

/-- A command with its operands (`30_encoding.md` R66, R68). -/
inductive Instr where
  /-- Construct a fresh buffer of logical capacity `cap` (R87). -/
  | rbInit (cap : Half)
  /-- Test whether the buffer holds no byte (R88). -/
  | rbIsEmpty
  /-- Test whether a write would fail (R89). -/
  | rbIsFull
  /-- The number of buffered bytes (R90). -/
  | rbCount
  /-- Test whether the consumer can read a byte (R91). -/
  | rbAvailable
  /-- Append one byte unless the buffer is full (R92). -/
  | rbWrite (b : Byte)
  /-- Remove and return the oldest byte (R93). -/
  | rbRead
  /-- Return the oldest byte without removing it (R94). -/
  | rbPeek
  /-- Begin a drain of up to `maxLen` bytes (R95). -/
  | rbDrain (maxLen : Half)
  /-- Add one task to the registry (R115). -/
  | schRegister (action : Index) (name : Half) (period : Tick)
  /-- Begin one scheduler pass at tick `cur` (R116). -/
  | schTick (cur : Tick)
  /-- Arm timer `j` from `start` for `duration` ticks (R107). -/
  | tmrStart (j : Index) (start duration : Tick)
  /-- Disarm timer `j`, keeping its history (R108). -/
  | tmrStop (j : Index)
  /-- Ask whether timer `j` has expired at `tick` (R109). -/
  | tmrExpired (j : Index) (tick : Tick)
  deriving DecidableEq, Repr

/-- The mnemonic of a command. -/
def Instr.mnemonic : Instr → Mnemonic
  | .rbInit _ => .RB_INIT
  | .rbIsEmpty => .RB_IS_EMPTY
  | .rbIsFull => .RB_IS_FULL
  | .rbCount => .RB_COUNT
  | .rbAvailable => .RB_AVAILABLE
  | .rbWrite _ => .RB_WRITE
  | .rbRead => .RB_READ
  | .rbPeek => .RB_PEEK
  | .rbDrain _ => .RB_DRAIN
  | .schRegister _ _ _ => .SCH_REGISTER
  | .schTick _ => .SCH_TICK
  | .tmrStart _ _ _ => .TMR_START
  | .tmrStop _ => .TMR_STOP
  | .tmrExpired _ _ => .TMR_EXPIRED

/-- One line of the assembler (`30_encoding.md` R84): a command for a port with its operands as written, numbers
of any size, or the host's acknowledgement `H: ACK`, or a line that holds nothing but a comment. -/
inductive SourceLine where
  | command (port : Port) (mnemonic : Mnemonic) (operands : List Nat)
  | ack
  | blank
  deriving DecidableEq, Repr

/-- The source's operation names, the pseudo-instructions of `30_encoding.md` R85. `x` is the port a query is
issued on; synonyms of one command share a constructor. R85 gives them no line form, so they are data here and no text
is read as one: DESIGN CHOICE [log 18]. -/
inductive SourceOp where
  /-- `init(capacity)` -/
  | init (capacity : Nat)
  /-- `is_empty()` -/
  | isEmpty (x : Port)
  /-- `is_full()` -/
  | isFull (x : Port)
  /-- `count()` -/
  | count (x : Port)
  /-- `write(byte)`, `push(byte)` -/
  | push (byte : Nat)
  /-- `read(&mut out)`, `read_byte()`, `pop()` -/
  | pop
  /-- `peek(&mut out)` -/
  | peek
  /-- `available()` -/
  | available
  /-- `read_bulk(max_len)`, `drain(max_len)` -/
  | drain (maxLen : Nat)
  /-- `register(task)`, `register(name, period_ticks, action)` -/
  | register (name period action : Nat)
  /-- `tick(current_tick)`, `advance(tick_value)` -/
  | advance (tick : Nat)
  /-- timer `start` -/
  | start (j currentTick duration : Nat)
  /-- timer `stop` -/
  | stop (j : Nat)
  /-- the timer's expiry query -/
  | expired (j currentTick : Nat)
  deriving DecidableEq, Repr

end Sys2Proof
end

