-- ==== Sys2Proof/Decode.lean ====
section
/-! DEFINITION. The opcode map, the decoder and the encoder (`30_encoding.md` R63 to R68, R74 to R80, R83).
Decoding is total: a stream of words gives a command and the words after it, an illegal command by name and
the words after it, or says that words of the command are still to come. -/

namespace Sys2Proof

open Sys2Proof.Machine

/-- The `OPC` column of `30_encoding.md` R66. -/
def Mnemonic.opc : Mnemonic → Index
  | .RB_INIT => 0x10
  | .RB_IS_EMPTY => 0x11
  | .RB_IS_FULL => 0x12
  | .RB_COUNT => 0x13
  | .RB_AVAILABLE => 0x14
  | .RB_WRITE => 0x18
  | .RB_READ => 0x19
  | .RB_PEEK => 0x1A
  | .RB_DRAIN => 0x1B
  | .SCH_REGISTER => 0x20
  | .SCH_TICK => 0x21
  | .TMR_START => 0x30
  | .TMR_STOP => 0x31
  | .TMR_EXPIRED => 0x32

/-- The `len` column of `30_encoding.md` R66: the length of a command in words. -/
def Mnemonic.len : Mnemonic → Nat
  | .SCH_REGISTER | .SCH_TICK | .TMR_EXPIRED => 2
  | .TMR_START => 3
  | .RB_INIT | .RB_IS_EMPTY | .RB_IS_FULL | .RB_COUNT | .RB_AVAILABLE
  | .RB_WRITE | .RB_READ | .RB_PEEK | .RB_DRAIN | .TMR_STOP => 1

/-- The ports that take a command (`30_encoding.md` R66, R74). -/
def Mnemonic.ports : Mnemonic → List Port
  | .RB_IS_EMPTY | .RB_IS_FULL | .RB_COUNT | .RB_AVAILABLE => [.P, .C, .S]
  | .RB_WRITE => [.P]
  | .RB_READ | .RB_PEEK | .RB_DRAIN => [.C]
  | .RB_INIT | .SCH_REGISTER | .SCH_TICK => [.S]
  | .TMR_START | .TMR_STOP | .TMR_EXPIRED => [.T]

/-- The reserved-zero masks of `30_encoding.md` R67. -/
def Mnemonic.rz : Mnemonic → Word
  | .RB_INIT | .RB_DRAIN => 0x00FF0000
  | .RB_IS_EMPTY | .RB_IS_FULL | .RB_COUNT | .RB_AVAILABLE | .RB_READ | .RB_PEEK => 0x00FFFFFF
  | .RB_WRITE => 0x00FFFF00
  | .SCH_REGISTER => 0x00000000
  | .SCH_TICK => 0x00FFFFFF
  | .TMR_START | .TMR_STOP | .TMR_EXPIRED => 0x0000FFFF

/-- The rows of the opcode map, in the table's order (`30_encoding.md` R66). -/
def Mnemonic.table : List Mnemonic :=
  [.RB_INIT, .RB_IS_EMPTY, .RB_IS_FULL, .RB_COUNT, .RB_AVAILABLE, .RB_WRITE, .RB_READ, .RB_PEEK, .RB_DRAIN,
   .SCH_REGISTER, .SCH_TICK, .TMR_START, .TMR_STOP, .TMR_EXPIRED]

/-- The row of an opcode; none for the 242 undefined values (`30_encoding.md` R66, R75). -/
def ofOpc (opc : Index) : Option Mnemonic := Mnemonic.table.find? (fun m => m.opc == opc)

/-- The length in words of the command a header begins: fixed by the opcode alone, 1 if it is undefined
(`30_encoding.md` R65). -/
def commandLen (h : Word) : Nat :=
  match ofOpc (opcField h) with
  | none => 1
  | some m => m.len

/-- The words of a port's stream after its first command (`30_encoding.md` R65, R76). -/
def dropCommand : List Word → List Word
  | [] => []
  | h :: ws => ws.drop (commandLen h - 1)

/-- Why a command is ERR_ILLEGAL (`60_exceptions.md` R132, checks 1 and 2). -/
inductive IllegalReason where
  /-- `OPC` is none of the 14 defined values (R75). -/
  | undefinedOpcode
  /-- A bit of the reserved-zero mask is set (R76). -/
  | reservedBits
  deriving DecidableEq, Repr

/-- What a port's stream of words begins with. -/
inductive Decoded where
  /-- Not all words of the command are there yet. -/
  | incomplete
  /-- A command answered ERR_ILLEGAL, with the words after it. -/
  | illegal (reason : IllegalReason) (rest : List Word)
  /-- A defined command, with the words after it. -/
  | instr (i : Instr) (rest : List Word)
  deriving DecidableEq, Repr

/-- Operand assembly (`30_encoding.md` R68): the command a mnemonic, a header and the operand words make. -/
def assembleOperands (m : Mnemonic) (h w1 w2 : Word) : Instr :=
  match m with
  | .RB_INIT => .rbInit (immField h)
  | .RB_IS_EMPTY => .rbIsEmpty
  | .RB_IS_FULL => .rbIsFull
  | .RB_COUNT => .rbCount
  | .RB_AVAILABLE => .rbAvailable
  | .RB_WRITE => .rbWrite (byteField h)
  | .RB_READ => .rbRead
  | .RB_PEEK => .rbPeek
  | .RB_DRAIN => .rbDrain (immField h)
  | .SCH_REGISTER => .schRegister (idxField h) (immField h) w1
  | .SCH_TICK => .schTick w1
  | .TMR_START => .tmrStart (idxField h) w1 w2
  | .TMR_STOP => .tmrStop (idxField h)
  | .TMR_EXPIRED => .tmrExpired (idxField h) w1

/-- The decode function of `30_encoding.md` R80 on a stream of words. An undefined opcode is a 1-word command
(R75); a set reserved bit is seen after all `len` words are there (R76). -/
def decode : List Word → Decoded
  | [] => .incomplete
  | h :: ws =>
    match ofOpc (opcField h) with
    | none => .illegal .undefinedOpcode ws
    | some m =>
      if ws.length < m.len - 1 then .incomplete
      else if h &&& m.rz = 0 then
        .instr (assembleOperands m h (ws.getD 0 0) (ws.getD 1 0)) (ws.drop (m.len - 1))
      else .illegal .reservedBits (ws.drop (m.len - 1))

/-- The ports that take a command (`30_encoding.md` R74). -/
def Instr.ports (i : Instr) : List Port := i.mnemonic.ports

/-- The words of a command (`30_encoding.md` R83): the header with every reserved field 0, then the operand
words in order. -/
def encode : Instr → List Word
  | .rbInit cap => [header 0x10 0 cap]
  | .rbIsEmpty => [header 0x11 0 0]
  | .rbIsFull => [header 0x12 0 0]
  | .rbCount => [header 0x13 0 0]
  | .rbAvailable => [header 0x14 0 0]
  | .rbWrite b => [header 0x18 0 (zextByte b)]
  | .rbRead => [header 0x19 0 0]
  | .rbPeek => [header 0x1A 0 0]
  | .rbDrain maxLen => [header 0x1B 0 maxLen]
  | .schRegister action name period => [header 0x20 action name, period]
  | .schTick cur => [header 0x21 0 0, cur]
  | .tmrStart j start duration => [header 0x30 j 0, start, duration]
  | .tmrStop j => [header 0x31 j 0]
  | .tmrExpired j tick => [header 0x32 j 0, tick]

/-- The three words that `nbits` bits of `w` fill, counted as `spec/opcode_table.json` counts them: bit 0 is
bit 0 of the first word, and every bit from `nbits` on is 0. -/
def tableWords (nbits w : Nat) : List Word :=
  let v := w % 2 ^ nbits
  [BitVec.ofNat 32 v, BitVec.ofNat 32 (v / 2 ^ 32), BitVec.ofNat 32 (v / 2 ^ 64)]

/-- The command the decoder reads from the bits of a table row; none where it is ERR_ILLEGAL. -/
def decodeTableWord (nbits w : Nat) : Option Instr :=
  match decode (tableWords nbits w) with
  | .instr i _ => some i
  | .illegal _ _ => none
  | .incomplete => none

end Sys2Proof
end

