-- ==== Sys2Proof/Config.lean ====
section
/-! DEFINITION. What an instance fixes when it is built (`00_scope.md` R5, R6), and the free value of the model:
the content of ring storage after a reset (`10_state.md` R25, `93_implementation_defined.md` U1). -/

namespace Sys2Proof

/-- Byte order of a platform wrapper's bus (`92_eei_decisions.md` D28). -/
inductive ByteOrder where
  | little
  | big
  deriving DecidableEq, Repr

/-- The build parameters of one instance (`00_scope.md` R5). `TW` is not a field: it is exactly 32, the width of `Tick`. -/
structure Params where
  /-- `DEPTH`: byte slots of physical storage, 2 .. 65535. -/
  depth : Nat
  /-- `NTASKS`: entries of the task registry, 1 .. 256. -/
  ntasks : Nat
  /-- `NTIMERS`: timers of the timer unit, 1 .. 256. -/
  ntimers : Nat
  /-- `BUS_BYTE_ORDER`, OPEN: the order of a wrapper's bus, if one is built.
  No rule of the block depends on it (`20_memory.md` R47), so nothing in the model reads it [log 10]. -/
  busByteOrder : Option ByteOrder
  deriving DecidableEq, Repr

/-- The reference configuration (`00_scope.md` R6). -/
def Params.reference : Params where
  depth := 16
  ntasks := 8
  ntimers := 4
  busByteOrder := none

/-- FREE VALUE. What storage slot `slot` holds after the reset with number `epoch`, before anything is written
to it (`10_state.md` R25: "Each slot holds some 8-bit value that a model must treat as a draw"). No body, so
nothing can be proved about it [log 6]. -/
opaque Config.storageDraw (epoch slot : Nat) : Byte

end Sys2Proof
end

