-- ==== Sys2Proof/Machine/State.lean ====
section
/-! DEFINITION. The state of the block (`10_state.md`), as plain data, and its value right after reset
(`10_state.md` R39). -/

namespace Sys2Proof.Machine

/-- Ring storage as the list of slots written since the last reset, each with its byte, slots strictly rising.
An unlisted slot has no value of its own here: it reads as its draw (`10_state.md` R25) [log 6]. -/
abbrev Memory := List Host.Cell

/-- The ring buffer unit (`10_state.md` R22 to R25). -/
structure RingBuffer where
  /-- `RB.cap`, the logical capacity, 2 .. DEPTH (R22). -/
  cap : Half
  /-- `RB.head`, the next write index (R23). -/
  head : Half
  /-- `RB.tail`, the next read index (R24). -/
  tail : Half
  /-- `RB.storage` (R25). -/
  storage : Memory
  deriving DecidableEq, Repr

/-- One timer (`10_state.md` R29). -/
structure Timer where
  startTick : Tick
  duration : Tick
  running : Bool
  deriving DecidableEq, Repr

/-- An inert timer, its value at reset (`10_state.md` R29). -/
def Timer.inert : Timer where
  startTick := 0
  duration := 0
  running := false

/-- One entry of the task registry (`10_state.md` R32). -/
structure Task where
  period : Tick
  lastRun : Tick
  action : Index
  name : Half
  deriving DecidableEq, Repr

/-- What an unregistered entry holds at reset. DESIGN CHOICE: the spec says unspecified and unobservable
(`10_state.md` R32) [log 7]. -/
def Task.blank : Task where
  period := 0
  lastRun := 0
  action := 0
  name := 0

/-- `SCH.phase` (`10_state.md` R31): 0 is SETUP, 1 is RUNNING. -/
inductive Phase where
  | setup
  | running
  deriving DecidableEq, Repr

/-- The scheduler unit (`10_state.md` R30 to R32). -/
structure Scheduler where
  /-- `SCH.ntasks`, the number of registered tasks, 9 bits (R30). -/
  ntasks : TaskCount
  /-- `SCH.phase` (R31). -/
  phase : Phase
  /-- `SCH.task[0 .. NTASKS-1]` (R32). -/
  tasks : List Task
  deriving DecidableEq, Repr

/-- `DRAINING` of `C.drain` (`10_state.md` R34). -/
structure Draining where
  /-- The number of bytes the drain may still take. -/
  rem : Half
  /-- The number it has taken. -/
  n : Half
  deriving DecidableEq, Repr

/-- `TICKING` of `S.tick` (`10_state.md` R35). -/
structure Ticking where
  /-- The tick value of the call. -/
  cur : Tick
  /-- The index of the next task to examine. -/
  i : TaskCount
  /-- The number of dispatches so far in this call. -/
  n : TaskCount
  /-- A dispatch awaits the host's acknowledgement. -/
  wait : Bool
  deriving DecidableEq, Repr

/-- An output channel (`10_state.md` R37): the words put on it, oldest first, cut at the last reset. -/
structure Channel where
  /-- Words put before the last reset; they stay on the channel (`70_reset_and_hazards.md` R148) [log 8]. -/
  kept : List Word
  /-- Words put since; empty right after a reset (`10_state.md` R37, R39). -/
  sent : List Word
  deriving DecidableEq, Repr

/-- One value for each command port. -/
structure PerPort (α : Type) where
  onP : α
  onC : α
  onS : α
  onT : α
  deriving DecidableEq, Repr

/-- What can happen next (`60_exceptions.md` R141, R147). The list of them in `State.schedule` is the
interleaving and the environment's side of it [log 1]. -/
inductive Event where
  /-- The agent of port `p` presents one command word on it (`60_exceptions.md` R143). -/
  | word (p : Port) (w : Word)
  /-- The next step of the agent of port `p` is taken, if one is enabled. -/
  | turn (p : Port)
  /-- The host gives a dispatch acknowledgement (`30_encoding.md` R73). -/
  | ack
  /-- Reset (`70_reset_and_hazards.md` R147). -/
  | reset
  deriving DecidableEq, Repr

/-- The state of one instance of the block (`00_scope.md` R15). -/
structure State where
  /-- The build parameters; fixed (`00_scope.md` R5) [log 9]. -/
  par : Params
  /-- The ring buffer unit. -/
  rb : RingBuffer
  /-- The timer unit, `TMR[0 .. NTIMERS-1]` (`10_state.md` R29). -/
  timers : List Timer
  /-- The scheduler unit. -/
  sch : Scheduler
  /-- `C.drain`; none is NONE (`10_state.md` R34). -/
  drain : Option Draining
  /-- `S.tick`; none is NONE (`10_state.md` R35). -/
  tick : Option Ticking
  /-- The words presented on each port and not yet taken (`60_exceptions.md` R141, `70_reset_and_hazards.md` R148). -/
  inp : PerPort (List Word)
  /-- The response channels (`10_state.md` R37). -/
  out : PerPort Channel
  /-- The dispatch channel (`10_state.md` R37). -/
  dispatch : Channel
  /-- The MODEL's own: the port whose command is being taken; `exec` reads it [log 5]. -/
  active : Port
  /-- The MODEL's own: how many resets there were; only the free value of storage reads it [log 6]. -/
  resets : Nat
  /-- The MODEL's own: the events to come, the first one next [log 1]. -/
  schedule : List Event
  deriving DecidableEq, Repr

/-- The reasons a step can stop with a fault. The block itself has none (`60_exceptions.md` R129). -/
inductive Fault where
  /-- An access to storage slot `slot`, which does not exist: it is not below DEPTH (`20_memory.md` R45).
  Raised by the one read and the one write of storage, in states no run reaches. Safe [log 11]. -/
  | noSuchSlot (slot : Nat)
  deriving DecidableEq, Repr

/-- The reasons a step can be refused. -/
inductive Refusal where
  /-- The instruction has no meaning in the model. Raised by no arm of `exec`. Safe. -/
  | notModelled (mnemonic : String)
  deriving DecidableEq, Repr

/-- The state right after reset of an instance built with parameters `c` (`10_state.md` R39), nothing
scheduled. -/
def State.resetWith (c : Params) : State where
  par := c
  rb := ⟨BitVec.ofNat 16 c.depth, 0, 0, []⟩
  timers := List.replicate c.ntimers Timer.inert
  sch := ⟨0, .setup, List.replicate c.ntasks Task.blank⟩
  drain := none
  tick := none
  inp := ⟨[], [], [], []⟩
  out := ⟨⟨[], []⟩, ⟨[], []⟩, ⟨[], []⟩, ⟨[], []⟩⟩
  dispatch := ⟨[], []⟩
  active := .P
  resets := 0
  schedule := []

/-- The state right after reset of the reference configuration (`00_scope.md` R6, `10_state.md` R39). -/
def State.reset : State := State.resetWith Params.reference

end Sys2Proof.Machine
end

