-- ==== Sys2Proof/Machine/Flags.lean ====
section
/-! DEFINITION. The block stores no flag (`10_state.md` R27): *empty*, *full*, *count*, *expired* and *due* are
computed from the registers each time a rule reads them. -/

namespace Sys2Proof.Machine

/-- `empty := (head == tail)` (`10_state.md` R27). -/
def RingBuffer.empty (r : RingBuffer) : Bool := decide (r.head = r.tail)

/-- `full := ((head + 1) mod CAP) == tail` (`10_state.md` R27). -/
def RingBuffer.full (r : RingBuffer) : Bool := decide (advance r.cap r.head = r.tail)

/-- `count`, the number of buffered bytes: `head - tail` if `head >= tail`, else `head + CAP - tail`
(`40_ringbuffer.md` R90). -/
def RingBuffer.count (r : RingBuffer) : Nat :=
  if r.tail.toNat ≤ r.head.toNat then r.head.toNat - r.tail.toNat
  else r.head.toNat + r.cap.toNat - r.tail.toNat

/-- A timer has expired at `t`: it runs, and `t -_32 start_tick >= duration`, unsigned (`41_timer.md` R109). -/
def Timer.expired (x : Timer) (t : Tick) : Bool :=
  x.running && decide (x.duration.toNat ≤ (tickSub t x.startTick).toNat)

/-- A task is due at `cur`: `cur -_32 last_run >= period`, unsigned (`42_scheduler.md` R121). -/
def Task.due (x : Task) (cur : Tick) : Bool :=
  decide (x.period.toNat ≤ (tickSub cur x.lastRun).toNat)

end Sys2Proof.Machine
end

