-- ==== Sys2Proof/Machine/Memory.lean ====
section
/-! DEFINITION. Ring storage as data (`20_memory.md` R45, `10_state.md` R25): reading one listed slot, writing
one slot, and the canonical form of the list. -/

namespace Sys2Proof.Machine

/-- The byte written to slot `k` since the last reset; none if nothing was. -/
def Memory.read (m : Memory) (k : Nat) : Option Byte :=
  match m with
  | [] => none
  | c :: m => if c.1 = k then some c.2 else Memory.read m k

/-- Write byte `b` to slot `k`, keeping the slots strictly rising. -/
def Memory.write (m : Memory) (k : Nat) (b : Byte) : Memory :=
  match m with
  | [] => [(k, b)]
  | c :: m =>
    if k < c.1 then (k, b) :: c :: m
    else if k = c.1 then (k, b) :: m
    else c :: Memory.write m k b

/-- The canonical form: slots strictly rising. An unlisted slot has no value as data, so no entry can equal
what an unlisted slot reads as. -/
def Memory.wf (m : Memory) : Bool := decide (m.Pairwise (fun a b => a.1 < b.1))

end Sys2Proof.Machine
end

