-- ==== Sys2Proof/Machine/Ops.lean ====
section
/-! DEFINITION. The shared operations of the block: response, data and event words (`30_encoding.md` R69 to R72),
taking a command off its port, `respond`, `hold`, `emit_data`, `emit_dispatch`, `MemRead` and `MemWrite`
(`00_scope.md` R10), the port check (`60_exceptions.md` R132, check 3) and reset (`70_reset_and_hazards.md` R147).
The block takes no exception (`60_exceptions.md` R129, R134): a failure is a status in the response word, so
`answer` is the one operation by which every failure is reported. -/

namespace Sys2Proof.Machine

/-- What a meaning or a step answers. -/
abbrev Result := Host.Outcome State Fault Refusal

/-- The status codes of final responses (`30_encoding.md` R70). -/
inductive Status where
  | ok | full | empty | errConfig | errRegFull | errPhase | errIndex | errIllegal | errPort
  deriving DecidableEq, Repr

/-- The value of `STATUS` (`30_encoding.md` R70). -/
def Status.code : Status → BitVec 8
  | .ok => 0x00
  | .full => 0x01
  | .empty => 0x02
  | .errConfig => 0x03
  | .errRegFull => 0x04
  | .errPhase => 0x05
  | .errIndex => 0x06
  | .errIllegal => 0x07
  | .errPort => 0x08

/-- The final response word: STATUS in 31:24, 0 in 23:16, RDATA in 15:0, and RDATA 0 when STATUS is not OK
(`30_encoding.md` R69). -/
def finalWord (st : Status) (rdata : Half) : Word :=
  (st.code.setWidth 32 <<< 24) ||| (if st = .ok then rdata.setWidth 32 else 0)

/-- The DATA beat of a drained byte: 0x80 in 31:24, 0 in 23:8, the byte in 7:0 (`30_encoding.md` R71). -/
def dataWord (b : Byte) : Word := 0x80000000#32 ||| b.setWidth 32

/-- The dispatch event word of task `i`: `i[7:0]` in 31:24, its action in 23:16, its name in 15:0
(`30_encoding.md` R72). -/
def dispatchWord (i : TaskCount) (x : Task) : Word := header (i.setWidth 8) x.action x.name

/-- The value of one port. -/
def PerPort.get {α : Type} (x : PerPort α) (p : Port) : α :=
  match p with
  | .P => x.onP
  | .C => x.onC
  | .S => x.onS
  | .T => x.onT

/-- Set the value of one port. -/
def PerPort.set {α : Type} (x : PerPort α) (p : Port) (v : α) : PerPort α :=
  match p with
  | .P => { x with onP := v }
  | .C => { x with onC := v }
  | .S => { x with onS := v }
  | .T => { x with onT := v }

/-- Change the value of every port. -/
def PerPort.map {α : Type} (f : α → α) (x : PerPort α) : PerPort α :=
  ⟨f x.onP, f x.onC, f x.onS, f x.onT⟩

/-- Put a word on a channel, after those already put (`10_state.md` R37). -/
def Channel.put (c : Channel) (w : Word) : Channel := { c with sent := c.sent ++ [w] }

/-- The channel at a reset: the words put so far stay, and none was put since (`10_state.md` R39,
`70_reset_and_hazards.md` R148) [log 8]. -/
def Channel.cut (c : Channel) : Channel := ⟨c.kept ++ c.sent, []⟩

/-- Every word put on the channel, oldest first. -/
def Channel.words (c : Channel) : List Word := c.kept ++ c.sent

/-- Put a word on the response channel of port `p`. -/
def State.put (s : State) (p : Port) (w : Word) : State :=
  { s with out := s.out.set p ((s.out.get p).put w) }

/-- `emit_dispatch`: put an event word on the dispatch channel (`00_scope.md` R10). -/
def State.emitDispatch (s : State) (w : Word) : State := { s with dispatch := s.dispatch.put w }

/-- `emit_data`: put a DATA beat on the C port's response channel (`00_scope.md` R10). -/
def State.emitData (s : State) (b : Byte) : State := s.put .C (dataWord b)

/-- Replace the words presented on port `p`. -/
def State.withPending (s : State) (p : Port) (ws : List Word) : State :=
  { s with inp := s.inp.set p ws }

/-- Take the words of the active port's command (`60_exceptions.md` R141). -/
def State.takeCommand (s : State) : State :=
  s.withPending s.active (dropCommand (s.inp.get s.active))

/-- Set `RB.head`. -/
def State.withHead (s : State) (x : Half) : State := { s with rb := { s.rb with head := x } }

/-- Set `RB.tail`. -/
def State.withTail (s : State) (x : Half) : State := { s with rb := { s.rb with tail := x } }

/-- Set `TMR[j]`. -/
def State.withTimer (s : State) (j : Nat) (x : Timer) : State := { s with timers := s.timers.set j x }

/-- Set `SCH.task[i]`. -/
def State.withTask (s : State) (i : Nat) (x : Task) : State :=
  { s with sch := { s.sch with tasks := s.sch.tasks.set i x } }

/-- Set `C.drain`. -/
def State.withDrain (s : State) (d : Option Draining) : State := { s with drain := d }

/-- Set `S.tick`. -/
def State.withTick (s : State) (t : Option Ticking) : State := { s with tick := t }

/-- Set the port whose command is being taken. -/
def State.withActive (s : State) (p : Port) : State := { s with active := p }

/-- Set the events to come. -/
def State.withSchedule (s : State) (es : List Event) : State := { s with schedule := es }

/-- `TMR[j]`. -/
def State.timer (s : State) (j : Nat) : Timer := s.timers.getD j Timer.inert

/-- `SCH.task[i]`. -/
def State.task (s : State) (i : Nat) : Task := s.sch.tasks.getD i Task.blank

/-- The byte in storage slot `k`: the one written since the last reset, else the slot's draw
(`10_state.md` R25) [log 6]. -/
def State.slot (s : State) (k : Nat) : Byte :=
  (s.rb.storage.read k).getD (Config.storageDraw s.resets k)

/-- A port is busy from the step that accepts a command until the step that puts its final response
(`10_state.md` R36). -/
def State.busy (s : State) (p : Port) : Bool :=
  match p with
  | .C => s.drain.isSome
  | .S => s.tick.isSome
  | .P | .T => false

/-- `hold`: the step is not enabled, so no step is taken (`00_scope.md` R10). -/
def hold (s : State) : Result := .next s

/-- `respond`: take the command's words, put its final response on the issuing port's channel and end it
(`00_scope.md` R10, `30_encoding.md` R69). -/
def answer (st : Status) (rdata : Half) (s : State) : Result :=
  .next (s.takeCommand.put s.active (finalWord st rdata))

/-- Begin a multi-step command: take its words and give no response yet (`40_ringbuffer.md` R95,
`42_scheduler.md` R116). -/
def accept (s : State) : Result := .next s.takeCommand

/-- Check 3 of `60_exceptions.md` R132: a command on a port that does not take it is answered ERR_PORT;
otherwise its body runs. -/
def onPort (i : Instr) (s : State) (body : Result) : Result :=
  if s.active ∈ i.ports then body else answer .errPort 0 s

/-- `MemRead(k, 1)` (`00_scope.md` R10): the byte in slot `k`, which must exist [log 11]. -/
def memRead (s : State) (k : Nat) (go : Byte → Result) : Result :=
  if k < s.par.depth then go (s.slot k) else .fault (.noSuchSlot k)

/-- `MemWrite(k, 1, b)` (`00_scope.md` R10): store `b` in slot `k`, which must exist [log 11]. -/
def memWrite (s : State) (k : Nat) (b : Byte) (go : State → Result) : Result :=
  if k < s.par.depth then go { s with rb := { s.rb with storage := s.rb.storage.write k b } }
  else .fault (.noSuchSlot k)

/-- Reset: every piece of state at its reset value in one step (`70_reset_and_hazards.md` R147). In-flight
commands and words not yet taken are gone; the channels keep what was put (R148) [log 8, log 13]. -/
def State.doReset (s : State) : State :=
  { State.resetWith s.par with
    out := s.out.map Channel.cut
    dispatch := s.dispatch.cut
    resets := s.resets + 1
    schedule := s.schedule }

end Sys2Proof.Machine
end

