-- ==== Sys2Proof/Machine/RingBuffer.lean ====
section
/-! DEFINITION. The ring buffer commands (`40_ringbuffer.md`), and the in-flight steps of RB_DRAIN. -/

namespace Sys2Proof.Machine

/-- RB_INIT (`40_ringbuffer.md` R87): hold behind a drain in flight; refuse an illegal capacity with ERR_CONFIG;
else a fresh buffer of capacity `cap`, storage unchanged. -/
def execRbInit (cap : Half) (s : State) : Result :=
  onPort (.rbInit cap) s <|
    if s.drain.isSome then hold s
    else if cap.toNat < 2 ∨ s.par.depth < cap.toNat then answer .errConfig 0 s
    else answer .ok 0 { s with rb := { s.rb with cap := cap, head := 0, tail := 0 } }

/-- RB_IS_EMPTY (`40_ringbuffer.md` R88). -/
def execRbIsEmpty (s : State) : Result :=
  onPort .rbIsEmpty s <| answer .ok (rdataBool s.rb.empty) s

/-- RB_IS_FULL (`40_ringbuffer.md` R89). -/
def execRbIsFull (s : State) : Result :=
  onPort .rbIsFull s <| answer .ok (rdataBool s.rb.full) s

/-- RB_COUNT (`40_ringbuffer.md` R90). -/
def execRbCount (s : State) : Result :=
  onPort .rbCount s <| answer .ok (rdataNat s.rb.count) s

/-- RB_AVAILABLE (`40_ringbuffer.md` R91). -/
def execRbAvailable (s : State) : Result :=
  onPort .rbAvailable s <| answer .ok (rdataBool (!s.rb.empty)) s

/-- RB_WRITE (`40_ringbuffer.md` R92): FULL and the byte dropped, or store at `head` and advance `head`. -/
def execRbWrite (b : Byte) (s : State) : Result :=
  onPort (.rbWrite b) s <|
    if s.rb.full then answer .full 0 s
    else memWrite s s.rb.head.toNat b fun s' =>
      answer .ok 0 (s'.withHead (advance s.rb.cap s.rb.head))

/-- RB_READ (`40_ringbuffer.md` R93): EMPTY, or return the byte at `tail` and advance `tail`. -/
def execRbRead (s : State) : Result :=
  onPort .rbRead s <|
    if s.rb.empty then answer .empty 0 s
    else memRead s s.rb.tail.toNat fun v =>
      answer .ok (zextByte v) (s.withTail (advance s.rb.cap s.rb.tail))

/-- RB_PEEK (`40_ringbuffer.md` R94): EMPTY, or return the byte at `tail`; no state changes. -/
def execRbPeek (s : State) : Result :=
  onPort .rbPeek s <|
    if s.rb.empty then answer .empty 0 s
    else memRead s s.rb.tail.toNat fun v => answer .ok (zextByte v) s

/-- RB_DRAIN, accept step (`40_ringbuffer.md` R95): no response yet, the C port is busy. -/
def execRbDrain (maxLen : Half) (s : State) : Result :=
  onPort (.rbDrain maxLen) s <| accept (s.withDrain (some ⟨maxLen, 0⟩))

/-- The drain's byte step is enabled: `rem > 0` and not empty (`40_ringbuffer.md` R96). Otherwise the end step
is (R97). -/
def Draining.mayTake (d : Draining) (r : RingBuffer) : Bool := decide (d.rem ≠ 0) && !r.empty

/-- The next step of an RB_DRAIN in flight: the byte step (`40_ringbuffer.md` R96) or the end step (R97). -/
def drainStep (d : Draining) (s : State) : Result :=
  if d.mayTake s.rb then
    memRead s s.rb.tail.toNat fun v =>
      .next (((s.withTail (advance s.rb.cap s.rb.tail)).emitData v).withDrain (some ⟨d.rem - 1, d.n + 1⟩))
  else .next ((s.put .C (finalWord .ok d.n)).withDrain none)

end Sys2Proof.Machine
end

