-- ==== Sys2Proof/Machine/Scheduler.lean ====
section
/-! DEFINITION. The scheduler commands (`42_scheduler.md`), the in-flight steps of SCH_TICK and the host's
dispatch acknowledgement. -/

namespace Sys2Proof.Machine

/-- SCH_REGISTER (`42_scheduler.md` R115): ERR_PHASE, ERR_CONFIG, ERR_REG_FULL in that order; else add a task
and answer its index. -/
def execSchRegister (action : Index) (name : Half) (period : Tick) (s : State) : Result :=
  onPort (.schRegister action name period) s <|
    if s.sch.phase = .running then answer .errPhase 0 s
    else if period = 0 then answer .errConfig 0 s
    else if s.sch.ntasks.toNat = s.par.ntasks then answer .errRegFull 0 s
    else
      let i := s.sch.ntasks
      let s' := s.withTask i.toNat ⟨period, 0, action, name⟩
      answer .ok (rdataNat i.toNat) { s' with sch := { s'.sch with ntasks := i + 1 } }

/-- SCH_TICK, accept step (`42_scheduler.md` R116): RUNNING from now on; no response yet, the S port is busy. -/
def execSchTick (cur : Tick) (s : State) : Result :=
  onPort (.schTick cur) s <|
    accept ({ s with sch := { s.sch with phase := .running } }.withTick (some ⟨cur, 0, 0, false⟩))

/-- The dispatch step (`42_scheduler.md` R117): the event word, `last_run`, and the wait for the host. -/
def dispatchStep (t : Ticking) (s : State) : State :=
  let x := s.task t.i.toNat
  ((s.emitDispatch (dispatchWord t.i x)).withTask t.i.toNat { x with lastRun := t.cur }).withTick
    (some { t with n := t.n + 1, wait := true })

/-- The skip step (`42_scheduler.md` R118). -/
def skipStep (t : Ticking) (s : State) : State := s.withTick (some { t with i := t.i + 1 })

/-- The end step (`42_scheduler.md` R120). -/
def endStep (t : Ticking) (s : State) : State :=
  (s.put .S (finalWord .ok (t.n.setWidth 16))).withTick none

/-- The next step of an SCH_TICK in flight that awaits no acknowledgement (`42_scheduler.md` R117, R118, R120). -/
def tickStep (t : Ticking) (s : State) : Result :=
  if t.i.toNat < s.sch.ntasks.toNat then
    if (s.task t.i.toNat).due t.cur then .next (dispatchStep t s) else .next (skipStep t s)
  else if t.i = s.sch.ntasks then .next (endStep t s)
  else hold s

/-- The dispatch acknowledgement step (`42_scheduler.md` R119); an acknowledgement nobody awaits is ignored
(`30_encoding.md` R73). -/
def ackStep (s : State) : Result :=
  match s.tick with
  | none => .next s
  | some t => if t.wait then .next (s.withTick (some { t with i := t.i + 1, wait := false })) else .next s

end Sys2Proof.Machine
end

