-- ==== Sys2Proof/Machine/Timer.lean ====
section
/-! DEFINITION. The timer commands (`41_timer.md`). -/

namespace Sys2Proof.Machine

/-- Check 4 of `60_exceptions.md` R132: a timer index that is not below NTIMERS is answered ERR_INDEX. -/
def onTimer (j : Index) (s : State) (body : Result) : Result :=
  if s.par.ntimers ≤ j.toNat then answer .errIndex 0 s else body

/-- TMR_START (`41_timer.md` R107): arm, or arm again, timer `j`. -/
def execTmrStart (j : Index) (start duration : Tick) (s : State) : Result :=
  onPort (.tmrStart j start duration) s <| onTimer j s <|
    answer .ok 0 (s.withTimer j.toNat ⟨start, duration, true⟩)

/-- TMR_STOP (`41_timer.md` R108): disarm timer `j`; its history is kept. -/
def execTmrStop (j : Index) (s : State) : Result :=
  onPort (.tmrStop j) s <| onTimer j s <|
    answer .ok 0 (s.withTimer j.toNat { s.timer j.toNat with running := false })

/-- TMR_EXPIRED (`41_timer.md` R109): no state changes. -/
def execTmrExpired (j : Index) (tick : Tick) (s : State) : Result :=
  onPort (.tmrExpired j tick) s <| onTimer j s <|
    answer .ok (rdataBool ((s.timer j.toNat).expired tick)) s

end Sys2Proof.Machine
end

