-- ==== Sys2Proof/Machine/Dispatch.lean ====
section
/-! DEFINITION. The meaning of each command, taken on the port `s.active`. -/

namespace Sys2Proof.Machine

def exec (i : Instr) (s : State) : Host.Outcome State Fault Refusal :=
  match i with
  | .rbInit cap => Sys2Proof.Machine.execRbInit cap s
  | .rbIsEmpty => Sys2Proof.Machine.execRbIsEmpty s
  | .rbIsFull => Sys2Proof.Machine.execRbIsFull s
  | .rbCount => Sys2Proof.Machine.execRbCount s
  | .rbAvailable => Sys2Proof.Machine.execRbAvailable s
  | .rbWrite b => Sys2Proof.Machine.execRbWrite b s
  | .rbRead => Sys2Proof.Machine.execRbRead s
  | .rbPeek => Sys2Proof.Machine.execRbPeek s
  | .rbDrain maxLen => Sys2Proof.Machine.execRbDrain maxLen s
  | .schRegister action name period => Sys2Proof.Machine.execSchRegister action name period s
  | .schTick cur => Sys2Proof.Machine.execSchTick cur s
  | .tmrStart j start duration => Sys2Proof.Machine.execTmrStart j start duration s
  | .tmrStop j => Sys2Proof.Machine.execTmrStop j s
  | .tmrExpired j tick => Sys2Proof.Machine.execTmrExpired j tick s

end Sys2Proof.Machine
end

