-- ==== Sys2Proof/Machine/Agents.lean ====
section
/-! DEFINITION. The agents' steps and when each is enabled (`60_exceptions.md` R141), and what one event does. -/

namespace Sys2Proof.Machine

/-- A port takes a command: all its words, in one step (`60_exceptions.md` R141). Nothing happens while words
are still to come; an illegal command is answered ERR_ILLEGAL (`30_encoding.md` R75, R76); any other runs, and
its own checks follow (`60_exceptions.md` R132). -/
def takeStep (p : Port) (s : State) : Result :=
  match decode (s.inp.get p) with
  | .incomplete => hold s
  | .illegal _ _ => answer .errIllegal 0 (s.withActive p)
  | .instr i _ => exec i (s.withActive p)

/-- The next step of the agent of port `p`, if one is enabled (`60_exceptions.md` R141): C goes on with its
drain, S with its tick unless an acknowledgement is awaited; an idle port takes a command. -/
def agentStep (p : Port) (s : State) : Result :=
  match p with
  | .P => takeStep .P s
  | .C =>
    match s.drain with
    | some d => drainStep d s
    | none => takeStep .C s
  | .S =>
    match s.tick with
    | some t => if t.wait then hold s else tickStep t s
    | none => takeStep .S s
  | .T => takeStep .T s

/-- A complete command is presented on port `p`. -/
def State.presented (s : State) (p : Port) : Bool :=
  match decode (s.inp.get p) with
  | .incomplete => false
  | .illegal _ _ => true
  | .instr _ _ => true

/-- The command presented on port S is an RB_INIT, which a drain in flight holds (`40_ringbuffer.md` R87). -/
def State.initPresented (s : State) : Bool :=
  match decode (s.inp.get .S) with
  | .instr (.rbInit _) _ => true
  | _ => false

/-- The agent of port `p` has an enabled step (`60_exceptions.md` R141). -/
def State.enabled (s : State) (p : Port) : Bool :=
  match p with
  | .P => s.presented .P
  | .C => s.drain.isSome || s.presented .C
  | .S =>
    match s.tick with
    | some t => !t.wait && decide (t.i.toNat ≤ s.sch.ntasks.toNat)
    | none => s.presented .S && !(s.initPresented && s.drain.isSome)
  | .T => s.presented .T

/-- The first port, in the order P, C, S, T, whose agent has an enabled step. -/
def State.nextPort (s : State) : Option Port := [Port.P, .C, .S, .T].find? s.enabled

/-- The event the next step takes: the first of the schedule, or the turn of the first agent with an enabled
step when nothing is scheduled. -/
def State.nextEvent (s : State) : Option Event :=
  match s.schedule with
  | [] => s.nextPort.map .turn
  | e :: _ => some e

/-- An agent presents one word on its port. It holds while a whole command waits there: a port never holds two
commands (`60_exceptions.md` R141) [log 4]. -/
def presentWord (p : Port) (w : Word) (s : State) : Result :=
  if s.presented p then hold s else .next (s.withPending p (s.inp.get p ++ [w]))

/-- What one event does. -/
def runEvent (e : Event) (s : State) : Result :=
  match e with
  | .word p w => presentWord p w s
  | .turn p => agentStep p s
  | .ack => ackStep s
  | .reset => .next s.doReset

/-- With nothing scheduled, the block goes on by itself: the first agent with an enabled step takes it; if none
has one, nothing happens (`60_exceptions.md` R142, R146) [log 2]. -/
def runIdle (s : State) : Result :=
  match s.nextPort with
  | some p => agentStep p s
  | none => .next s

/-- One step: the first event of the schedule, or the block on its own [log 1]. -/
def stepBody (s : State) : Result :=
  match s.schedule with
  | [] => runIdle s
  | e :: es => runEvent e (s.withSchedule es)

/-- The port a command is placed on: the first that takes it, P if it is illegal. -/
def homePort (ws : List Word) : Port :=
  match decode ws with
  | .instr i _ => i.ports.headD .P
  | .illegal _ _ => .P
  | .incomplete => .P

/-- `s` with the first command of `ws` presented on its port, that port idle and its agent's turn next. -/
def placeCommand (s : State) (ws : List Word) : State :=
  let p := homePort ws
  let s1 := s.withPending p (ws.take (commandLen (ws.headD 0)))
  let s2 := if p = .C then s1.withDrain none else s1
  let s3 := if p = .S then s2.withTick none else s2
  s3.withSchedule (.turn p :: s.schedule)

end Sys2Proof.Machine
end

