-- ==== Sys2Proof/Machine/Step.lean ====
section
/-! DEFINITION. One step of the block, and the state in which a given command is the next one taken. -/

namespace Sys2Proof.Machine

/-- One atomic step of one agent (`00_scope.md` R4). -/
def step (s : State) : Host.Outcome State Fault Refusal := stepBody s

/-- `s` with the command of `nbits` bits of `w` presented whole on a port that takes it (P if it is illegal),
that port idle, and its turn next. The block loads no program: its commands come from outside [log 1]. -/
def State.withFetchWord (s : State) (nbits w : Nat) : State := placeCommand s (tableWords nbits w)

end Sys2Proof.Machine
end

