-- ==== Sys2Proof/WellFormed.lean ====
section
/-! DEFINITION. What is legal as a build (`00_scope.md` R5) and as a command: each operand inside its field
(`30_encoding.md` R68, R86), each line with the operands its mnemonic takes (R84), each query on a port that
takes it (R85). The values the block itself checks (`cap` out of range, period 0, timer index) are well-formed
here: R86 says an assembler does not refuse them. -/

namespace Sys2Proof

/-- The legal ranges of the build parameters (`00_scope.md` R5). -/
def Params.legal (c : Params) : Bool :=
  decide (2 ≤ c.depth) && decide (c.depth ≤ 65535)
    && decide (1 ≤ c.ntasks) && decide (c.ntasks ≤ 256)
    && decide (1 ≤ c.ntimers) && decide (c.ntimers ≤ 256)

/-- The largest value of each operand of a mnemonic, in the order the assembler writes them
(`30_encoding.md` R84, R86). -/
def Mnemonic.limits : Mnemonic → List Nat
  | .RB_INIT => [0xFFFF]
  | .RB_WRITE => [0xFF]
  | .RB_DRAIN => [0xFFFF]
  | .SCH_REGISTER => [0xFF, 0xFFFF, 0xFFFFFFFF]
  | .SCH_TICK => [0xFFFFFFFF]
  | .TMR_START => [0xFF, 0xFFFFFFFF, 0xFFFFFFFF]
  | .TMR_STOP => [0xFF]
  | .TMR_EXPIRED => [0xFF, 0xFFFFFFFF]
  | .RB_IS_EMPTY | .RB_IS_FULL | .RB_COUNT | .RB_AVAILABLE | .RB_READ | .RB_PEEK => []

/-- Each operand is at most its limit, and there are as many operands as limits. -/
def fitsLimits : List Nat → List Nat → Bool
  | [], [] => true
  | v :: vs, l :: ls => decide (v ≤ l) && fitsLimits vs ls
  | _, _ => false

/-- A line has the operands its mnemonic takes, each inside its field (`30_encoding.md` R84, R86). -/
def SourceLine.wf : SourceLine → Bool
  | .command _ m operands => fitsLimits operands m.limits
  | .ack => true
  | .blank => true

/-- A query names a port that takes it: "X in P, C, S" (`30_encoding.md` R85). -/
def SourceOp.wf : SourceOp → Bool
  | .isEmpty x | .isFull x | .count x => decide (x ≠ .T)
  | _ => true

/-- The operands of a command as numbers, in the assembler's order (`30_encoding.md` R84). -/
def Instr.operands : Instr → List Nat
  | .rbInit cap => [cap.toNat]
  | .rbWrite b => [b.toNat]
  | .rbDrain maxLen => [maxLen.toNat]
  | .schRegister action name period => [action.toNat, name.toNat, period.toNat]
  | .schTick cur => [cur.toNat]
  | .tmrStart j start duration => [j.toNat, start.toNat, duration.toNat]
  | .tmrStop j => [j.toNat]
  | .tmrExpired j tick => [j.toNat, tick.toNat]
  | .rbIsEmpty | .rbIsFull | .rbCount | .rbAvailable | .rbRead | .rbPeek => []

/-- Every operand of a command is inside its field. It holds of every command, since the operands' types are
the fields' widths (`Sys2Proof.Laws.instr_wf`). -/
def Instr.wf (i : Instr) : Bool := fitsLimits i.operands i.mnemonic.limits

end Sys2Proof
end

