-- ==== Sys2Proof/Machine/Assembler.lean ====
section
/-! DEFINITION. The assembler of `30_encoding.md` R84 to R86: a line of text, the command it stands for and the
events that issue it, the source's operation names, and how results are read and written. What R84 leaves open
about the text (spaces, digits) is fixed here [log 18]. -/

namespace Sys2Proof.Machine

/-- A mnemonic as text (`30_encoding.md` R66). -/
def mnemonicText (m : Mnemonic) : List Char :=
  match m with
  | .RB_INIT => "RB_INIT".toList
  | .RB_IS_EMPTY => "RB_IS_EMPTY".toList
  | .RB_IS_FULL => "RB_IS_FULL".toList
  | .RB_COUNT => "RB_COUNT".toList
  | .RB_AVAILABLE => "RB_AVAILABLE".toList
  | .RB_WRITE => "RB_WRITE".toList
  | .RB_READ => "RB_READ".toList
  | .RB_PEEK => "RB_PEEK".toList
  | .RB_DRAIN => "RB_DRAIN".toList
  | .SCH_REGISTER => "SCH_REGISTER".toList
  | .SCH_TICK => "SCH_TICK".toList
  | .TMR_START => "TMR_START".toList
  | .TMR_STOP => "TMR_STOP".toList
  | .TMR_EXPIRED => "TMR_EXPIRED".toList

/-- Why the assembler refuses a line (`30_encoding.md` R84, R86). -/
inductive AsmError where
  /-- The line is not `PORT: …`. -/
  | badPort
  /-- The mnemonic is none of R66. -/
  | badMnemonic
  /-- An operand is neither a decimal nor a `0x` hexadecimal number. -/
  | badNumber
  /-- The number of operands is not the mnemonic's, or an operand is outside its field. -/
  | badOperand
  deriving DecidableEq, Repr

/-- The value of a digit. -/
def digitValue (c : Char) : Option Nat :=
  if '0' ≤ c ∧ c ≤ '9' then some (c.toNat - 48)
  else if 'a' ≤ c ∧ c ≤ 'f' then some (c.toNat - 87)
  else if 'A' ≤ c ∧ c ≤ 'F' then some (c.toNat - 55)
  else none

/-- Read digits in a base, the most significant first, onto the value read so far. -/
def readDigits (base acc : Nat) : List Char → Option Nat
  | [] => some acc
  | c :: cs =>
    match digitValue c with
    | some d => if d < base then readDigits base (acc * base + d) cs else none
    | none => none

/-- A decimal or `0x`-prefixed hexadecimal number (`30_encoding.md` R84). -/
def readNumber : List Char → Option Nat
  | [] => none
  | ['0', 'x'] => none
  | '0' :: 'x' :: cs => readDigits 16 0 cs
  | cs => readDigits 10 0 cs

/-- Drop the spaces on both sides. -/
def trimSpaces (cs : List Char) : List Char :=
  ((cs.dropWhile (· = ' ')).reverse.dropWhile (· = ' ')).reverse

/-- Cut a text at each occurrence of a character. -/
def cutAt (sep : Char) : List Char → List (List Char)
  | [] => [[]]
  | c :: cs =>
    match cutAt sep cs with
    | [] => [[c]]
    | piece :: pieces => if c = sep then [] :: piece :: pieces else (c :: piece) :: pieces

/-- A port as text (`30_encoding.md` R84). -/
def readPort (cs : List Char) : Option Port :=
  match trimSpaces cs with
  | ['P'] => some .P
  | ['C'] => some .C
  | ['S'] => some .S
  | ['T'] => some .T
  | _ => none

/-- The operands of a line, separated by commas; none at all is the empty list. -/
def readOperands (cs : List Char) : Option (List Nat) :=
  if trimSpaces cs = [] then some []
  else (cutAt ',' cs).mapM (fun x => readNumber (trimSpaces x))

/-- Read one line: `PORT: MNEMONIC [op1 [, op2 [, op3]]]`, `H: ACK`, or only a comment (`30_encoding.md` R84). A source
operation name of R85 is no line: DESIGN CHOICE, since R84 names only the mnemonics of R66 and R85 gives the names no
line form; `expandSource` turns one, held as data, into its line [log 18]. -/
def readLine (text : List Char) : Except AsmError SourceLine :=
  let code := trimSpaces (text.takeWhile (· ≠ ';'))
  if code = [] then .ok .blank
  else
    let port := code.takeWhile (· ≠ ':')
    let body := trimSpaces ((code.dropWhile (· ≠ ':')).drop 1)
    if trimSpaces port = ['H'] ∧ body = ['A', 'C', 'K'] then .ok .ack
    else
      match readPort port with
      | none => .error .badPort
      | some p =>
        match Mnemonic.table.find? (fun m => mnemonicText m == body.takeWhile (· ≠ ' ')) with
        | none => .error .badMnemonic
        | some m =>
          match readOperands (body.dropWhile (· ≠ ' ')) with
          | none => .error .badNumber
          | some operands => .ok (.command p m operands)

/-- The command a mnemonic and its operands make; none if their number is not the mnemonic's
(`30_encoding.md` R84). -/
def buildInstr (m : Mnemonic) (operands : List Nat) : Option Instr :=
  match m, operands with
  | .RB_INIT, [cap] => some (.rbInit (BitVec.ofNat 16 cap))
  | .RB_IS_EMPTY, [] => some .rbIsEmpty
  | .RB_IS_FULL, [] => some .rbIsFull
  | .RB_COUNT, [] => some .rbCount
  | .RB_AVAILABLE, [] => some .rbAvailable
  | .RB_WRITE, [b] => some (.rbWrite (BitVec.ofNat 8 b))
  | .RB_READ, [] => some .rbRead
  | .RB_PEEK, [] => some .rbPeek
  | .RB_DRAIN, [maxLen] => some (.rbDrain (BitVec.ofNat 16 maxLen))
  | .SCH_REGISTER, [action, name, period] =>
    some (.schRegister (BitVec.ofNat 8 action) (BitVec.ofNat 16 name) (BitVec.ofNat 32 period))
  | .SCH_TICK, [cur] => some (.schTick (BitVec.ofNat 32 cur))
  | .TMR_START, [j, start, duration] =>
    some (.tmrStart (BitVec.ofNat 8 j) (BitVec.ofNat 32 start) (BitVec.ofNat 32 duration))
  | .TMR_STOP, [j] => some (.tmrStop (BitVec.ofNat 8 j))
  | .TMR_EXPIRED, [j, tick] => some (.tmrExpired (BitVec.ofNat 8 j) (BitVec.ofNat 32 tick))
  | _, _ => none

/-- The command of a line: refused, never truncated, if an operand is outside its field (`30_encoding.md` R86). -/
def assembleCommand (m : Mnemonic) (operands : List Nat) : Except AsmError Instr :=
  if fitsLimits operands m.limits then
    match buildInstr m operands with
    | some i => .ok i
    | none => .error .badOperand
  else .error .badOperand

/-- The events that issue a line: its words presented on the port in order, then the turn of that port's agent;
or the host's acknowledgement (`30_encoding.md` R84). -/
def lineEvents : SourceLine → Except AsmError (List Event)
  | .command p m operands =>
    match assembleCommand m operands with
    | .ok i => .ok ((encode i).map (Event.word p) ++ [.turn p])
    | .error e => .error e
  | .ack => .ok [.ack]
  | .blank => .ok []

/-- The one command each source operation name expands to (`30_encoding.md` R85). -/
def expandSource (o : SourceOp) : SourceLine :=
  match o with
  | .init capacity => .command .S .RB_INIT [capacity]
  | .isEmpty x => .command x .RB_IS_EMPTY []
  | .isFull x => .command x .RB_IS_FULL []
  | .count x => .command x .RB_COUNT []
  | .push byte => .command .P .RB_WRITE [byte]
  | .pop => .command .C .RB_READ []
  | .peek => .command .C .RB_PEEK []
  | .available => .command .C .RB_AVAILABLE []
  | .drain maxLen => .command .C .RB_DRAIN [maxLen]
  | .register name period action => .command .S .SCH_REGISTER [action, name, period]
  | .advance tick => .command .S .SCH_TICK [tick]
  | .start j currentTick duration => .command .T .TMR_START [j, currentTick, duration]
  | .stop j => .command .T .TMR_STOP [j]
  | .expired j currentTick => .command .T .TMR_EXPIRED [j, currentTick]

/-- What a word of a response channel says (`30_encoding.md` R69, R71). -/
inductive Response where
  | final (st : Status) (rdata : Half)
  | data (b : Byte)
  deriving DecidableEq, Repr

/-- The status codes in the order of `30_encoding.md` R70. -/
def Status.table : List Status :=
  [.ok, .full, .empty, .errConfig, .errRegFull, .errPhase, .errIndex, .errIllegal, .errPort]

/-- Read a word of a response channel; none if its STATUS is no code of `30_encoding.md` R70. -/
def readResponse (w : Word) : Option Response :=
  if opcField w = 0x80 then some (.data (byteField w))
  else (Status.table.find? (fun st => st.code == opcField w)).map (fun st => .final st (immField w))

/-- `push(byte) -> bool`: true iff the status is OK (`30_encoding.md` R85). -/
def pushResult (w : Word) : Bool :=
  match readResponse w with
  | some (.final .ok _) => true
  | _ => false

/-- `pop() -> optional<byte>`: RDATA[7:0] iff the status is OK, else none (`30_encoding.md` R85). -/
def popResult (w : Word) : Option Byte :=
  match readResponse w with
  | some (.final .ok rdata) => some (rdata.setWidth 8)
  | _ => none

/-- The bytes a drain delivered: the DATA beats before its final response (`30_encoding.md` R71). -/
def drainedBytes : List Word → List Byte
  | [] => []
  | w :: ws =>
    match readResponse w with
    | some (.data b) => b :: drainedBytes ws
    | _ => []

/-- A status as text (`30_encoding.md` R70). -/
def Status.text (st : Status) : List Char :=
  match st with
  | .ok => "OK".toList
  | .full => "FULL".toList
  | .empty => "EMPTY".toList
  | .errConfig => "ERR_CONFIG".toList
  | .errRegFull => "ERR_REG_FULL".toList
  | .errPhase => "ERR_PHASE".toList
  | .errIndex => "ERR_INDEX".toList
  | .errIllegal => "ERR_ILLEGAL".toList
  | .errPort => "ERR_PORT".toList

/-- A result as `30_encoding.md` R84 writes it: `-> STATUS[, RDATA]` or `-> DATA b`, numbers in decimal, RDATA
only with OK [log 18]. -/
def Response.text (r : Response) : List Char :=
  match r with
  | .final st rdata =>
    "-> ".toList ++ st.text ++ (if st = .ok then ", ".toList ++ Nat.toDigits 10 rdata.toNat else [])
  | .data b => "-> DATA ".toList ++ Nat.toDigits 10 b.toNat

/-- A dispatch event as `30_encoding.md` R84 writes it: `=> DISPATCH i, action, name`, numbers in decimal
[log 18]. -/
def dispatchText (w : Word) : List Char :=
  "=> DISPATCH ".toList ++ Nat.toDigits 10 (opcField w).toNat ++ ", ".toList
    ++ Nat.toDigits 10 (idxField w).toNat ++ ", ".toList ++ Nat.toDigits 10 (immField w).toNat

end Sys2Proof.Machine
end

