-- ==== Sys2Proof/Safety.lean ====
section
/-! DEFINITION. The terms the statements use: the bytes in the buffer, the invariant of reachable states, what a
step answers, what an observer of the channels sees, and the parts of the state no command can observe. -/

namespace Sys2Proof.Machine

/-! ### What a command's answer leaves -/

/-- `s` after its active port's command is answered: the command's words are taken and one final response is put
on that port; nothing else changes (`30_encoding.md` R69). -/
def State.responded (s : State) (st : Status) (rdata : Half) : State :=
  { s with
    inp := s.inp.set s.active (dropCommand (s.inp.get s.active))
    out := s.out.set s.active ⟨(s.out.get s.active).kept, (s.out.get s.active).sent ++ [finalWord st rdata]⟩ }

/-- `s` after its active port's command is accepted without a response (`10_state.md` R36). -/
def State.accepted (s : State) : State :=
  { s with inp := s.inp.set s.active (dropCommand (s.inp.get s.active)) }

/-- The words put on a channel between two states with no reset between them. -/
def newWords (before after : Channel) : List Word := after.sent.drop before.sent.length

/-- Every field of `10_state.md` holds the same value (`60_exceptions.md` R131). -/
def SameUnits (s t : State) : Prop :=
  t.par = s.par ∧ t.rb = s.rb ∧ t.timers = s.timers ∧ t.sch = s.sch ∧ t.drain = s.drain ∧ t.tick = s.tick ∧
    t.dispatch = s.dispatch ∧ t.resets = s.resets

/-- The statuses a command can return (`60_exceptions.md` R130). -/
def statusesOf (i : Instr) : List Status :=
  match i with
  | .rbInit _ => [.ok, .errPort, .errConfig]
  | .rbIsEmpty | .rbIsFull | .rbCount | .rbAvailable | .rbDrain _ | .schTick _ => [.ok, .errPort]
  | .rbWrite _ => [.ok, .errPort, .full]
  | .rbRead | .rbPeek => [.ok, .errPort, .empty]
  | .schRegister _ _ _ => [.ok, .errPort, .errPhase, .errConfig, .errRegFull]
  | .tmrStart _ _ _ | .tmrStop _ | .tmrExpired _ _ => [.ok, .errPort, .errIndex]

/-- A state of rest: every port idle, no drain and no tick in flight (`60_exceptions.md` R146). -/
def State.quiescent (s : State) : Bool := s.drain.isNone && s.tick.isNone

/-! ### The buffer as a queue -/

/-- The slot of the byte `d` places after the oldest (`10_state.md` R28). -/
def RingBuffer.liveSlot (r : RingBuffer) (d : Nat) : Nat := (r.tail.toNat + d) % r.cap.toNat

/-- The buffered bytes, oldest first. -/
def State.contents (s : State) : List Byte :=
  (List.range s.rb.count).map fun d => s.slot (s.rb.liveSlot d)

/-! ### The invariant -/

/-- What holds in every reachable state. -/
structure State.Inv (s : State) : Prop where
  /-- `00_scope.md` R5 -/
  par_legal : s.par.legal = true
  /-- `10_state.md` R22 -/
  two_le_cap : 2 ≤ s.rb.cap.toNat
  /-- `10_state.md` R22 -/
  cap_le_depth : s.rb.cap.toNat ≤ s.par.depth
  /-- `10_state.md` R26 -/
  head_lt_cap : s.rb.head.toNat < s.rb.cap.toNat
  /-- `10_state.md` R26 -/
  tail_lt_cap : s.rb.tail.toNat < s.rb.cap.toNat
  /-- Storage is in canonical form. -/
  storage_wf : s.rb.storage.wf = true
  /-- Only slots that exist are listed (`20_memory.md` R45). -/
  storage_lt : ∀ c ∈ s.rb.storage, c.1 < s.par.depth
  /-- Every live slot was written since the last reset (`10_state.md` R28). -/
  live_written : ∀ d < s.rb.count, (s.rb.storage.read (s.rb.liveSlot d)).isSome = true
  /-- `10_state.md` R29 -/
  timers_length : s.timers.length = s.par.ntimers
  /-- `10_state.md` R32 -/
  tasks_length : s.sch.tasks.length = s.par.ntasks
  /-- `10_state.md` R30 -/
  ntasks_le : s.sch.ntasks.toNat ≤ s.par.ntasks
  /-- A registered entry has a period of 1 or more (`10_state.md` R32). -/
  period_ne_zero : ∀ i < s.sch.ntasks.toNat, (s.task i).period ≠ 0
  /-- A tick is in flight only in RUNNING (`42_scheduler.md` R116). -/
  tick_running : s.tick.isSome = true → s.sch.phase = .running
  /-- The scan stays inside the registry, and each task gave at most one dispatch (`42_scheduler.md` R122). -/
  tick_scan : ∀ t, s.tick = some t → t.i.toNat + t.wait.toNat ≤ s.sch.ntasks.toNat ∧
    t.n.toNat ≤ t.i.toNat + t.wait.toNat
  /-- A drain's counters never exceed its 16-bit `max_len` (`10_state.md` R34). -/
  drain_bound : ∀ d, s.drain = some d → d.rem.toNat + d.n.toNat ≤ 65535
  /-- A port never holds two commands (`60_exceptions.md` R141). -/
  one_command : ∀ p, dropCommand (s.inp.get p) = []

/-- The states of runs: from reset, with any legal parameters and any schedule, by steps. -/
inductive Reachable : State → Prop where
  | start (c : Params) (es : List Event) (h : c.legal = true) :
      Reachable ((State.resetWith c).withSchedule es)
  | next (s t : State) (h : Reachable s) (e : step s = .next t) : Reachable t

/-! ### What an observer of the channels sees: the FIFO property -/

/-- The bytes an observer counts since the last reset or successful RB_INIT (`20_memory.md` R62): those of
RB_WRITE commands answered OK, and those returned by RB_READ responses with status OK and DATA beats. -/
structure Fifo where
  accepted : List Byte
  returned : List Byte
  deriving DecidableEq, Repr

/-- The step from `s` to `t` answered an RB_INIT with OK. -/
def freshInit (s t : State) : Bool :=
  match decode s.inp.onS with
  | .instr (.rbInit _) _ =>
    s.tick.isNone && decide (newWords s.out.onS t.out.onS = [finalWord .ok 0])
  | _ => false

/-- The byte of an RB_WRITE the step from `s` to `t` answered OK. -/
def acceptedBytes (s t : State) : List Byte :=
  match decode s.inp.onP with
  | .instr (.rbWrite b) _ => if newWords s.out.onP t.out.onP = [finalWord .ok 0] then [b] else []
  | _ => []

/-- Port C is idle and the command presented on it is an RB_READ. -/
def State.readPresented (s : State) : Bool :=
  match decode s.inp.onC with
  | .instr .rbRead _ => s.drain.isNone
  | _ => false

/-- The bytes the step from `s` to `t` returned on port C. -/
def returnedBytes (s t : State) : List Byte :=
  (newWords s.out.onC t.out.onC).flatMap fun w =>
    match readResponse w with
    | some (.data b) => [b]
    | some (.final .ok rdata) => if s.readPresented then [rdata.setWidth 8] else []
    | _ => []

/-- What the observer has counted after the step from `s` to `t`. -/
def Fifo.observe (g : Fifo) (s t : State) : Fifo :=
  if t.resets ≠ s.resets ∨ freshInit s t = true then ⟨[], []⟩
  else ⟨g.accepted ++ acceptedBytes s t, g.returned ++ returnedBytes s t⟩

/-- A run from reset, watched. -/
inductive Watched : State → Fifo → Prop where
  | start (c : Params) (es : List Event) (h : c.legal = true) :
      Watched ((State.resetWith c).withSchedule es) ⟨[], []⟩
  | next (s t : State) (g : Fifo) (h : Watched s g) (e : step s = .next t) : Watched t (g.observe s t)

/-- Steps with no step of port C, no reset and no successful RB_INIT among them (`40_ringbuffer.md` R102). -/
inductive ConsumerQuiet : State → State → Prop where
  | refl (s : State) : ConsumerQuiet s s
  | next (s t u : State) (h : ConsumerQuiet s t) (e : step t = .next u)
      (hc : t.nextEvent ≠ some (.turn .C)) (hr : t.nextEvent ≠ some .reset) (hi : freshInit t u = false) :
      ConsumerQuiet s u

/-! ### What no command can observe -/

/-- Two states that differ at most in what the spec calls unobservable: slots that are not live (`10_state.md`
R28), the draws of reset storage (R25) and unregistered task entries (R32). -/
structure SameView (s t : State) : Prop where
  par : t.par = s.par
  cap : t.rb.cap = s.rb.cap
  head : t.rb.head = s.rb.head
  tail : t.rb.tail = s.rb.tail
  live : ∀ d < s.rb.count, t.slot (s.rb.liveSlot d) = s.slot (s.rb.liveSlot d)
  timers : t.timers = s.timers
  ntasks : t.sch.ntasks = s.sch.ntasks
  phase : t.sch.phase = s.sch.phase
  tasks : ∀ i < s.sch.ntasks.toNat, t.task i = s.task i
  drain : t.drain = s.drain
  tick : t.tick = s.tick
  inp : t.inp = s.inp
  out : t.out = s.out
  dispatch : t.dispatch = s.dispatch
  active : t.active = s.active
  schedule : t.schedule = s.schedule

/-- Two answers of a step that no command can tell apart. -/
def SameViewResult (a b : Result) : Prop :=
  match a, b with
  | .next s, .next t => SameView s t
  | .fault x, .fault y => x = y
  | .refused x, .refused y => x = y
  | _, _ => False

/-! ### A whole scheduler pass -/

/-- What one pass at tick `cur` makes of a task: no catch-up, `last_run` becomes `cur` (`42_scheduler.md` R122). -/
def Task.afterPass (x : Task) (cur : Tick) : Task := if x.due cur then { x with lastRun := cur } else x

/-- The registered tasks. -/
def State.registered (s : State) : List Task := s.sch.tasks.take s.sch.ntasks.toNat

/-- The dispatch events of a pass over tasks whose first index is `i`, in registration order
(`42_scheduler.md` R123). -/
def passWords (cur : Tick) (i : Nat) : List Task → List Word
  | [] => []
  | x :: xs =>
    if x.due cur then dispatchWord (BitVec.ofNat 9 i) x :: passWords cur (i + 1) xs
    else passWords cur (i + 1) xs

/-- The events of a pass with every dispatch acknowledged at once. -/
def passEvents (cur : Tick) : List Task → List Event
  | [] => [.turn .S]
  | x :: xs => if x.due cur then .turn .S :: .ack :: passEvents cur xs else .turn .S :: passEvents cur xs

/-- How often a task is dispatched by passes at the ticks of a list, in order. -/
def dispatchCount (x : Task) : List Tick → Nat
  | [] => 0
  | cur :: ts => (x.due cur).toNat + dispatchCount (x.afterPass cur) ts

/-- The events by which a producer writes bytes: each command's word, then its turn. -/
def writeEvents (bs : List Byte) : List Event :=
  bs.flatMap fun b => (encode (.rbWrite b)).map (Event.word .P) ++ [.turn .P]

end Sys2Proof.Machine
end

