-- ==== Sys2Proof/Certificates/Slice0/Obligations.lean ====
section
/-! DEFINITION. The statements about the block, for the provers. Each docstring names the rules of spec/ it
formalises, or says that it is derived and rests on the model's own choices. -/

open Sys2Proof Sys2Proof.Machine

/-! ### Reset -/

/-- `10_state.md` R39: the state after reset, for every legal build. Storage and the registry's entries are
unspecified there, so nothing is said of their content. -/
def Obligations.ResetHoldsSpecValues : Prop :=
  State.reset = State.resetWith ⟨16, 8, 4, none⟩ ∧
  ∀ c : Params, c.legal = true →
    let s := State.resetWith c
    s.rb.cap.toNat = c.depth ∧ s.rb.head = 0 ∧ s.rb.tail = 0 ∧
    s.timers = List.replicate c.ntimers ⟨0, 0, false⟩ ∧
    s.sch.ntasks = 0 ∧ s.sch.phase = .setup ∧ s.sch.tasks.length = c.ntasks ∧
    s.drain = none ∧ s.tick = none ∧ (∀ p, s.busy p = false) ∧ (∀ p, s.inp.get p = []) ∧
    (∀ p, (s.out.get p).words = []) ∧ s.dispatch.words = []

/-- Derived from `70_reset_and_hazards.md` R147, R148: reset in any state gives the reset values in one step, the
in-flight commands and the words not yet taken are gone, and what was put on a channel stays on it. That a channel
keeps both its old words and an empty list of new ones is the model's choice [log 8]; that the environment's
events go on is too [log 13]. -/
def Obligations.ResetEventFromAnyState : Prop :=
  ∀ (s : State) (es : List Event), s.schedule = .reset :: es → ∃ t, step s = .next t ∧
    t.par = s.par ∧ t.rb = ⟨BitVec.ofNat 16 s.par.depth, 0, 0, []⟩ ∧
    t.timers = List.replicate s.par.ntimers ⟨0, 0, false⟩ ∧
    t.sch.ntasks = 0 ∧ t.sch.phase = .setup ∧ t.sch.tasks.length = s.par.ntasks ∧
    t.drain = none ∧ t.tick = none ∧ (∀ p, t.inp.get p = []) ∧
    (∀ p, (t.out.get p).words = (s.out.get p).words ∧ (t.out.get p).sent = []) ∧
    t.dispatch.words = s.dispatch.words ∧ t.dispatch.sent = [] ∧
    t.schedule = es ∧ ackStep t = .next t

/-! ### The ring buffer commands -/

/-- Derived from `40_ringbuffer.md` R87, `00_scope.md` R10 and `60_exceptions.md` R132: RB_INIT, its word, its port, its
hold, its refusal and its effect. That a held RB_INIT answers the unchanged state, its word still waiting, is deduced
[log 15]. -/
def Obligations.RbInitBuildsFreshBuffer : Prop :=
  (∀ cap : Half, decode [BitVec.ofNat 32 (0x10000000 + cap.toNat)] = .instr (.rbInit cap) []) ∧
  ∀ (cap : Half) (s : State),
    (s.active ≠ .S → exec (.rbInit cap) s = .next (s.responded .errPort 0)) ∧
    (s.active = .S → s.drain ≠ none → exec (.rbInit cap) s = .next s) ∧
    (s.active = .S → s.drain = none → (cap.toNat < 2 ∨ s.par.depth < cap.toNat) →
      exec (.rbInit cap) s = .next (s.responded .errConfig 0)) ∧
    (s.active = .S → s.drain = none → 2 ≤ cap.toNat → cap.toNat ≤ s.par.depth →
      exec (.rbInit cap) s = .next (State.responded { s with rb := ⟨cap, 0, 0, s.rb.storage⟩ } .ok 0))

/-- `40_ringbuffer.md` R88: RB_IS_EMPTY answers 1 iff `head == tail`, and changes nothing. -/
def Obligations.RbIsEmptyAnswersHeadEqualsTail : Prop :=
  decode [0x11000000#32] = .instr .rbIsEmpty [] ∧
  ∀ s : State,
    (s.active = .T → exec .rbIsEmpty s = .next (s.responded .errPort 0)) ∧
    (s.active ≠ .T → exec .rbIsEmpty s = .next (s.responded .ok (if s.rb.head = s.rb.tail then 1 else 0)))

/-- `40_ringbuffer.md` R89: RB_IS_FULL answers 1 iff `(head + 1) mod CAP == tail`, and changes nothing. -/
def Obligations.RbIsFullAnswersOneSlotLeft : Prop :=
  decode [0x12000000#32] = .instr .rbIsFull [] ∧
  ∀ s : State, 2 ≤ s.rb.cap.toNat →
    (s.active = .T → exec .rbIsFull s = .next (s.responded .errPort 0)) ∧
    (s.active ≠ .T → exec .rbIsFull s = .next (s.responded .ok
      (if (s.rb.head.toNat + 1) % s.rb.cap.toNat = s.rb.tail.toNat then 1 else 0)))

/-- `40_ringbuffer.md` R90: RB_COUNT answers the number of buffered bytes, by the rule's formula, which is the
number of bytes in the buffer and the remainder of `head - tail`; nothing changes. -/
def Obligations.RbCountAnswersBufferedBytes : Prop :=
  decode [0x13000000#32] = .instr .rbCount [] ∧
  ∀ s : State, s.rb.head.toNat < s.rb.cap.toNat → s.rb.tail.toNat < s.rb.cap.toNat →
    (s.active = .T → exec .rbCount s = .next (s.responded .errPort 0)) ∧
    (s.active ≠ .T → ∃ c : Nat, exec .rbCount s = .next (s.responded .ok (BitVec.ofNat 16 c)) ∧
      c < s.rb.cap.toNat ∧
      c = (if s.rb.tail.toNat ≤ s.rb.head.toNat then s.rb.head.toNat - s.rb.tail.toNat
           else s.rb.head.toNat + s.rb.cap.toNat - s.rb.tail.toNat) ∧
      (c : Int) = ((s.rb.head.toNat : Int) - s.rb.tail.toNat) % s.rb.cap.toNat ∧
      c = s.contents.length)

/-- `40_ringbuffer.md` R91: RB_AVAILABLE answers 1 iff `head != tail`, and changes nothing. -/
def Obligations.RbAvailableAnswersNotEmpty : Prop :=
  decode [0x14000000#32] = .instr .rbAvailable [] ∧
  ∀ s : State,
    (s.active = .T → exec .rbAvailable s = .next (s.responded .errPort 0)) ∧
    (s.active ≠ .T → exec .rbAvailable s = .next (s.responded .ok (if s.rb.head = s.rb.tail then 0 else 1)))

/-- `40_ringbuffer.md` R92: RB_WRITE. A set bit of `IMM[15:8]` is illegal. Full: FULL and nothing changes. Else the
byte is in slot `head`, every other slot reads as before, `head` advances, and nothing else changes. -/
def Obligations.RbWriteStoresAtHead : Prop :=
  (∀ b : Byte, decode [BitVec.ofNat 32 (0x18000000 + b.toNat)] = .instr (.rbWrite b) []) ∧
  (∀ h : Word, h.toNat / 2 ^ 24 = 0x18 → h.toNat / 2 ^ 8 % 2 ^ 8 ≠ 0 → decode [h] = .illegal .reservedBits []) ∧
  ∀ (b : Byte) (s : State), 2 ≤ s.rb.cap.toNat →
    (s.active ≠ .P → exec (.rbWrite b) s = .next (s.responded .errPort 0)) ∧
    (s.active = .P → (s.rb.head.toNat + 1) % s.rb.cap.toNat = s.rb.tail.toNat →
      exec (.rbWrite b) s = .next (s.responded .full 0)) ∧
    (s.active = .P → (s.rb.head.toNat + 1) % s.rb.cap.toNat ≠ s.rb.tail.toNat →
      s.rb.head.toNat < s.par.depth →
      ∃ t, exec (.rbWrite b) s = .next t ∧ t.slot s.rb.head.toNat = b ∧
        (∀ k, k ≠ s.rb.head.toNat → t.slot k = s.slot k) ∧
        t.rb.head.toNat = (s.rb.head.toNat + 1) % s.rb.cap.toNat ∧
        t.rb.tail = s.rb.tail ∧ t.rb.cap = s.rb.cap ∧ { t with rb := s.rb } = s.responded .ok 0)

/-- `40_ringbuffer.md` R93: RB_READ. Empty: EMPTY and nothing changes. Else the byte at `tail` is answered and
`tail` advances; storage and everything else stay. -/
def Obligations.RbReadTakesByteAtTail : Prop :=
  decode [0x19000000#32] = .instr .rbRead [] ∧
  ∀ s : State,
    (s.active ≠ .C → exec .rbRead s = .next (s.responded .errPort 0)) ∧
    (s.active = .C → s.rb.head = s.rb.tail → exec .rbRead s = .next (s.responded .empty 0)) ∧
    (s.active = .C → s.rb.head ≠ s.rb.tail → s.rb.tail.toNat < s.par.depth →
      exec .rbRead s = .next (State.responded
        { s with rb := { s.rb with tail := BitVec.ofNat 16 ((s.rb.tail.toNat + 1) % s.rb.cap.toNat) } }
        .ok ((s.slot s.rb.tail.toNat).setWidth 16)))

/-- `40_ringbuffer.md` R94: RB_PEEK answers the byte at `tail`, or EMPTY; nothing changes. -/
def Obligations.RbPeekLeavesTail : Prop :=
  decode [0x1A000000#32] = .instr .rbPeek [] ∧
  ∀ s : State,
    (s.active ≠ .C → exec .rbPeek s = .next (s.responded .errPort 0)) ∧
    (s.active = .C → s.rb.head = s.rb.tail → exec .rbPeek s = .next (s.responded .empty 0)) ∧
    (s.active = .C → s.rb.head ≠ s.rb.tail → s.rb.tail.toNat < s.par.depth →
      exec .rbPeek s = .next (s.responded .ok ((s.slot s.rb.tail.toNat).setWidth 16)))

/-- `40_ringbuffer.md` R95: the accept step of RB_DRAIN begins a drain and gives no response. -/
def Obligations.RbDrainAcceptBeginsDrain : Prop :=
  (∀ m : Half, decode [BitVec.ofNat 32 (0x1B000000 + m.toNat)] = .instr (.rbDrain m) []) ∧
  ∀ (m : Half) (s : State),
    (s.active ≠ .C → exec (.rbDrain m) s = .next (s.responded .errPort 0)) ∧
    (s.active = .C → exec (.rbDrain m) s = .next (State.accepted { s with drain := some ⟨m, 0⟩ }))

/-- `40_ringbuffer.md` R96 and `30_encoding.md` R71: the byte step of a drain takes the byte at `tail`, advances
`tail` and puts the beat with 0x80 in bits 31:24, 0 in bits 23:8 and the byte in bits 7:0; nothing else changes. -/
def Obligations.DrainByteStepPutsBeat : Prop :=
  ∀ (s : State) (d : Draining) (es : List Event),
    s.schedule = .turn .C :: es → s.drain = some d → d.rem ≠ 0 → s.rb.head ≠ s.rb.tail →
    s.rb.tail.toNat < s.par.depth →
    step s = .next { s with
      schedule := es
      rb := { s.rb with tail := BitVec.ofNat 16 ((s.rb.tail.toNat + 1) % s.rb.cap.toNat) }
      out := { s.out with onC := ⟨s.out.onC.kept, s.out.onC.sent ++
        [BitVec.ofNat 32 (0x80 * 2 ^ 24 + (s.slot s.rb.tail.toNat).toNat)]⟩ }
      drain := some ⟨d.rem - 1, d.n + 1⟩ }

/-- `40_ringbuffer.md` R97: the end step answers OK with the number of beats and frees the port; and a drain ends
once port C had `rem + 1` turns, whatever events come between. -/
def Obligations.DrainAlwaysEnds : Prop :=
  (∀ (s : State) (d : Draining) (es : List Event),
    s.schedule = .turn .C :: es → s.drain = some d → (d.rem = 0 ∨ s.rb.head = s.rb.tail) →
    step s = .next { s with
      schedule := es
      out := { s.out with onC := ⟨s.out.onC.kept, s.out.onC.sent ++ [finalWord .ok d.n]⟩ }
      drain := none }) ∧
  ∀ (s : State) (d : Draining), s.Inv → s.drain = some d →
    d.rem.toNat + 1 ≤ s.schedule.count (.turn .C) →
    ∃ k t, k ≤ s.schedule.length ∧ core.run k s = .next t ∧ t.drain = none

/-! ### The scheduler commands -/

/-- `42_scheduler.md` R115: SCH_REGISTER, its words, its port, its three refusals in order, and the entry added. -/
def Obligations.SchRegisterAddsTask : Prop :=
  (∀ (a : Index) (nm : Half) (p : Tick),
    decode [BitVec.ofNat 32 (0x20000000 + a.toNat * 2 ^ 16 + nm.toNat), p] = .instr (.schRegister a nm p) []) ∧
  ∀ (a : Index) (nm : Half) (p : Tick) (s : State),
    (s.active ≠ .S → exec (.schRegister a nm p) s = .next (s.responded .errPort 0)) ∧
    (s.active = .S → s.sch.phase = .running →
      exec (.schRegister a nm p) s = .next (s.responded .errPhase 0)) ∧
    (s.active = .S → s.sch.phase = .setup → p = 0 →
      exec (.schRegister a nm p) s = .next (s.responded .errConfig 0)) ∧
    (s.active = .S → s.sch.phase = .setup → p ≠ 0 → s.sch.ntasks.toNat = s.par.ntasks →
      exec (.schRegister a nm p) s = .next (s.responded .errRegFull 0)) ∧
    (s.active = .S → s.sch.phase = .setup → p ≠ 0 → s.sch.ntasks.toNat < s.par.ntasks →
      s.sch.tasks.length = s.par.ntasks → s.par.ntasks ≤ 256 →
      ∃ t, exec (.schRegister a nm p) s = .next t ∧
        t.sch.ntasks.toNat = s.sch.ntasks.toNat + 1 ∧ t.sch.phase = .setup ∧
        t.task s.sch.ntasks.toNat = ⟨p, 0, a, nm⟩ ∧
        (∀ i, i ≠ s.sch.ntasks.toNat → t.task i = s.task i) ∧
        { t with sch := s.sch } = s.responded .ok (s.sch.ntasks.setWidth 16))

/-- `42_scheduler.md` R116: the accept step of SCH_TICK sets RUNNING, begins the pass and gives no response. -/
def Obligations.SchTickAcceptBeginsPass : Prop :=
  (∀ cur : Tick, decode [0x21000000#32, cur] = .instr (.schTick cur) []) ∧
  ∀ (cur : Tick) (s : State),
    (s.active ≠ .S → exec (.schTick cur) s = .next (s.responded .errPort 0)) ∧
    (s.active = .S → exec (.schTick cur) s = .next (State.accepted
      { s with sch := { s.sch with phase := .running }, tick := some ⟨cur, 0, 0, false⟩ }))

/-- `42_scheduler.md` R117, R121 and `30_encoding.md` R72: the due test, unsigned and mod 2^32; a task that is due is
dispatched: its event word, `last_run`, and the wait; nothing else changes. -/
def Obligations.DispatchStepPutsEvent : Prop :=
  (∀ (y : Task) (cur : Tick),
    y.due cur = true ↔ y.period.toNat ≤ (cur.toNat + 2 ^ 32 - y.lastRun.toNat) % 2 ^ 32) ∧
  ∀ (s : State) (x : Ticking) (es : List Event) (y : Task),
    s.schedule = .turn .S :: es → s.tick = some x → x.wait = false →
    x.i.toNat < s.sch.ntasks.toNat → s.sch.tasks[x.i.toNat]? = some y →
    y.period.toNat ≤ (x.cur.toNat + 2 ^ 32 - y.lastRun.toNat) % 2 ^ 32 →
    step s = .next { s with
      schedule := es
      dispatch := ⟨s.dispatch.kept, s.dispatch.sent ++
        [BitVec.ofNat 32 (x.i.toNat % 2 ^ 8 * 2 ^ 24 + y.action.toNat * 2 ^ 16 + y.name.toNat)]⟩
      sch := { s.sch with tasks := s.sch.tasks.set x.i.toNat { y with lastRun := x.cur } }
      tick := some ⟨x.cur, x.i, x.n + 1, true⟩ }

/-- `42_scheduler.md` R118: a task that is not due is passed over; nothing but the scan's index changes. -/
def Obligations.SkipStepPassesTask : Prop :=
  ∀ (s : State) (x : Ticking) (es : List Event) (y : Task),
    s.schedule = .turn .S :: es → s.tick = some x → x.wait = false →
    x.i.toNat < s.sch.ntasks.toNat → s.sch.tasks[x.i.toNat]? = some y →
    (x.cur.toNat + 2 ^ 32 - y.lastRun.toNat) % 2 ^ 32 < y.period.toNat →
    step s = .next { s with schedule := es, tick := some ⟨x.cur, x.i + 1, x.n, false⟩ }

/-- Derived from `42_scheduler.md` R119 and `30_encoding.md` R73: the acknowledgement ends the wait, and is ignored when
nothing waits (R73); while a dispatch waits, a turn of port S is taken off the schedule and changes nothing else, which
is deduced from its step not being enabled [log 3]. -/
def Obligations.AckEndsWaitOrIsIgnored : Prop :=
  ∀ (s : State) (es : List Event),
    (∀ x, s.schedule = .ack :: es → s.tick = some x → x.wait = true →
      step s = .next { s with schedule := es, tick := some ⟨x.cur, x.i + 1, x.n, false⟩ }) ∧
    (s.schedule = .ack :: es → (∀ x, s.tick = some x → x.wait = false) →
      step s = .next { s with schedule := es }) ∧
    (∀ x, s.schedule = .turn .S :: es → s.tick = some x → x.wait = true →
      step s = .next { s with schedule := es })

/-- `42_scheduler.md` R120: the end step answers OK with the number of dispatches and frees the port. -/
def Obligations.TickEndStepAnswersCount : Prop :=
  ∀ (s : State) (x : Ticking) (es : List Event),
    s.schedule = .turn .S :: es → s.tick = some x → x.wait = false → x.i = s.sch.ntasks →
    step s = .next { s with
      schedule := es
      out := { s.out with onS := ⟨s.out.onS.kept, s.out.onS.sent ++ [finalWord .ok (x.n.setWidth 16)]⟩ }
      tick := none }

/-! ### The timer commands -/

/-- `41_timer.md` R107: TMR_START arms timer `j`; every other timer and all else stay. -/
def Obligations.TmrStartArmsTimer : Prop :=
  (∀ (j : Index) (a d : Tick),
    decode [BitVec.ofNat 32 (0x30000000 + j.toNat * 2 ^ 16), a, d] = .instr (.tmrStart j a d) []) ∧
  ∀ (j : Index) (a d : Tick) (s : State),
    (s.active ≠ .T → exec (.tmrStart j a d) s = .next (s.responded .errPort 0)) ∧
    (s.active = .T → s.par.ntimers ≤ j.toNat → exec (.tmrStart j a d) s = .next (s.responded .errIndex 0)) ∧
    (s.active = .T → j.toNat < s.par.ntimers → exec (.tmrStart j a d) s = .next (State.responded
      { s with timers := s.timers.set j.toNat ⟨a, d, true⟩ } .ok 0))

/-- `41_timer.md` R108: TMR_STOP disarms timer `j` and keeps its history; every other timer and all else stay. -/
def Obligations.TmrStopKeepsHistory : Prop :=
  (∀ j : Index, decode [BitVec.ofNat 32 (0x31000000 + j.toNat * 2 ^ 16)] = .instr (.tmrStop j) []) ∧
  ∀ (j : Index) (s : State),
    (s.active ≠ .T → exec (.tmrStop j) s = .next (s.responded .errPort 0)) ∧
    (s.active = .T → s.par.ntimers ≤ j.toNat → exec (.tmrStop j) s = .next (s.responded .errIndex 0)) ∧
    (∀ y, s.active = .T → j.toNat < s.par.ntimers → s.timers[j.toNat]? = some y →
      exec (.tmrStop j) s = .next (State.responded
        { s with timers := s.timers.set j.toNat ⟨y.startTick, y.duration, false⟩ } .ok 0))

/-- `41_timer.md` R109, R110: TMR_EXPIRED answers 1 iff the timer runs and the unsigned difference mod 2^32 reaches
its duration; nothing changes; and the source's worked case. -/
def Obligations.TmrExpiredComparesDifference : Prop :=
  (∀ (j : Index) (t : Tick),
    decode [BitVec.ofNat 32 (0x32000000 + j.toNat * 2 ^ 16), t] = .instr (.tmrExpired j t) []) ∧
  (∀ (j : Index) (t : Tick) (s : State),
    (s.active ≠ .T → exec (.tmrExpired j t) s = .next (s.responded .errPort 0)) ∧
    (s.active = .T → s.par.ntimers ≤ j.toNat → exec (.tmrExpired j t) s = .next (s.responded .errIndex 0)) ∧
    (∀ y, s.active = .T → j.toNat < s.par.ntimers → s.timers[j.toNat]? = some y →
      exec (.tmrExpired j t) s = .next (s.responded .ok
        (if y.running = true ∧ y.duration.toNat ≤ (t.toNat + 2 ^ 32 - y.startTick.toNat) % 2 ^ 32
         then 1 else 0)))) ∧
  Timer.expired ⟨0xFFFFFFF0, 32, true⟩ 0x00000010 = true ∧
  Timer.expired ⟨0xFFFFFFF0, 32, true⟩ 0x0000000F = false

/-- `41_timer.md` R111: aliasing. A running timer with `d > 0` is expired `k` ticks after its start (mod 2^32) iff
`d <= k`. -/
def Obligations.TimerAliasesEachTurnOfTheCounter : Prop :=
  ∀ (a d : Tick) (k : Nat), d ≠ 0 →
    (Timer.expired ⟨a, d, true⟩ (a + BitVec.ofNat 32 k) = true ↔ d.toNat ≤ k % 2 ^ 32)

/-- `41_timer.md` R112: the extremes of `duration`, and that every duration is accepted. -/
def Obligations.TimerDurationExtremes : Prop :=
  (∀ a t : Tick, Timer.expired ⟨a, 0, true⟩ t = true) ∧
  (∀ a t : Tick, Timer.expired ⟨a, 0xFFFFFFFF, true⟩ t = true ↔ t = a - 1) ∧
  (∀ (j : Index) (a d : Tick) (s : State), s.active = .T → j.toNat < s.par.ntimers →
    s.timers.length = s.par.ntimers →
    ∃ t, exec (.tmrStart j a d) s = .next t ∧ t.timer j.toNat = ⟨a, d, true⟩)

/-- `41_timer.md` R114: a timer command reads and writes only its own timer: the other timers stay, and its
response word is the same in two states that agree on timer `j`, the parameters and the port. -/
def Obligations.TimersAreIndependent : Prop :=
  ∀ (i : Instr) (j : Index), (∃ a d, i = .tmrStart j a d) ∨ i = .tmrStop j ∨ (∃ t, i = .tmrExpired j t) →
    ∀ s s' t t' : State, exec i s = .next t → exec i s' = .next t' →
      (∀ k, k ≠ j.toNat → t.timer k = s.timer k) ∧
      (s'.timer j.toNat = s.timer j.toNat → s'.par = s.par → s'.active = s.active →
        s'.timers.length = s.timers.length →
        t'.timer j.toNat = t.timer j.toNat ∧
        newWords (s'.out.get s.active) (t'.out.get s.active) = newWords (s.out.get s.active) (t.out.get s.active))

/-! ### Encoding -/

/-- Derived from `30_encoding.md` R69, R70: the fields of a final response word, and the status codes. -/
def Obligations.FinalWordFields : Prop :=
  Status.table.map Status.code = [0x00, 0x01, 0x02, 0x03, 0x04, 0x05, 0x06, 0x07, 0x08] ∧
  ∀ (st : Status) (r : Half),
    (finalWord st r).toNat = st.code.toNat * 2 ^ 24 + (if st = .ok then r.toNat else 0)

/-- `30_encoding.md` R66, R67: the opcode map: opcode, length, ports and reserved-zero mask of the 14 rows. -/
def Obligations.OpcodeMapRows : Prop :=
  Mnemonic.table.map (fun m => (m.opc.toNat, m.len, m.ports, m.rz.toNat)) =
    [(0x10, 1, [.S], 0x00FF0000), (0x11, 1, [.P, .C, .S], 0x00FFFFFF), (0x12, 1, [.P, .C, .S], 0x00FFFFFF),
     (0x13, 1, [.P, .C, .S], 0x00FFFFFF), (0x14, 1, [.P, .C, .S], 0x00FFFFFF), (0x18, 1, [.P], 0x00FFFF00),
     (0x19, 1, [.C], 0x00FFFFFF), (0x1A, 1, [.C], 0x00FFFFFF), (0x1B, 1, [.C], 0x00FF0000),
     (0x20, 2, [.S], 0x00000000), (0x21, 2, [.S], 0x00FFFFFF), (0x30, 3, [.T], 0x0000FFFF),
     (0x31, 1, [.T], 0x0000FFFF), (0x32, 2, [.T], 0x0000FFFF)]

/-- `30_encoding.md` R83: encoding and decoding are inverse: every command with every operand is read back from
its words, with the words after it left; and a stream that decodes to a command begins with that command's words. -/
def Obligations.DecodeEncodeAgree : Prop :=
  (∀ (i : Instr) (rest : List Word), i.wf = true → decode (encode i ++ rest) = .instr i rest) ∧
  (∀ (ws rest : List Word) (i : Instr), decode ws = .instr i rest → ws = encode i ++ rest) ∧
  (∀ i : Instr, ∃ (opc idx : Index) (imm : Half) (ops : List Word),
    encode i = (opc.setWidth 32 <<< 24 ||| idx.setWidth 32 <<< 16 ||| imm.setWidth 32) :: ops ∧
    opc = i.mnemonic.opc ∧ ops.length + 1 = i.mnemonic.len)

/-- `30_encoding.md` R75: each of the 242 undefined opcodes is a 1-word command, answered ERR_ILLEGAL with RDATA 0
on the port that received it, and changes no state. -/
def Obligations.UndefinedOpcodesAreIllegal : Prop :=
  ((List.range 256).filter fun k => (ofOpc (BitVec.ofNat 8 k)).isNone).length = 242 ∧
  ∀ (s : State) (p : Port) (es : List Event) (h : Word) (ws : List Word),
    h.toNat / 2 ^ 24 ∉ [0x10, 0x11, 0x12, 0x13, 0x14, 0x18, 0x19, 0x1A, 0x1B, 0x20, 0x21, 0x30, 0x31, 0x32] →
    s.schedule = .turn p :: es → s.busy p = false → s.inp.get p = h :: ws →
    step s = .next { s with
      schedule := es
      active := p
      inp := s.inp.set p ws
      out := s.out.set p ⟨(s.out.get p).kept, (s.out.get p).sent ++ [0x07000000#32]⟩ }

/-- `30_encoding.md` R76: a defined opcode with a reserved bit set is answered ERR_ILLEGAL after all its words are
taken, and changes no state. -/
def Obligations.ReservedBitsAreIllegal : Prop :=
  ∀ (s : State) (p : Port) (es : List Event) (m : Mnemonic) (h : Word) (ops rest : List Word),
    h.toNat / 2 ^ 24 = m.opc.toNat → h &&& m.rz ≠ 0 → ops.length + 1 = m.len →
    s.schedule = .turn p :: es → s.busy p = false → s.inp.get p = h :: (ops ++ rest) →
    step s = .next { s with
      schedule := es
      active := p
      inp := s.inp.set p rest
      out := s.out.set p ⟨(s.out.get p).kept, (s.out.get p).sent ++ [0x07000000#32]⟩ }

/-- `30_encoding.md` R74: a command is taken only by its ports: on any other port it is answered ERR_PORT and
changes no state, whatever its operands and the state. -/
def Obligations.WrongPortAnswersErrPort : Prop :=
  ∀ (i : Instr) (s : State),
    s.active ∉ (match i with
      | .rbIsEmpty | .rbIsFull | .rbCount | .rbAvailable => [Port.P, .C, .S]
      | .rbWrite _ => [.P]
      | .rbRead | .rbPeek | .rbDrain _ => [.C]
      | .rbInit _ | .schRegister _ _ _ | .schTick _ => [.S]
      | .tmrStart _ _ _ | .tmrStop _ | .tmrExpired _ _ => [.T]) →
    exec i s = .next { s with
      inp := s.inp.set s.active (dropCommand (s.inp.get s.active))
      out := s.out.set s.active ⟨(s.out.get s.active).kept, (s.out.get s.active).sent ++ [0x08000000#32]⟩ }

/-- `30_encoding.md` R82: the reference encodings, one per opcode, decode to the commands they stand for. -/
def Obligations.ReferenceEncodingsDecode : Prop :=
  decode [0x10000008] = .instr (.rbInit 8) [] ∧
  decode [0x11000000] = .instr .rbIsEmpty [] ∧
  decode [0x12000000] = .instr .rbIsFull [] ∧
  decode [0x13000000] = .instr .rbCount [] ∧
  decode [0x14000000] = .instr .rbAvailable [] ∧
  decode [0x18000061] = .instr (.rbWrite 0x61) [] ∧
  decode [0x19000000] = .instr .rbRead [] ∧
  decode [0x1A000000] = .instr .rbPeek [] ∧
  decode [0x1B00000A] = .instr (.rbDrain 10) [] ∧
  decode [0x20030101, 0x0000000A] = .instr (.schRegister 3 0x0101 10) [] ∧
  decode [0x21000000, 0x000000C8] = .instr (.schTick 200) [] ∧
  decode [0x30000000, 0xFFFFFFF0, 0x00000020] = .instr (.tmrStart 0 0xFFFFFFF0 32) [] ∧
  decode [0x31010000] = .instr (.tmrStop 1) [] ∧
  decode [0x32000000, 0x00000010] = .instr (.tmrExpired 0 0x10) []

/-- `30_encoding.md` R86: the assembler refuses a line whose operands are not as many as its mnemonic takes or are
outside their fields, accepts every other, and never truncates. -/
def Obligations.AssemblerNeverTruncates : Prop :=
  Mnemonic.table.map Mnemonic.limits =
    [[0xFFFF], [], [], [], [], [0xFF], [], [], [0xFFFF], [0xFF, 0xFFFF, 0xFFFFFFFF], [0xFFFFFFFF],
     [0xFF, 0xFFFFFFFF, 0xFFFFFFFF], [0xFF], [0xFF, 0xFFFFFFFF]] ∧
  ∀ (m : Mnemonic) (ops : List Nat),
    (List.Forall₂ (· ≤ ·) ops m.limits → ∃ i, assembleCommand m ops = .ok i ∧ i.mnemonic = m ∧ i.operands = ops) ∧
    (¬ List.Forall₂ (· ≤ ·) ops m.limits → assembleCommand m ops = .error .badOperand)

/-! ### The machine -/

/-- Derived from `60_exceptions.md` R132, R141 and `30_encoding.md` R80: at the turn of an idle port on which a
well-formed command is presented whole, a step runs that command on that port. -/
def Obligations.StepRunsDecodedCommand : Prop :=
  ∀ (s : State) (p : Port) (es : List Event) (i : Instr) (rest : List Word),
    s.schedule = .turn p :: es → s.busy p = false → decode (s.inp.get p) = .instr i rest → i.wf = true →
    step s = exec i { s with schedule := es, active := p }

/-- Derived from `60_exceptions.md` R141: a word presented on a port joins the words that wait there, and holds
while a whole command waits; a turn of an idle port changes nothing while words are still to come. How words are
presented is the model's choice [log 4], and that such a turn is taken off the schedule is deduced [log 3]. -/
def Obligations.WordsGatherUntilCommandIsWhole : Prop :=
  ∀ (s : State) (p : Port) (w : Word) (es : List Event),
    (s.schedule = .word p w :: es → decode (s.inp.get p) = .incomplete →
      step s = .next { s with schedule := es, inp := s.inp.set p (s.inp.get p ++ [w]) }) ∧
    (s.schedule = .word p w :: es → decode (s.inp.get p) ≠ .incomplete →
      step s = .next { s with schedule := es }) ∧
    (s.schedule = .turn p :: es → s.busy p = false → decode (s.inp.get p) = .incomplete →
      step s = .next { s with schedule := es })

/-- Derived from `10_state.md` R26, R39: the invariant holds right after reset, for every legal build and whatever
events come. The form of storage [log 6] and one command a port at most [log 4] are the model's choices. -/
def Obligations.ResetStateHasInvariant : Prop :=
  ∀ (c : Params) (es : List Event), c.legal = true → ((State.resetWith c).withSchedule es).Inv

/-- Derived from `10_state.md` R22 to R36: every step keeps the invariant, from every state that has it. The form of
storage [log 6] and one command a port at most [log 4] are the model's choices. -/
def Obligations.StepKeepsInvariant : Prop :=
  ∀ s t : State, s.Inv → step s = .next t → t.Inv

/-- `10_state.md` R26: in every reachable state `head < CAP` and `tail < CAP`. -/
def Obligations.IndicesStayBelowCap : Prop :=
  ∀ s : State, Reachable s → s.rb.head.toNat < s.rb.cap.toNat ∧ s.rb.tail.toNat < s.rb.cap.toNat

/-- Derived from `60_exceptions.md` R129: nothing stops the block: from every state with the invariant a step
gives a next state, never a fault [log 11] and never a refusal. -/
def Obligations.NoStepStops : Prop :=
  ∀ s : State, s.Inv → ∃ t, step s = .next t

/-- `60_exceptions.md` R131: a command answered with any status other than OK changes no state of the block. -/
def Obligations.FailedCommandChangesNothing : Prop :=
  ∀ (p : Port) (s t : State) (st : Status) (r : Half), st ≠ .ok → takeStep p s = .next t →
    newWords (s.out.get p) (t.out.get p) = [finalWord st r] →
    SameUnits s t ∧ t.out = s.out.set p ⟨(s.out.get p).kept, (s.out.get p).sent ++ [finalWord st 0]⟩ ∧
    t.inp = s.inp.set p (dropCommand (s.inp.get p))

/-- Derived from `60_exceptions.md` R129, R130, `30_encoding.md` R69 and `10_state.md` R36: taking a whole
command puts exactly one final response on that port, with a status of the command's row, unless the command is held (RB_INIT behind a drain,
`40_ringbuffer.md` R87, `60_exceptions.md` R132; that the state is then unchanged is deduced [log 15]) or is one of the
two that answer later (RB_DRAIN, SCH_TICK), whose port is then busy: those put no response here. -/
def Obligations.TakenCommandAnswersOnce : Prop :=
  ∀ (p : Port) (s t : State) (i : Instr) (rest : List Word),
    decode (s.inp.get p) = .instr i rest → takeStep p s = .next t →
    (∃ st r, st ∈ statusesOf i ∧
      t.out = s.out.set p ⟨(s.out.get p).kept, (s.out.get p).sent ++ [finalWord st r]⟩) ∨
    ((∃ cap, i = .rbInit cap) ∧ s.drain ≠ none ∧ t = s.withActive p) ∨
    (((∃ m, i = .rbDrain m) ∨ (∃ cur, i = .schTick cur)) ∧ t.out = s.out ∧ t.busy p = true)

/-- Derived from `20_memory.md` R57, `10_state.md` R22, R31 and `00_scope.md` R5: who writes what. With no reset,
`head` moves only at a turn of P or by an RB_INIT answered OK, `tail` only at a turn of C or by such an RB_INIT,
`cap`, the registry and the phase only at a turn of S, the timers only at a turn of T, storage only at a turn of P
and only at `head`; the parameters never change. -/
def Obligations.SingleWriterDiscipline : Prop :=
  ∀ s t : State, step s = .next t → t.par = s.par ∧ (s.nextEvent ≠ some .reset →
    (t.rb.head ≠ s.rb.head → s.nextEvent = some (.turn .P) ∨
      (s.nextEvent = some (.turn .S) ∧ freshInit s t = true)) ∧
    (t.rb.tail ≠ s.rb.tail → s.nextEvent = some (.turn .C) ∨
      (s.nextEvent = some (.turn .S) ∧ freshInit s t = true)) ∧
    (t.rb.cap ≠ s.rb.cap → s.nextEvent = some (.turn .S) ∧ freshInit s t = true) ∧
    (t.sch ≠ s.sch → s.nextEvent = some (.turn .S)) ∧
    (t.timers ≠ s.timers → s.nextEvent = some (.turn .T)) ∧
    (∀ k, t.slot k ≠ s.slot k → s.nextEvent = some (.turn .P) ∧ k = s.rb.head.toNat))

/-- Derived from `42_scheduler.md` R125: RUNNING lasts until reset, and SETUP ends only when port S takes an
SCH_TICK. -/
def Obligations.PhaseChangesOnlyByTickAndReset : Prop :=
  ∀ s t : State, step s = .next t → s.nextEvent ≠ some .reset →
    (s.sch.phase = .running → t.sch.phase = .running) ∧
    (s.sch.phase = .setup → t.sch.phase = .running →
      s.nextEvent = some (.turn .S) ∧ s.tick = none ∧
      ∃ cur rest, decode (s.inp.get .S) = .instr (.schTick cur) rest ∧ t.tick = some ⟨cur, 0, 0, false⟩)

/-- Derived from `10_state.md` R37 and `70_reset_and_hazards.md` R148: a word put on a channel stays on it, and a
step puts at most one word. Over a reset it rests on the model's reading of R39 and R148 [log 8]. -/
def Obligations.ChannelsOnlyGrow : Prop :=
  ∀ s t : State, step s = .next t →
    (∀ p, ∃ ws, (t.out.get p).words = (s.out.get p).words ++ ws ∧ ws.length ≤ 1) ∧
    ∃ ws, t.dispatch.words = s.dispatch.words ++ ws ∧ ws.length ≤ 1

/-! ### Laws of the ring buffer -/

/-- Derived from `40_ringbuffer.md` R98: the index advance. -/
def Obligations.AdvanceWrapsAtCap : Prop :=
  ∀ cap x : Half, x.toNat < cap.toNat →
    (advance cap x).toNat = (x.toNat + 1) % cap.toNat ∧
    (x.toNat + 1 < cap.toNat → (advance cap x).toNat = x.toNat + 1) ∧
    (x.toNat + 1 = cap.toNat → advance cap x = 0)

/-- `40_ringbuffer.md` R99: `count` is the remainder of `head - tail` in 0 .. CAP-1, and the number of live slots,
which are all different. -/
def Obligations.CountIsNumberOfLiveSlots : Prop :=
  ∀ r : RingBuffer, r.head.toNat < r.cap.toNat → r.tail.toNat < r.cap.toNat →
    (r.count : Int) = ((r.head.toNat : Int) - r.tail.toNat) % r.cap.toNat ∧ r.count < r.cap.toNat ∧
    ((List.range r.count).map r.liveSlot).Nodup ∧
    (r.tail.toNat + r.count) % r.cap.toNat = r.head.toNat

/-- `40_ringbuffer.md` R100: full iff `count == CAP - 1`; RB_WRITE is answered FULL iff `count == CAP - 1`, and then
nothing is stored and the count is unchanged. -/
def Obligations.WriteFailsIffCountIsCapMinusOne : Prop :=
  ∀ (s : State) (b : Byte), s.Inv → s.active = .P →
    (s.rb.full = true ↔ s.rb.count = s.rb.cap.toNat - 1) ∧
    ∀ t, exec (.rbWrite b) s = .next t →
      (newWords s.out.onP t.out.onP = [finalWord .full 0] ↔ s.rb.count = s.rb.cap.toNat - 1) ∧
      (newWords s.out.onP t.out.onP = [finalWord .full 0] →
        t.rb.count = s.rb.count ∧ ∀ k, t.slot k = s.slot k)

/-- `40_ringbuffer.md` R105: with capacity 2 the buffer holds at most one byte; capacity 1, which would make it empty
and full at once, is refused by RB_INIT and never held. -/
def Obligations.SmallestBufferHoldsOneByte : Prop :=
  (∀ r : RingBuffer, r.cap = 2 → r.head.toNat < 2 → r.tail.toNat < 2 →
    (r.empty = true ↔ r.head = r.tail) ∧ (r.full = true ↔ r.head ≠ r.tail) ∧ (r.count = 0 ∨ r.count = 1)) ∧
  (∀ r : RingBuffer, r.cap = 1 → r.head.toNat < 1 → r.tail.toNat < 1 → r.empty = true ∧ r.full = true) ∧
  (∀ s : State, Reachable s → s.rb.cap ≠ 1) ∧
  ∀ s : State, s.active = .S → s.drain = none → exec (.rbInit 1) s = .next (s.responded .errConfig 0)

/-- Derived from `40_ringbuffer.md` R101: usable capacity. From an empty buffer the first `CAP - 1` writes are all
answered OK and the buffer then holds exactly their bytes, in order. No other port's step comes between them here; that
the `CAP`-th write is answered FULL is `WriteFailsIffCountIsCapMinusOne`. How words are presented is the model's
choice [log 4]. -/
def Obligations.UsableCapacityIsCapMinusOne : Prop :=
  ∀ (s : State) (bs : List Byte) (es : List Event), s.Inv → s.rb.head = s.rb.tail → s.inp.onP = [] →
    s.schedule = writeEvents bs ++ es → bs.length ≤ s.rb.cap.toNat - 1 →
    ∃ t, core.run (2 * bs.length) s = .next t ∧ t.schedule = es ∧ t.contents = bs ∧ t.rb.count = bs.length ∧
      t.out.onP.sent = s.out.onP.sent ++ List.replicate bs.length (finalWord .ok 0)

/-- `40_ringbuffer.md` R102: after an RB_PEEK answered OK, and with no step of port C, no reset and no RB_INIT
answered OK between, an RB_READ is answered OK with the same RDATA; and an RB_WRITE into a buffer that is not empty changes neither `tail` nor
the slot `tail`. -/
def Obligations.PeekThenReadGivesSameByte : Prop :=
  (∀ (s t : State) (b : Byte), s.Inv → s.rb.head ≠ s.rb.tail → exec (.rbWrite b) s = .next t →
    t.rb.tail = s.rb.tail ∧ t.slot s.rb.tail.toNat = s.slot s.rb.tail.toNat ∧
    ∀ k, k ≠ s.rb.head.toNat → t.slot k = s.slot k) ∧
  ∀ (s t u : State) (v : Half), s.Inv → s.active = .C → exec .rbPeek s = .next t →
    newWords s.out.onC t.out.onC = [finalWord .ok v] → ConsumerQuiet t u →
    ∃ w, exec .rbRead (u.withActive .C) = .next w ∧ newWords u.out.onC w.out.onC = [finalWord .ok v]

/-- `20_memory.md` R62: in every run from reset, the bytes returned since the last reset or successful RB_INIT are a
prefix of the bytes accepted since; and the bytes still buffered are the rest. -/
def Obligations.FifoOrderInEveryRun : Prop :=
  ∀ (s : State) (g : Fifo), Watched s g → g.returned <+: g.accepted ∧ g.accepted = g.returned ++ s.contents

/-- Derived from `20_memory.md` R62: one step of the FIFO law, from every state with the invariant. -/
def Obligations.StepKeepsFifoLaw : Prop :=
  ∀ (s t : State) (g : Fifo), s.Inv → step s = .next t → g.accepted = g.returned ++ s.contents →
    (g.observe s t).accepted = (g.observe s t).returned ++ t.contents

/-- Derived from `10_state.md` R25, R28, R32 and `70_reset_and_hazards.md` R150: what the spec leaves unspecified is
never observed. Two states that differ only in slots that are not live, in the draws of reset storage and in
unregistered task entries step alike and still differ only there [log 6, log 7]. -/
def Obligations.UnspecifiedContentIsNeverObserved : Prop :=
  ∀ s t : State, s.Inv → t.Inv → SameView s t → SameViewResult (step s) (step t)

/-- Derived from `70_reset_and_hazards.md` R162: a producer's "not full" stays true until the next turn of P, and a
consumer's "available" until the next turn of C, unless a reset or an RB_INIT answered OK comes between. -/
def Obligations.PolledAnswersStayTrue : Prop :=
  ∀ s t : State, s.Inv → step s = .next t →
    (s.rb.full = false → s.nextEvent ≠ some (.turn .P) → t.rb.full = false) ∧
    (s.rb.empty = false → s.nextEvent ≠ some (.turn .C) → s.nextEvent ≠ some .reset →
      freshInit s t = false → t.rb.empty = false)

/-! ### Laws of the scheduler -/

/-- Derived from `42_scheduler.md` R122, R123, R124, over one schedule among many [log 1]: a whole pass with every
dispatch acknowledged at once and no other port's step within it: each registered task that is due is dispatched once, in registration order, its `last_run` becomes the tick of the pass,
every other entry stays, and the response counts the dispatches. -/
def Obligations.PassDispatchesEachDueTaskOnce : Prop :=
  ∀ (s : State) (cur : Tick) (es : List Event), s.Inv → s.tick = some ⟨cur, 0, 0, false⟩ →
    s.schedule = passEvents cur s.registered ++ es →
    core.run (passEvents cur s.registered).length s = .next { s with
      schedule := es
      tick := none
      sch := { s.sch with
        tasks := s.registered.map (fun x => x.afterPass cur) ++ s.sch.tasks.drop s.sch.ntasks.toNat }
      dispatch := ⟨s.dispatch.kept, s.dispatch.sent ++ passWords cur 0 s.registered⟩
      out := { s.out with onS := ⟨s.out.onS.kept, s.out.onS.sent ++
        [finalWord .ok (BitVec.ofNat 16 (s.registered.filter (fun x => x.due cur)).length)]⟩ } }

/-- Derived from `42_scheduler.md` R127: a newly registered task of period `p` is dispatched `floor(T / p)` times by
passes at the ticks 1 .. `T`. -/
def Obligations.DispatchCountIsFloor : Prop :=
  ∀ (p : Tick) (a : Index) (nm : Half) (n : Nat), p ≠ 0 → n < 2 ^ 32 →
    dispatchCount ⟨p, 0, a, nm⟩ ((List.range n).map fun k => BitVec.ofNat 32 (k + 1)) = n / p.toNat

/-- Derived from `42_scheduler.md` R128: a pass that repeats the previous tick value dispatches no task. -/
def Obligations.RepeatedTickDispatchesNothing : Prop :=
  ∀ (x : Task) (cur : Tick), x.period ≠ 0 → (x.afterPass cur).due cur = false

/-- Derived from `60_exceptions.md` R144 (a), (b): a dispatch the host never acknowledges, in a run without reset, keeps
the tick in flight for ever: no further dispatch, no response on port S, and no word that waits there is taken (a);
a whole command that waits there stays as it is (b). Turns of S that change nothing are [log 3], and what follows the
schedule is the model's choice [log 2]. -/
def Obligations.UnacknowledgedTickHangs : Prop :=
  ∀ (s : State) (x : Ticking), s.tick = some x → x.wait = true → (∀ e ∈ s.schedule, e ≠ .ack ∧ e ≠ .reset) →
    ∀ k t, core.run k s = .next t →
      t.tick = some x ∧ t.out.onS = s.out.onS ∧ t.dispatch = s.dispatch ∧ s.inp.onS <+: t.inp.onS ∧
      (decode s.inp.onS ≠ .incomplete → t.inp.onS = s.inp.onS)

/-- Derived from `60_exceptions.md` R142 and the model's choice of what follows the schedule [log 2]: with nothing
scheduled the block comes to rest: no drain is in flight, a tick only if it awaits the host, and no idle port has a
whole command waiting. -/
def Obligations.BlockComesToRest : Prop :=
  ∀ s : State, s.Inv → s.schedule = [] → ∃ k t, core.run k s = .next t ∧ t.drain = none ∧
    (∀ x, t.tick = some x → x.wait = true) ∧ (∀ p, t.busy p = false → t.presented p = false) ∧ step t = .next t
end

