-- ==== Sys2Proof/Laws/Decode.lean ====
section
/-! SUPPORT. The fields of a header put together and taken apart, the opcode map both ways, and how the decoder
and the framing of a stream agree. -/

namespace Sys2Proof.Laws

open Sys2Proof.Machine

@[simp] theorem opcField_header (opc idx : Index) (imm : Half) : opcField (header opc idx imm) = opc := by
  apply BitVec.eq_of_getLsbD_eq
  intro i hi
  simp only [opcField, header]
  interval_cases i <;> simp

@[simp] theorem idxField_header (opc idx : Index) (imm : Half) : idxField (header opc idx imm) = idx := by
  apply BitVec.eq_of_getLsbD_eq
  intro i hi
  simp only [idxField, header]
  interval_cases i <;> simp

@[simp] theorem immField_header (opc idx : Index) (imm : Half) : immField (header opc idx imm) = imm := by
  apply BitVec.eq_of_getLsbD_eq
  intro i hi
  simp only [immField, header]
  interval_cases i <;> simp

/-- A header is put together from its own fields. -/
theorem header_fields (h : Word) : header (opcField h) (idxField h) (immField h) = h := by
  apply BitVec.eq_of_getLsbD_eq
  intro i hi
  simp only [opcField, idxField, immField, header]
  interval_cases i <;> simp

/-- A header as a number: OPC in 31:24, IDX in 23:16, IMM in 15:0. -/
theorem header_toNat (opc idx : Index) (imm : Half) :
    (header opc idx imm).toNat = opc.toNat * 2 ^ 24 + idx.toNat * 2 ^ 16 + imm.toNat := by
  have hi := idx.isLt
  have hm := imm.isLt
  have ho := opc.isLt
  simp only [header, BitVec.toNat_or, BitVec.toNat_shiftLeft, BitVec.toNat_setWidth]
  rw [Nat.mod_eq_of_lt (by omega : opc.toNat < 2 ^ 32), Nat.mod_eq_of_lt (by omega : idx.toNat < 2 ^ 32),
    Nat.mod_eq_of_lt (by omega : imm.toNat < 2 ^ 32), Nat.shiftLeft_eq, Nat.shiftLeft_eq,
    Nat.mod_eq_of_lt (by omega : opc.toNat * 2 ^ 24 < 2 ^ 32), Nat.mod_eq_of_lt (by omega : idx.toNat * 2 ^ 16 < 2 ^ 32),
    Nat.or_assoc, ← Nat.shiftLeft_eq idx.toNat, ← Nat.shiftLeft_add_eq_or_of_lt hm, Nat.shiftLeft_eq,
    ← Nat.shiftLeft_eq opc.toNat, ← Nat.shiftLeft_add_eq_or_of_lt (by omega : idx.toNat * 2 ^ 16 + imm.toNat < 2 ^ 24),
    Nat.shiftLeft_eq, Nat.add_assoc]

/-- A header from its number. -/
theorem header_eq_ofNat (opc idx : Index) (imm : Half) :
    header opc idx imm = BitVec.ofNat 32 (opc.toNat * 2 ^ 24 + idx.toNat * 2 ^ 16 + imm.toNat) := by
  rw [← header_toNat]
  simp

theorem zextByte_low (b : Byte) : (zextByte b &&& 0xFF#16).setWidth 8 = b := by
  apply BitVec.eq_of_getLsbD_eq
  intro i hi
  simp only [zextByte]
  interval_cases i <;> simp

@[simp] theorem byteField_header (opc idx : Index) (b : Byte) : byteField (header opc idx (zextByte b)) = b := by
  rw [byteField, immField_header, zextByte_low]

@[simp] theorem ofOpc_opc (m : Mnemonic) : ofOpc m.opc = some m := by cases m <;> decide

theorem opc_of_ofOpc {opc : Index} {m : Mnemonic} (h : ofOpc opc = some m) : m.opc = opc := by
  simpa using List.find?_some h

/-- The length of a defined command's stream prefix, from its row. -/
theorem commandLen_of_ofOpc {h : Word} {m : Mnemonic} (e : ofOpc (opcField h) = some m) : commandLen h = m.len := by
  simp [commandLen, e]

/-- The decoder leaves the words after the first command. -/
theorem decode_instr_rest {ws rest : List Word} {i : Instr} (h : decode ws = .instr i rest) :
    dropCommand ws = rest := by
  cases ws with
  | nil => simp [decode] at h
  | cons w ws =>
    simp only [decode] at h
    split at h
    · simp at h
    · rename_i m hm
      split at h
      · simp at h
      · split at h
        · simp only [Decoded.instr.injEq] at h
          simp [dropCommand, commandLen_of_ofOpc hm, h.2]
        · simp at h

theorem decode_illegal_rest {ws rest : List Word} {why : IllegalReason} (h : decode ws = .illegal why rest) :
    dropCommand ws = rest := by
  cases ws with
  | nil => simp [decode] at h
  | cons w ws =>
    simp only [decode] at h
    split at h
    · rename_i hm
      simp only [Decoded.illegal.injEq] at h
      simp [dropCommand, commandLen, hm, h.2]
    · rename_i m hm
      split at h
      · simp at h
      · split at h
        · simp at h
        · simp only [Decoded.illegal.injEq] at h
          simp [dropCommand, commandLen_of_ofOpc hm, h.2]

/-- Every stream of words is incomplete, illegal, or a command: the decoder gives the mnemonic its opcode names. -/
theorem decode_instr_mnemonic {ws rest : List Word} {i : Instr} (h : decode ws = .instr i rest) :
    ∃ w vs, ws = w :: vs ∧ ofOpc (opcField w) = some i.mnemonic ∧ w &&& i.mnemonic.rz = 0 ∧
      i.mnemonic.len - 1 ≤ vs.length := by
  cases ws with
  | nil => simp [decode] at h
  | cons w ws =>
    simp only [decode] at h
    split at h
    · simp at h
    · rename_i m hm
      split at h
      · simp at h
      · rename_i hlen
        split at h
        · rename_i hz
          simp only [Decoded.instr.injEq] at h
          have hi : i.mnemonic = m := by rw [← h.1]; cases m <;> rfl
          exact ⟨w, ws, rfl, hi ▸ hm, hi ▸ hz, by rw [hi]; omega⟩
        · simp at h

/-- One word added to an incomplete command is still at most one command (`60_exceptions.md` R141). -/
theorem dropCommand_of_incomplete {ws : List Word} (w : Word) (h : decode ws = .incomplete) :
    dropCommand (ws ++ [w]) = [] := by
  cases ws with
  | nil => simp [dropCommand]
  | cons v ws =>
    simp only [decode] at h
    split at h
    · simp at h
    · rename_i m hm
      split at h
      · rename_i hlen
        simp only [List.cons_append, dropCommand, commandLen_of_ofOpc hm]
        apply List.drop_eq_nil_of_le
        simp only [List.length_append, List.length_cons, List.length_nil]
        omega
      · split at h <;> simp at h

/-- Every command is well-formed: its operands' types are the fields' widths (`30_encoding.md` R86). -/
theorem instr_wf (i : Instr) : i.wf = true := by
  cases i <;> simp [Instr.wf, Instr.operands, Instr.mnemonic, Mnemonic.limits, fitsLimits] <;> omega

end Sys2Proof.Laws
end

