-- ==== Sys2Proof/Laws/State.lean ====
section
/-! SUPPORT. One lemma per field per update of the state, and the value of one port after another is set, so that
no later proof unfolds a record update. -/

namespace Sys2Proof.Machine

section Ports
variable {α : Type} (x : PerPort α) (v : α)

@[simp] theorem PerPort.get_P : x.get .P = x.onP := rfl
@[simp] theorem PerPort.get_C : x.get .C = x.onC := rfl
@[simp] theorem PerPort.get_S : x.get .S = x.onS := rfl
@[simp] theorem PerPort.get_T : x.get .T = x.onT := rfl
@[simp] theorem PerPort.set_P : x.set .P v = { x with onP := v } := rfl
@[simp] theorem PerPort.set_C : x.set .C v = { x with onC := v } := rfl
@[simp] theorem PerPort.set_S : x.set .S v = { x with onS := v } := rfl
@[simp] theorem PerPort.set_T : x.set .T v = { x with onT := v } := rfl

@[simp] theorem PerPort.get_set_same (p : Port) : (x.set p v).get p = v := by cases p <;> rfl

theorem PerPort.get_set_ne {p q : Port} (h : q ≠ p) : (x.set p v).get q = x.get q := by
  cases p <;> cases q <;> first | rfl | exact absurd rfl h

@[simp] theorem PerPort.get_map (f : α → α) (p : Port) : (x.map f).get p = f (x.get p) := by cases p <;> rfl

end Ports

@[simp] theorem Channel.put_kept (c : Channel) (w : Word) : (c.put w).kept = c.kept := rfl
@[simp] theorem Channel.put_sent (c : Channel) (w : Word) : (c.put w).sent = c.sent ++ [w] := rfl
@[simp] theorem Channel.cut_sent (c : Channel) : c.cut.sent = [] := rfl
@[simp] theorem Channel.cut_words (c : Channel) : c.cut.words = c.words := by simp [Channel.cut, Channel.words]

section Updates
variable (s : State)

@[simp] theorem State.put_par (p : Port) (w : Word) : (s.put p w).par = s.par := rfl
@[simp] theorem State.put_rb (p : Port) (w : Word) : (s.put p w).rb = s.rb := rfl
@[simp] theorem State.put_timers (p : Port) (w : Word) : (s.put p w).timers = s.timers := rfl
@[simp] theorem State.put_sch (p : Port) (w : Word) : (s.put p w).sch = s.sch := rfl
@[simp] theorem State.put_drain (p : Port) (w : Word) : (s.put p w).drain = s.drain := rfl
@[simp] theorem State.put_tick (p : Port) (w : Word) : (s.put p w).tick = s.tick := rfl
@[simp] theorem State.put_inp (p : Port) (w : Word) : (s.put p w).inp = s.inp := rfl
@[simp] theorem State.put_out (p : Port) (w : Word) : (s.put p w).out = s.out.set p ((s.out.get p).put w) := rfl
@[simp] theorem State.put_dispatch (p : Port) (w : Word) : (s.put p w).dispatch = s.dispatch := rfl
@[simp] theorem State.put_active (p : Port) (w : Word) : (s.put p w).active = s.active := rfl
@[simp] theorem State.put_resets (p : Port) (w : Word) : (s.put p w).resets = s.resets := rfl
@[simp] theorem State.put_schedule (p : Port) (w : Word) : (s.put p w).schedule = s.schedule := rfl

@[simp] theorem State.emitDispatch_par (w : Word) : (s.emitDispatch w).par = s.par := rfl
@[simp] theorem State.emitDispatch_rb (w : Word) : (s.emitDispatch w).rb = s.rb := rfl
@[simp] theorem State.emitDispatch_timers (w : Word) : (s.emitDispatch w).timers = s.timers := rfl
@[simp] theorem State.emitDispatch_sch (w : Word) : (s.emitDispatch w).sch = s.sch := rfl
@[simp] theorem State.emitDispatch_drain (w : Word) : (s.emitDispatch w).drain = s.drain := rfl
@[simp] theorem State.emitDispatch_tick (w : Word) : (s.emitDispatch w).tick = s.tick := rfl
@[simp] theorem State.emitDispatch_inp (w : Word) : (s.emitDispatch w).inp = s.inp := rfl
@[simp] theorem State.emitDispatch_out (w : Word) : (s.emitDispatch w).out = s.out := rfl
@[simp] theorem State.emitDispatch_dispatch (w : Word) : (s.emitDispatch w).dispatch = s.dispatch.put w := rfl
@[simp] theorem State.emitDispatch_active (w : Word) : (s.emitDispatch w).active = s.active := rfl
@[simp] theorem State.emitDispatch_resets (w : Word) : (s.emitDispatch w).resets = s.resets := rfl
@[simp] theorem State.emitDispatch_schedule (w : Word) : (s.emitDispatch w).schedule = s.schedule := rfl

@[simp] theorem State.emitData_par (b : Byte) : (s.emitData b).par = s.par := rfl
@[simp] theorem State.emitData_rb (b : Byte) : (s.emitData b).rb = s.rb := rfl
@[simp] theorem State.emitData_timers (b : Byte) : (s.emitData b).timers = s.timers := rfl
@[simp] theorem State.emitData_sch (b : Byte) : (s.emitData b).sch = s.sch := rfl
@[simp] theorem State.emitData_drain (b : Byte) : (s.emitData b).drain = s.drain := rfl
@[simp] theorem State.emitData_tick (b : Byte) : (s.emitData b).tick = s.tick := rfl
@[simp] theorem State.emitData_inp (b : Byte) : (s.emitData b).inp = s.inp := rfl
@[simp] theorem State.emitData_out (b : Byte) : (s.emitData b).out = s.out.set .C ((s.out.get .C).put (dataWord b)) := rfl
@[simp] theorem State.emitData_dispatch (b : Byte) : (s.emitData b).dispatch = s.dispatch := rfl
@[simp] theorem State.emitData_active (b : Byte) : (s.emitData b).active = s.active := rfl
@[simp] theorem State.emitData_resets (b : Byte) : (s.emitData b).resets = s.resets := rfl
@[simp] theorem State.emitData_schedule (b : Byte) : (s.emitData b).schedule = s.schedule := rfl

@[simp] theorem State.withPending_par (p : Port) (ws : List Word) : (s.withPending p ws).par = s.par := rfl
@[simp] theorem State.withPending_rb (p : Port) (ws : List Word) : (s.withPending p ws).rb = s.rb := rfl
@[simp] theorem State.withPending_timers (p : Port) (ws : List Word) : (s.withPending p ws).timers = s.timers := rfl
@[simp] theorem State.withPending_sch (p : Port) (ws : List Word) : (s.withPending p ws).sch = s.sch := rfl
@[simp] theorem State.withPending_drain (p : Port) (ws : List Word) : (s.withPending p ws).drain = s.drain := rfl
@[simp] theorem State.withPending_tick (p : Port) (ws : List Word) : (s.withPending p ws).tick = s.tick := rfl
@[simp] theorem State.withPending_inp (p : Port) (ws : List Word) : (s.withPending p ws).inp = s.inp.set p ws := rfl
@[simp] theorem State.withPending_out (p : Port) (ws : List Word) : (s.withPending p ws).out = s.out := rfl
@[simp] theorem State.withPending_dispatch (p : Port) (ws : List Word) : (s.withPending p ws).dispatch = s.dispatch := rfl
@[simp] theorem State.withPending_active (p : Port) (ws : List Word) : (s.withPending p ws).active = s.active := rfl
@[simp] theorem State.withPending_resets (p : Port) (ws : List Word) : (s.withPending p ws).resets = s.resets := rfl
@[simp] theorem State.withPending_schedule (p : Port) (ws : List Word) : (s.withPending p ws).schedule = s.schedule := rfl

@[simp] theorem State.takeCommand_par : (s.takeCommand).par = s.par := rfl
@[simp] theorem State.takeCommand_rb : (s.takeCommand).rb = s.rb := rfl
@[simp] theorem State.takeCommand_timers : (s.takeCommand).timers = s.timers := rfl
@[simp] theorem State.takeCommand_sch : (s.takeCommand).sch = s.sch := rfl
@[simp] theorem State.takeCommand_drain : (s.takeCommand).drain = s.drain := rfl
@[simp] theorem State.takeCommand_tick : (s.takeCommand).tick = s.tick := rfl
@[simp] theorem State.takeCommand_inp : (s.takeCommand).inp = s.inp.set s.active (dropCommand (s.inp.get s.active)) := rfl
@[simp] theorem State.takeCommand_out : (s.takeCommand).out = s.out := rfl
@[simp] theorem State.takeCommand_dispatch : (s.takeCommand).dispatch = s.dispatch := rfl
@[simp] theorem State.takeCommand_active : (s.takeCommand).active = s.active := rfl
@[simp] theorem State.takeCommand_resets : (s.takeCommand).resets = s.resets := rfl
@[simp] theorem State.takeCommand_schedule : (s.takeCommand).schedule = s.schedule := rfl

@[simp] theorem State.withHead_par (x : Half) : (s.withHead x).par = s.par := rfl
@[simp] theorem State.withHead_rb (x : Half) : (s.withHead x).rb = { s.rb with head := x } := rfl
@[simp] theorem State.withHead_timers (x : Half) : (s.withHead x).timers = s.timers := rfl
@[simp] theorem State.withHead_sch (x : Half) : (s.withHead x).sch = s.sch := rfl
@[simp] theorem State.withHead_drain (x : Half) : (s.withHead x).drain = s.drain := rfl
@[simp] theorem State.withHead_tick (x : Half) : (s.withHead x).tick = s.tick := rfl
@[simp] theorem State.withHead_inp (x : Half) : (s.withHead x).inp = s.inp := rfl
@[simp] theorem State.withHead_out (x : Half) : (s.withHead x).out = s.out := rfl
@[simp] theorem State.withHead_dispatch (x : Half) : (s.withHead x).dispatch = s.dispatch := rfl
@[simp] theorem State.withHead_active (x : Half) : (s.withHead x).active = s.active := rfl
@[simp] theorem State.withHead_resets (x : Half) : (s.withHead x).resets = s.resets := rfl
@[simp] theorem State.withHead_schedule (x : Half) : (s.withHead x).schedule = s.schedule := rfl

@[simp] theorem State.withTail_par (x : Half) : (s.withTail x).par = s.par := rfl
@[simp] theorem State.withTail_rb (x : Half) : (s.withTail x).rb = { s.rb with tail := x } := rfl
@[simp] theorem State.withTail_timers (x : Half) : (s.withTail x).timers = s.timers := rfl
@[simp] theorem State.withTail_sch (x : Half) : (s.withTail x).sch = s.sch := rfl
@[simp] theorem State.withTail_drain (x : Half) : (s.withTail x).drain = s.drain := rfl
@[simp] theorem State.withTail_tick (x : Half) : (s.withTail x).tick = s.tick := rfl
@[simp] theorem State.withTail_inp (x : Half) : (s.withTail x).inp = s.inp := rfl
@[simp] theorem State.withTail_out (x : Half) : (s.withTail x).out = s.out := rfl
@[simp] theorem State.withTail_dispatch (x : Half) : (s.withTail x).dispatch = s.dispatch := rfl
@[simp] theorem State.withTail_active (x : Half) : (s.withTail x).active = s.active := rfl
@[simp] theorem State.withTail_resets (x : Half) : (s.withTail x).resets = s.resets := rfl
@[simp] theorem State.withTail_schedule (x : Half) : (s.withTail x).schedule = s.schedule := rfl

@[simp] theorem State.withTimer_par (j : Nat) (x : Timer) : (s.withTimer j x).par = s.par := rfl
@[simp] theorem State.withTimer_rb (j : Nat) (x : Timer) : (s.withTimer j x).rb = s.rb := rfl
@[simp] theorem State.withTimer_timers (j : Nat) (x : Timer) : (s.withTimer j x).timers = s.timers.set j x := rfl
@[simp] theorem State.withTimer_sch (j : Nat) (x : Timer) : (s.withTimer j x).sch = s.sch := rfl
@[simp] theorem State.withTimer_drain (j : Nat) (x : Timer) : (s.withTimer j x).drain = s.drain := rfl
@[simp] theorem State.withTimer_tick (j : Nat) (x : Timer) : (s.withTimer j x).tick = s.tick := rfl
@[simp] theorem State.withTimer_inp (j : Nat) (x : Timer) : (s.withTimer j x).inp = s.inp := rfl
@[simp] theorem State.withTimer_out (j : Nat) (x : Timer) : (s.withTimer j x).out = s.out := rfl
@[simp] theorem State.withTimer_dispatch (j : Nat) (x : Timer) : (s.withTimer j x).dispatch = s.dispatch := rfl
@[simp] theorem State.withTimer_active (j : Nat) (x : Timer) : (s.withTimer j x).active = s.active := rfl
@[simp] theorem State.withTimer_resets (j : Nat) (x : Timer) : (s.withTimer j x).resets = s.resets := rfl
@[simp] theorem State.withTimer_schedule (j : Nat) (x : Timer) : (s.withTimer j x).schedule = s.schedule := rfl

@[simp] theorem State.withTask_par (i : Nat) (x : Task) : (s.withTask i x).par = s.par := rfl
@[simp] theorem State.withTask_rb (i : Nat) (x : Task) : (s.withTask i x).rb = s.rb := rfl
@[simp] theorem State.withTask_timers (i : Nat) (x : Task) : (s.withTask i x).timers = s.timers := rfl
@[simp] theorem State.withTask_sch (i : Nat) (x : Task) : (s.withTask i x).sch = { s.sch with tasks := s.sch.tasks.set i x } := rfl
@[simp] theorem State.withTask_drain (i : Nat) (x : Task) : (s.withTask i x).drain = s.drain := rfl
@[simp] theorem State.withTask_tick (i : Nat) (x : Task) : (s.withTask i x).tick = s.tick := rfl
@[simp] theorem State.withTask_inp (i : Nat) (x : Task) : (s.withTask i x).inp = s.inp := rfl
@[simp] theorem State.withTask_out (i : Nat) (x : Task) : (s.withTask i x).out = s.out := rfl
@[simp] theorem State.withTask_dispatch (i : Nat) (x : Task) : (s.withTask i x).dispatch = s.dispatch := rfl
@[simp] theorem State.withTask_active (i : Nat) (x : Task) : (s.withTask i x).active = s.active := rfl
@[simp] theorem State.withTask_resets (i : Nat) (x : Task) : (s.withTask i x).resets = s.resets := rfl
@[simp] theorem State.withTask_schedule (i : Nat) (x : Task) : (s.withTask i x).schedule = s.schedule := rfl

@[simp] theorem State.withDrain_par (d : Option Draining) : (s.withDrain d).par = s.par := rfl
@[simp] theorem State.withDrain_rb (d : Option Draining) : (s.withDrain d).rb = s.rb := rfl
@[simp] theorem State.withDrain_timers (d : Option Draining) : (s.withDrain d).timers = s.timers := rfl
@[simp] theorem State.withDrain_sch (d : Option Draining) : (s.withDrain d).sch = s.sch := rfl
@[simp] theorem State.withDrain_drain (d : Option Draining) : (s.withDrain d).drain = d := rfl
@[simp] theorem State.withDrain_tick (d : Option Draining) : (s.withDrain d).tick = s.tick := rfl
@[simp] theorem State.withDrain_inp (d : Option Draining) : (s.withDrain d).inp = s.inp := rfl
@[simp] theorem State.withDrain_out (d : Option Draining) : (s.withDrain d).out = s.out := rfl
@[simp] theorem State.withDrain_dispatch (d : Option Draining) : (s.withDrain d).dispatch = s.dispatch := rfl
@[simp] theorem State.withDrain_active (d : Option Draining) : (s.withDrain d).active = s.active := rfl
@[simp] theorem State.withDrain_resets (d : Option Draining) : (s.withDrain d).resets = s.resets := rfl
@[simp] theorem State.withDrain_schedule (d : Option Draining) : (s.withDrain d).schedule = s.schedule := rfl

@[simp] theorem State.withTick_par (t : Option Ticking) : (s.withTick t).par = s.par := rfl
@[simp] theorem State.withTick_rb (t : Option Ticking) : (s.withTick t).rb = s.rb := rfl
@[simp] theorem State.withTick_timers (t : Option Ticking) : (s.withTick t).timers = s.timers := rfl
@[simp] theorem State.withTick_sch (t : Option Ticking) : (s.withTick t).sch = s.sch := rfl
@[simp] theorem State.withTick_drain (t : Option Ticking) : (s.withTick t).drain = s.drain := rfl
@[simp] theorem State.withTick_tick (t : Option Ticking) : (s.withTick t).tick = t := rfl
@[simp] theorem State.withTick_inp (t : Option Ticking) : (s.withTick t).inp = s.inp := rfl
@[simp] theorem State.withTick_out (t : Option Ticking) : (s.withTick t).out = s.out := rfl
@[simp] theorem State.withTick_dispatch (t : Option Ticking) : (s.withTick t).dispatch = s.dispatch := rfl
@[simp] theorem State.withTick_active (t : Option Ticking) : (s.withTick t).active = s.active := rfl
@[simp] theorem State.withTick_resets (t : Option Ticking) : (s.withTick t).resets = s.resets := rfl
@[simp] theorem State.withTick_schedule (t : Option Ticking) : (s.withTick t).schedule = s.schedule := rfl

@[simp] theorem State.withActive_par (p : Port) : (s.withActive p).par = s.par := rfl
@[simp] theorem State.withActive_rb (p : Port) : (s.withActive p).rb = s.rb := rfl
@[simp] theorem State.withActive_timers (p : Port) : (s.withActive p).timers = s.timers := rfl
@[simp] theorem State.withActive_sch (p : Port) : (s.withActive p).sch = s.sch := rfl
@[simp] theorem State.withActive_drain (p : Port) : (s.withActive p).drain = s.drain := rfl
@[simp] theorem State.withActive_tick (p : Port) : (s.withActive p).tick = s.tick := rfl
@[simp] theorem State.withActive_inp (p : Port) : (s.withActive p).inp = s.inp := rfl
@[simp] theorem State.withActive_out (p : Port) : (s.withActive p).out = s.out := rfl
@[simp] theorem State.withActive_dispatch (p : Port) : (s.withActive p).dispatch = s.dispatch := rfl
@[simp] theorem State.withActive_active (p : Port) : (s.withActive p).active = p := rfl
@[simp] theorem State.withActive_resets (p : Port) : (s.withActive p).resets = s.resets := rfl
@[simp] theorem State.withActive_schedule (p : Port) : (s.withActive p).schedule = s.schedule := rfl

@[simp] theorem State.withSchedule_par (es : List Event) : (s.withSchedule es).par = s.par := rfl
@[simp] theorem State.withSchedule_rb (es : List Event) : (s.withSchedule es).rb = s.rb := rfl
@[simp] theorem State.withSchedule_timers (es : List Event) : (s.withSchedule es).timers = s.timers := rfl
@[simp] theorem State.withSchedule_sch (es : List Event) : (s.withSchedule es).sch = s.sch := rfl
@[simp] theorem State.withSchedule_drain (es : List Event) : (s.withSchedule es).drain = s.drain := rfl
@[simp] theorem State.withSchedule_tick (es : List Event) : (s.withSchedule es).tick = s.tick := rfl
@[simp] theorem State.withSchedule_inp (es : List Event) : (s.withSchedule es).inp = s.inp := rfl
@[simp] theorem State.withSchedule_out (es : List Event) : (s.withSchedule es).out = s.out := rfl
@[simp] theorem State.withSchedule_dispatch (es : List Event) : (s.withSchedule es).dispatch = s.dispatch := rfl
@[simp] theorem State.withSchedule_active (es : List Event) : (s.withSchedule es).active = s.active := rfl
@[simp] theorem State.withSchedule_resets (es : List Event) : (s.withSchedule es).resets = s.resets := rfl
@[simp] theorem State.withSchedule_schedule (es : List Event) : (s.withSchedule es).schedule = es := rfl

end Updates

/-! Reading one slot, one timer and one task after an update that leaves its unit alone is covered by the lemmas
above, since each reads only fields of the state: the three lemmas below say which. -/

theorem State.slot_congr {s t : State} (hr : t.rb.storage = s.rb.storage) (hn : t.resets = s.resets) (k : Nat) :
    t.slot k = s.slot k := by simp [State.slot, hr, hn]

theorem State.timer_congr {s t : State} (h : t.timers = s.timers) (j : Nat) : t.timer j = s.timer j := by
  simp [State.timer, h]

theorem State.task_congr {s t : State} (h : t.sch.tasks = s.sch.tasks) (i : Nat) : t.task i = s.task i := by
  simp [State.task, h]

end Sys2Proof.Machine
end

