-- ==== Sys2Proof/Laws/Memory.lean ====
section
/-! SUPPORT. The laws of ring storage: a read after a write, every other slot left alone, the canonical form and
the bound on the slots kept. -/

namespace Sys2Proof.Machine

theorem Memory.read_write_same (m : Memory) (k : Nat) (b : Byte) : Memory.read (Memory.write m k b) k = some b := by
  induction m with
  | nil => simp [Memory.write, Memory.read]
  | cons c m ih =>
    unfold Memory.write
    split
    · simp [Memory.read]
    · split
      · simp [Memory.read]
      · rename_i hne
        simp [Memory.read, Ne.symm hne, ih]

theorem Memory.read_write_ne (m : Memory) {k j : Nat} (b : Byte) (h : j ≠ k) :
    Memory.read (Memory.write m k b) j = Memory.read m j := by
  induction m with
  | nil => simp [Memory.write, Memory.read, Ne.symm h]
  | cons c m ih =>
    unfold Memory.write
    split
    · simp [Memory.read, Ne.symm h]
    · split
      · rename_i heq
        subst heq
        simp [Memory.read, Ne.symm h]
      · by_cases hc : c.1 = j
        · simp [Memory.read, hc]
        · simp [Memory.read, hc, ih]

/-- A listed slot after a write is the slot written or was listed before. -/
theorem Memory.mem_write {m : Memory} {k : Nat} {b : Byte} {c : Host.Cell} (h : c ∈ Memory.write m k b) :
    c = (k, b) ∨ c ∈ m := by
  induction m with
  | nil => simpa [Memory.write] using h
  | cons d m ih =>
    unfold Memory.write at h
    split at h
    · simpa using h
    · split at h
      · rcases List.mem_cons.mp h with h | h
        · exact .inl h
        · exact .inr (List.mem_cons_of_mem _ h)
      · rcases List.mem_cons.mp h with h | h
        · exact .inr (h ▸ List.mem_cons_self)
        · exact (ih h).imp_right (List.mem_cons_of_mem _)

theorem Memory.wf_nil : Memory.wf [] = true := rfl

/-- A write keeps the canonical form. -/
theorem Memory.write_wf {m : Memory} (k : Nat) (b : Byte) (h : m.wf = true) : (Memory.write m k b).wf = true := by
  induction m with
  | nil => simp [Memory.write, Memory.wf]
  | cons c m ih =>
    simp only [Memory.wf, decide_eq_true_eq, List.pairwise_cons] at h ih ⊢
    unfold Memory.write
    split
    · rename_i hk
      refine List.pairwise_cons.mpr ⟨?_, List.pairwise_cons.mpr h⟩
      intro a ha
      rcases List.mem_cons.mp ha with rfl | ha
      · exact hk
      · exact lt_trans hk (h.1 a ha)
    · split
      · rename_i heq
        subst heq
        exact List.pairwise_cons.mpr h
      · rename_i hk hne
        refine List.pairwise_cons.mpr ⟨?_, ih h.2⟩
        intro a ha
        rcases Memory.mem_write ha with rfl | ha
        · exact lt_of_le_of_ne (not_lt.mp hk) (fun e => hne e.symm)
        · exact h.1 a ha

/-- A write keeps every listed slot below a bound that the slot written is below. -/
theorem Memory.write_lt {m : Memory} {k n : Nat} (b : Byte) (hk : k < n) (h : ∀ c ∈ m, c.1 < n) :
    ∀ c ∈ Memory.write m k b, c.1 < n := by
  intro c hc
  rcases Memory.mem_write hc with rfl | hc
  · exact hk
  · exact h c hc

/-- The memory of a state right after reset has the canonical form. -/
theorem resetWith_storage_wf (c : Params) : (State.resetWith c).rb.storage.wf = true := rfl

end Sys2Proof.Machine
end

