-- ==== Sys2Proof/Laws/Ops.lean ====
section
/-! SUPPORT. For each shared operation and each meaning, once, everything it can do: if it answers `next t`, then
one of these cases holds. -/

namespace Sys2Proof.Machine

section Fields
variable (s : State) (st : Status) (rdata : Half)

@[simp] theorem State.responded_par : (s.responded st rdata).par = s.par := rfl
@[simp] theorem State.responded_rb : (s.responded st rdata).rb = s.rb := rfl
@[simp] theorem State.responded_timers : (s.responded st rdata).timers = s.timers := rfl
@[simp] theorem State.responded_sch : (s.responded st rdata).sch = s.sch := rfl
@[simp] theorem State.responded_drain : (s.responded st rdata).drain = s.drain := rfl
@[simp] theorem State.responded_tick : (s.responded st rdata).tick = s.tick := rfl
@[simp] theorem State.responded_inp : (s.responded st rdata).inp = s.inp.set s.active (dropCommand (s.inp.get s.active)) := rfl
@[simp] theorem State.responded_out : (s.responded st rdata).out = s.out.set s.active ⟨(s.out.get s.active).kept, (s.out.get s.active).sent ++ [finalWord st rdata]⟩ := rfl
@[simp] theorem State.responded_dispatch : (s.responded st rdata).dispatch = s.dispatch := rfl
@[simp] theorem State.responded_active : (s.responded st rdata).active = s.active := rfl
@[simp] theorem State.responded_resets : (s.responded st rdata).resets = s.resets := rfl
@[simp] theorem State.responded_schedule : (s.responded st rdata).schedule = s.schedule := rfl
@[simp] theorem State.accepted_par : s.accepted.par = s.par := rfl
@[simp] theorem State.accepted_rb : s.accepted.rb = s.rb := rfl
@[simp] theorem State.accepted_timers : s.accepted.timers = s.timers := rfl
@[simp] theorem State.accepted_sch : s.accepted.sch = s.sch := rfl
@[simp] theorem State.accepted_drain : s.accepted.drain = s.drain := rfl
@[simp] theorem State.accepted_tick : s.accepted.tick = s.tick := rfl
@[simp] theorem State.accepted_inp : s.accepted.inp = s.inp.set s.active (dropCommand (s.inp.get s.active)) := rfl
@[simp] theorem State.accepted_out : s.accepted.out = s.out := rfl
@[simp] theorem State.accepted_dispatch : s.accepted.dispatch = s.dispatch := rfl
@[simp] theorem State.accepted_active : s.accepted.active = s.active := rfl
@[simp] theorem State.accepted_resets : s.accepted.resets = s.resets := rfl
@[simp] theorem State.accepted_schedule : s.accepted.schedule = s.schedule := rfl

end Fields

variable {s t : State}

theorem answer_eq (st : Status) (rdata : Half) (s : State) : answer st rdata s = .next (s.responded st rdata) := rfl

theorem accept_eq (s : State) : accept s = .next s.accepted := rfl

theorem onPort_taken {i : Instr} {body : Result} (h : s.active ∈ i.ports) : onPort i s body = body := if_pos h

theorem onPort_refused {i : Instr} {body : Result} (h : s.active ∉ i.ports) :
    onPort i s body = .next (s.responded .errPort 0) := if_neg h

theorem onPort_cases {i : Instr} {body : Result} (h : onPort i s body = .next t) :
    (s.active ∉ i.ports ∧ t = s.responded .errPort 0) ∨ (s.active ∈ i.ports ∧ body = .next t) := by
  by_cases hp : s.active ∈ i.ports
  · rw [onPort_taken hp] at h
    exact .inr ⟨hp, h⟩
  · rw [onPort_refused hp] at h
    exact .inl ⟨hp, (Host.Outcome.next.inj h).symm⟩

theorem onTimer_cases {j : Index} {body : Result} (h : onTimer j s body = .next t) :
    (s.par.ntimers ≤ j.toNat ∧ t = s.responded .errIndex 0) ∨ (j.toNat < s.par.ntimers ∧ body = .next t) := by
  unfold onTimer at h
  split at h
  · rename_i hj
    exact .inl ⟨hj, (Host.Outcome.next.inj h).symm⟩
  · rename_i hj
    exact .inr ⟨not_le.mp hj, h⟩

theorem memRead_cases {k : Nat} {go : Byte → Result} (h : memRead s k go = .next t) :
    k < s.par.depth ∧ go (s.slot k) = .next t := by
  unfold memRead at h
  split at h
  · exact ⟨by assumption, h⟩
  · simp at h

theorem memWrite_cases {k : Nat} {b : Byte} {go : State → Result} (h : memWrite s k b go = .next t) :
    k < s.par.depth ∧ go { s with rb := { s.rb with storage := s.rb.storage.write k b } } = .next t := by
  unfold memWrite at h
  split at h
  · exact ⟨by assumption, h⟩
  · simp at h

/-- Reading the slot a write stored to, and any other slot (`20_memory.md` R46). -/
theorem slot_write (s : State) (k j : Nat) (b : Byte) :
    State.slot { s with rb := { s.rb with storage := s.rb.storage.write k b } } j =
      if j = k then b else s.slot j := by
  by_cases h : j = k
  · subst h
    simp [State.slot, Memory.read_write_same]
  · simp [State.slot, Memory.read_write_ne _ _ h, h]

theorem execRbInit_cases {cap : Half} (h : execRbInit cap s = .next t) :
    (s.active ∉ (Instr.rbInit cap).ports ∧ t = s.responded .errPort 0) ∨
    (s.active = .S ∧ s.drain.isSome = true ∧ t = s) ∨
    (s.active = .S ∧ s.drain = none ∧ (cap.toNat < 2 ∨ s.par.depth < cap.toNat) ∧ t = s.responded .errConfig 0) ∨
    (s.active = .S ∧ s.drain = none ∧ 2 ≤ cap.toNat ∧ cap.toNat ≤ s.par.depth ∧
      t = State.responded { s with rb := { s.rb with cap := cap, head := 0, tail := 0 } } .ok 0) := by
  rcases onPort_cases h with h | ⟨hp, h⟩
  · exact .inl h
  have hp : s.active = .S := by simpa [Instr.ports, Instr.mnemonic, Mnemonic.ports] using hp
  split at h
  · exact .inr (.inl ⟨hp, by assumption, (Host.Outcome.next.inj h).symm⟩)
  · have hd : s.drain = none := by simpa using ‹¬ s.drain.isSome = true›
    split at h
    · exact .inr (.inr (.inl ⟨hp, hd, by assumption, (Host.Outcome.next.inj h).symm⟩))
    · have hc := ‹¬ (cap.toNat < 2 ∨ s.par.depth < cap.toNat)›
      exact .inr (.inr (.inr ⟨hp, hd, by omega, by omega, (Host.Outcome.next.inj h).symm⟩))

theorem execRbIsEmpty_cases (h : execRbIsEmpty s = .next t) :
    (s.active ∉ Instr.rbIsEmpty.ports ∧ t = s.responded .errPort 0) ∨
    (s.active ∈ Instr.rbIsEmpty.ports ∧ t = s.responded .ok (rdataBool s.rb.empty)) :=
  (onPort_cases h).imp_right (And.imp_right fun h => (Host.Outcome.next.inj h).symm)

theorem execRbIsFull_cases (h : execRbIsFull s = .next t) :
    (s.active ∉ Instr.rbIsFull.ports ∧ t = s.responded .errPort 0) ∨
    (s.active ∈ Instr.rbIsFull.ports ∧ t = s.responded .ok (rdataBool s.rb.full)) :=
  (onPort_cases h).imp_right (And.imp_right fun h => (Host.Outcome.next.inj h).symm)

theorem execRbCount_cases (h : execRbCount s = .next t) :
    (s.active ∉ Instr.rbCount.ports ∧ t = s.responded .errPort 0) ∨
    (s.active ∈ Instr.rbCount.ports ∧ t = s.responded .ok (rdataNat s.rb.count)) :=
  (onPort_cases h).imp_right (And.imp_right fun h => (Host.Outcome.next.inj h).symm)

theorem execRbAvailable_cases (h : execRbAvailable s = .next t) :
    (s.active ∉ Instr.rbAvailable.ports ∧ t = s.responded .errPort 0) ∨
    (s.active ∈ Instr.rbAvailable.ports ∧ t = s.responded .ok (rdataBool (!s.rb.empty))) :=
  (onPort_cases h).imp_right (And.imp_right fun h => (Host.Outcome.next.inj h).symm)

theorem execRbWrite_cases {b : Byte} (h : execRbWrite b s = .next t) :
    (s.active ∉ (Instr.rbWrite b).ports ∧ t = s.responded .errPort 0) ∨
    (s.active = .P ∧ s.rb.full = true ∧ t = s.responded .full 0) ∨
    (s.active = .P ∧ s.rb.full = false ∧ s.rb.head.toNat < s.par.depth ∧
      t = State.responded { s with rb := { s.rb with
        head := advance s.rb.cap s.rb.head
        storage := s.rb.storage.write s.rb.head.toNat b } } .ok 0) := by
  rcases onPort_cases h with h | ⟨hp, h⟩
  · exact .inl h
  have hp : s.active = .P := by simpa [Instr.ports, Instr.mnemonic, Mnemonic.ports] using hp
  split at h
  · exact .inr (.inl ⟨hp, by assumption, (Host.Outcome.next.inj h).symm⟩)
  · obtain ⟨hk, h⟩ := memWrite_cases h
    exact .inr (.inr ⟨hp, by simpa using ‹¬ s.rb.full = true›, hk, (Host.Outcome.next.inj h).symm⟩)

theorem execRbRead_cases (h : execRbRead s = .next t) :
    (s.active ∉ Instr.rbRead.ports ∧ t = s.responded .errPort 0) ∨
    (s.active = .C ∧ s.rb.empty = true ∧ t = s.responded .empty 0) ∨
    (s.active = .C ∧ s.rb.empty = false ∧ s.rb.tail.toNat < s.par.depth ∧
      t = (s.withTail (advance s.rb.cap s.rb.tail)).responded .ok (zextByte (s.slot s.rb.tail.toNat))) := by
  rcases onPort_cases h with h | ⟨hp, h⟩
  · exact .inl h
  have hp : s.active = .C := by simpa [Instr.ports, Instr.mnemonic, Mnemonic.ports] using hp
  split at h
  · exact .inr (.inl ⟨hp, by assumption, (Host.Outcome.next.inj h).symm⟩)
  · obtain ⟨hk, h⟩ := memRead_cases h
    exact .inr (.inr ⟨hp, by simpa using ‹¬ s.rb.empty = true›, hk, (Host.Outcome.next.inj h).symm⟩)

theorem execRbPeek_cases (h : execRbPeek s = .next t) :
    (s.active ∉ Instr.rbPeek.ports ∧ t = s.responded .errPort 0) ∨
    (s.active = .C ∧ s.rb.empty = true ∧ t = s.responded .empty 0) ∨
    (s.active = .C ∧ s.rb.empty = false ∧ s.rb.tail.toNat < s.par.depth ∧
      t = s.responded .ok (zextByte (s.slot s.rb.tail.toNat))) := by
  rcases onPort_cases h with h | ⟨hp, h⟩
  · exact .inl h
  have hp : s.active = .C := by simpa [Instr.ports, Instr.mnemonic, Mnemonic.ports] using hp
  split at h
  · exact .inr (.inl ⟨hp, by assumption, (Host.Outcome.next.inj h).symm⟩)
  · obtain ⟨hk, h⟩ := memRead_cases h
    exact .inr (.inr ⟨hp, by simpa using ‹¬ s.rb.empty = true›, hk, (Host.Outcome.next.inj h).symm⟩)

theorem execRbDrain_cases {maxLen : Half} (h : execRbDrain maxLen s = .next t) :
    (s.active ∉ (Instr.rbDrain maxLen).ports ∧ t = s.responded .errPort 0) ∨
    (s.active = .C ∧ t = (s.withDrain (some ⟨maxLen, 0⟩)).accepted) := by
  rcases onPort_cases h with h | ⟨hp, h⟩
  · exact .inl h
  · have hp : s.active = .C := by simpa [Instr.ports, Instr.mnemonic, Mnemonic.ports] using hp
    exact .inr ⟨hp, (Host.Outcome.next.inj h).symm⟩

/-- The two steps of a drain in flight (`40_ringbuffer.md` R96, R97). -/
theorem drainStep_cases {d : Draining} (h : drainStep d s = .next t) :
    (d.rem ≠ 0 ∧ s.rb.empty = false ∧ s.rb.tail.toNat < s.par.depth ∧
      t = ((s.withTail (advance s.rb.cap s.rb.tail)).emitData (s.slot s.rb.tail.toNat)).withDrain
        (some ⟨d.rem - 1, d.n + 1⟩)) ∨
    ((d.rem = 0 ∨ s.rb.empty = true) ∧ t = (s.put .C (finalWord .ok d.n)).withDrain none) := by
  unfold drainStep at h
  split at h
  · rename_i hm
    obtain ⟨hk, h⟩ := memRead_cases h
    simp only [Draining.mayTake, Bool.and_eq_true, decide_eq_true_eq, Bool.not_eq_true'] at hm
    exact .inl ⟨hm.1, hm.2, hk, (Host.Outcome.next.inj h).symm⟩
  · rename_i hm
    refine .inr ⟨?_, (Host.Outcome.next.inj h).symm⟩
    by_cases hr : d.rem = 0
    · exact .inl hr
    · simp only [Draining.mayTake, hr, ne_eq, not_false_eq_true, decide_true, Bool.true_and] at hm
      exact .inr (by simpa using hm)

theorem execSchRegister_cases {action : Index} {name : Half} {period : Tick}
    (h : execSchRegister action name period s = .next t) :
    (s.active ∉ (Instr.schRegister action name period).ports ∧ t = s.responded .errPort 0) ∨
    (s.active = .S ∧ s.sch.phase = .running ∧ t = s.responded .errPhase 0) ∨
    (s.active = .S ∧ s.sch.phase = .setup ∧ period = 0 ∧ t = s.responded .errConfig 0) ∨
    (s.active = .S ∧ s.sch.phase = .setup ∧ period ≠ 0 ∧ s.sch.ntasks.toNat = s.par.ntasks ∧
      t = s.responded .errRegFull 0) ∨
    (s.active = .S ∧ s.sch.phase = .setup ∧ period ≠ 0 ∧ s.sch.ntasks.toNat ≠ s.par.ntasks ∧
      t = State.responded { s with sch := { s.sch with
        ntasks := s.sch.ntasks + 1
        tasks := s.sch.tasks.set s.sch.ntasks.toNat ⟨period, 0, action, name⟩ } } .ok
          (rdataNat s.sch.ntasks.toNat)) := by
  rcases onPort_cases h with h | ⟨hp, h⟩
  · exact .inl h
  have hp : s.active = .S := by simpa [Instr.ports, Instr.mnemonic, Mnemonic.ports] using hp
  split at h
  · exact .inr (.inl ⟨hp, by assumption, (Host.Outcome.next.inj h).symm⟩)
  · have hph : s.sch.phase = .setup := by
      rename_i hr
      cases hs : s.sch.phase
      · rfl
      · exact absurd hs hr
    split at h
    · exact .inr (.inr (.inl ⟨hp, hph, by assumption, (Host.Outcome.next.inj h).symm⟩))
    · split at h
      · exact .inr (.inr (.inr (.inl ⟨hp, hph, by assumption, by assumption, (Host.Outcome.next.inj h).symm⟩)))
      · exact .inr (.inr (.inr (.inr ⟨hp, hph, by assumption, by assumption, (Host.Outcome.next.inj h).symm⟩)))

theorem execSchTick_cases {cur : Tick} (h : execSchTick cur s = .next t) :
    (s.active ∉ (Instr.schTick cur).ports ∧ t = s.responded .errPort 0) ∨
    (s.active = .S ∧ t = State.accepted
      { s with sch := { s.sch with phase := .running }, tick := some ⟨cur, 0, 0, false⟩ }) := by
  rcases onPort_cases h with h | ⟨hp, h⟩
  · exact .inl h
  · have hp : s.active = .S := by simpa [Instr.ports, Instr.mnemonic, Mnemonic.ports] using hp
    exact .inr ⟨hp, (Host.Outcome.next.inj h).symm⟩

/-- The steps of a tick in flight (`42_scheduler.md` R117, R118, R120). -/
theorem tickStep_cases {x : Ticking} (h : tickStep x s = .next t) :
    (x.i.toNat < s.sch.ntasks.toNat ∧ (s.task x.i.toNat).due x.cur = true ∧ t = dispatchStep x s) ∨
    (x.i.toNat < s.sch.ntasks.toNat ∧ (s.task x.i.toNat).due x.cur = false ∧ t = skipStep x s) ∨
    (x.i = s.sch.ntasks ∧ t = endStep x s) ∨
    (s.sch.ntasks.toNat < x.i.toNat ∧ t = s) := by
  unfold tickStep at h
  split at h
  · rename_i hi
    split at h
    · exact .inl ⟨hi, by assumption, (Host.Outcome.next.inj h).symm⟩
    · exact .inr (.inl ⟨hi, by simpa using ‹¬ (s.task x.i.toNat).due x.cur = true›,
        (Host.Outcome.next.inj h).symm⟩)
  · rename_i hi
    split at h
    · exact .inr (.inr (.inl ⟨by assumption, (Host.Outcome.next.inj h).symm⟩))
    · rename_i hne
      have : x.i.toNat ≠ s.sch.ntasks.toNat := fun e => hne (BitVec.eq_of_toNat_eq e)
      exact .inr (.inr (.inr ⟨by omega, (Host.Outcome.next.inj h).symm⟩))

/-- What an acknowledgement does (`42_scheduler.md` R119, `30_encoding.md` R73). -/
theorem ackStep_cases (h : ackStep s = .next t) :
    (∃ x, s.tick = some x ∧ x.wait = true ∧ t = s.withTick (some { x with i := x.i + 1, wait := false })) ∨
    ((∀ x, s.tick = some x → x.wait = false) ∧ t = s) := by
  unfold ackStep at h
  split at h
  · rename_i ht
    exact .inr ⟨by simp [ht], (Host.Outcome.next.inj h).symm⟩
  · rename_i x ht
    split at h
    · exact .inl ⟨x, ht, by assumption, (Host.Outcome.next.inj h).symm⟩
    · rename_i hw
      exact .inr ⟨by simpa [ht] using hw, (Host.Outcome.next.inj h).symm⟩

theorem execTmrStart_cases {j : Index} {start duration : Tick} (h : execTmrStart j start duration s = .next t) :
    (s.active ∉ (Instr.tmrStart j start duration).ports ∧ t = s.responded .errPort 0) ∨
    (s.active = .T ∧ s.par.ntimers ≤ j.toNat ∧ t = s.responded .errIndex 0) ∨
    (s.active = .T ∧ j.toNat < s.par.ntimers ∧
      t = (s.withTimer j.toNat ⟨start, duration, true⟩).responded .ok 0) := by
  rcases onPort_cases h with h | ⟨hp, h⟩
  · exact .inl h
  have hp : s.active = .T := by simpa [Instr.ports, Instr.mnemonic, Mnemonic.ports] using hp
  rcases onTimer_cases h with ⟨hj, h⟩ | ⟨hj, h⟩
  · exact .inr (.inl ⟨hp, hj, h⟩)
  · exact .inr (.inr ⟨hp, hj, (Host.Outcome.next.inj h).symm⟩)

theorem execTmrStop_cases {j : Index} (h : execTmrStop j s = .next t) :
    (s.active ∉ (Instr.tmrStop j).ports ∧ t = s.responded .errPort 0) ∨
    (s.active = .T ∧ s.par.ntimers ≤ j.toNat ∧ t = s.responded .errIndex 0) ∨
    (s.active = .T ∧ j.toNat < s.par.ntimers ∧
      t = (s.withTimer j.toNat { s.timer j.toNat with running := false }).responded .ok 0) := by
  rcases onPort_cases h with h | ⟨hp, h⟩
  · exact .inl h
  have hp : s.active = .T := by simpa [Instr.ports, Instr.mnemonic, Mnemonic.ports] using hp
  rcases onTimer_cases h with ⟨hj, h⟩ | ⟨hj, h⟩
  · exact .inr (.inl ⟨hp, hj, h⟩)
  · exact .inr (.inr ⟨hp, hj, (Host.Outcome.next.inj h).symm⟩)

theorem execTmrExpired_cases {j : Index} {tick : Tick} (h : execTmrExpired j tick s = .next t) :
    (s.active ∉ (Instr.tmrExpired j tick).ports ∧ t = s.responded .errPort 0) ∨
    (s.active = .T ∧ s.par.ntimers ≤ j.toNat ∧ t = s.responded .errIndex 0) ∨
    (s.active = .T ∧ j.toNat < s.par.ntimers ∧
      t = s.responded .ok (rdataBool ((s.timer j.toNat).expired tick))) := by
  rcases onPort_cases h with h | ⟨hp, h⟩
  · exact .inl h
  have hp : s.active = .T := by simpa [Instr.ports, Instr.mnemonic, Mnemonic.ports] using hp
  rcases onTimer_cases h with ⟨hj, h⟩ | ⟨hj, h⟩
  · exact .inr (.inl ⟨hp, hj, h⟩)
  · exact .inr (.inr ⟨hp, hj, (Host.Outcome.next.inj h).symm⟩)

end Sys2Proof.Machine
end

