-- ==== Sys2Proof/Laws/PerInstr.lean ====
section
/-! SUPPORT. Statements about each instruction as syntax, one lemma per constructor of `Instr`. -/

namespace Sys2Proof.Laws.EncodedRow

open Sys2Proof.Machine

/-- The words of a command are those of its row of the opcode map: the row's length, the row's opcode, no
reserved bit set, and the operand words carry the operands (`30_encoding.md` R64 to R67). -/
def Statement (i : Instr) : Prop :=
  (encode i).length = i.mnemonic.len ∧
    opcField ((encode i).headD 0) = i.mnemonic.opc ∧
    (encode i).headD 0 &&& i.mnemonic.rz = 0 ∧
    assembleOperands i.mnemonic ((encode i).headD 0) ((encode i).getD 1 0) ((encode i).getD 2 0) = i

/-- No bit of a header outside its fields' masks: what a mask that covers only zero fields leaves. -/
theorem header_and_low_half (opc idx : Index) : header opc idx 0 &&& 0x0000FFFF = 0 := by
  apply BitVec.eq_of_getLsbD_eq
  intro i hi
  simp only [header]
  interval_cases i <;> simp

theorem header_and_idx (opc : Index) (imm : Half) : header opc 0 imm &&& 0x00FF0000 = 0 := by
  apply BitVec.eq_of_getLsbD_eq
  intro i hi
  simp only [header]
  interval_cases i <;> simp

theorem header_and_byte (opc : Index) (b : Byte) : header opc 0 (zextByte b) &&& 0x00FFFF00 = 0 := by
  apply BitVec.eq_of_getLsbD_eq
  intro i hi
  simp only [header, zextByte]
  interval_cases i <;> simp

theorem rbInit (cap : Half) : Statement (.rbInit cap) := by
  simp [Statement, encode, Instr.mnemonic, Mnemonic.len, Mnemonic.opc, Mnemonic.rz, assembleOperands]
  exact header_and_idx _ _
theorem rbIsEmpty : Statement .rbIsEmpty := by unfold Statement; decide
theorem rbIsFull : Statement .rbIsFull := by unfold Statement; decide
theorem rbCount : Statement .rbCount := by unfold Statement; decide
theorem rbAvailable : Statement .rbAvailable := by unfold Statement; decide
theorem rbWrite (b : Byte) : Statement (.rbWrite b) := by
  simp [Statement, encode, Instr.mnemonic, Mnemonic.len, Mnemonic.opc, Mnemonic.rz, assembleOperands]
  exact header_and_byte _ _
theorem rbRead : Statement .rbRead := by unfold Statement; decide
theorem rbPeek : Statement .rbPeek := by unfold Statement; decide
theorem rbDrain (maxLen : Half) : Statement (.rbDrain maxLen) := by
  simp [Statement, encode, Instr.mnemonic, Mnemonic.len, Mnemonic.opc, Mnemonic.rz, assembleOperands]
  exact header_and_idx _ _
theorem schRegister (action : Index) (name : Half) (period : Tick) : Statement (.schRegister action name period) := by
  simp [Statement, encode, Instr.mnemonic, Mnemonic.len, Mnemonic.opc, Mnemonic.rz, assembleOperands]
theorem schTick (cur : Tick) : Statement (.schTick cur) := by
  simp [Statement, encode, Instr.mnemonic, Mnemonic.len, Mnemonic.opc, Mnemonic.rz, assembleOperands]
  decide
theorem tmrStart (j : Index) (start duration : Tick) : Statement (.tmrStart j start duration) := by
  simp [Statement, encode, Instr.mnemonic, Mnemonic.len, Mnemonic.opc, Mnemonic.rz, assembleOperands]
  exact header_and_low_half _ _
theorem tmrStop (j : Index) : Statement (.tmrStop j) := by
  simp [Statement, encode, Instr.mnemonic, Mnemonic.len, Mnemonic.opc, Mnemonic.rz, assembleOperands]
  exact header_and_low_half _ _
theorem tmrExpired (j : Index) (tick : Tick) : Statement (.tmrExpired j tick) := by
  simp [Statement, encode, Instr.mnemonic, Mnemonic.len, Mnemonic.opc, Mnemonic.rz, assembleOperands]
  exact header_and_low_half _ _

end Sys2Proof.Laws.EncodedRow
end

