-- ==== Sys2Proof/Laws/Step.lean ====
section
/-! SUPPORT. Once, what a step can do: the next event, and the agent's step behind it. -/

namespace Sys2Proof.Machine

variable {s t : State}

/-- A step is the next event run after it is taken off the schedule; with no event, nothing happens. -/
theorem step_eq (s : State) :
    step s = match s.nextEvent with
      | none => .next s
      | some e => runEvent e (s.withSchedule s.schedule.tail) := by
  unfold step stepBody State.nextEvent
  cases hs : s.schedule with
  | nil =>
    have he : s.withSchedule [] = s := by cases s; simp_all [State.withSchedule]
    simp only [runIdle, List.tail_nil]
    cases hn : s.nextPort with
    | none => rfl
    | some p => simp [runEvent, he]
  | cons e es => rfl

/-- What a step can do: nothing, if there is no event; else what its event does. -/
theorem step_cases (h : step s = .next t) :
    (s.nextEvent = none ∧ t = s) ∨
    ∃ e, s.nextEvent = some e ∧ runEvent e (s.withSchedule s.schedule.tail) = .next t := by
  rw [step_eq] at h
  cases hn : s.nextEvent with
  | none => rw [hn] at h; exact .inl ⟨rfl, (Host.Outcome.next.inj h).symm⟩
  | some e => rw [hn] at h; exact .inr ⟨e, rfl, h⟩

/-- What one event does: a word is presented or held back, an agent moves, the host acknowledges, or reset comes. -/
theorem runEvent_cases {e : Event} (h : runEvent e s = .next t) :
    (∃ p w, e = .word p w ∧ decode (s.inp.get p) = .incomplete ∧ t = s.withPending p (s.inp.get p ++ [w])) ∨
    (∃ p w, e = .word p w ∧ s.presented p = true ∧ t = s) ∨
    (∃ p, e = .turn p ∧ agentStep p s = .next t) ∨
    (e = .ack ∧ ackStep s = .next t) ∨
    (e = .reset ∧ t = s.doReset) := by
  cases e with
  | word p w =>
    simp only [runEvent, presentWord] at h
    split at h
    · exact .inr (.inl ⟨p, w, rfl, by assumption, (Host.Outcome.next.inj h).symm⟩)
    · refine .inl ⟨p, w, rfl, ?_, (Host.Outcome.next.inj h).symm⟩
      rename_i hp
      unfold State.presented at hp
      split at hp
      · assumption
      · simp at hp
      · simp at hp
  | turn p => exact .inr (.inr (.inl ⟨p, rfl, h⟩))
  | ack => exact .inr (.inr (.inr (.inl ⟨rfl, h⟩)))
  | reset => exact .inr (.inr (.inr (.inr ⟨rfl, (Host.Outcome.next.inj h).symm⟩)))

/-- What the agent of a port can do: go on with its drain or its tick, hold, or take a command. -/
theorem agentStep_cases {p : Port} (h : agentStep p s = .next t) :
    (p = .C ∧ ∃ d, s.drain = some d ∧ drainStep d s = .next t) ∨
    (p = .S ∧ ∃ x, s.tick = some x ∧ x.wait = true ∧ t = s) ∨
    (p = .S ∧ ∃ x, s.tick = some x ∧ x.wait = false ∧ tickStep x s = .next t) ∨
    (s.busy p = false ∧ takeStep p s = .next t) := by
  cases p with
  | P => exact .inr (.inr (.inr ⟨rfl, h⟩))
  | T => exact .inr (.inr (.inr ⟨rfl, h⟩))
  | C =>
    simp only [agentStep] at h
    split at h
    · exact .inl ⟨rfl, _, by assumption, h⟩
    · rename_i hd
      exact .inr (.inr (.inr ⟨by simp [State.busy, hd], h⟩))
  | S =>
    simp only [agentStep] at h
    split at h
    · rename_i x hx
      split at h
      · exact .inr (.inl ⟨rfl, x, hx, by assumption, (Host.Outcome.next.inj h).symm⟩)
      · exact .inr (.inr (.inl ⟨rfl, x, hx, by simpa using ‹¬ x.wait = true›, h⟩))
    · rename_i hx
      exact .inr (.inr (.inr ⟨by simp [State.busy, hx], h⟩))

/-- What taking a command can do: nothing while words are to come, ERR_ILLEGAL, or the command's meaning. -/
theorem takeStep_cases {p : Port} (h : takeStep p s = .next t) :
    (decode (s.inp.get p) = .incomplete ∧ t = s) ∨
    (∃ why rest, decode (s.inp.get p) = .illegal why rest ∧ t = (s.withActive p).responded .errIllegal 0) ∨
    (∃ i rest, decode (s.inp.get p) = .instr i rest ∧ exec i (s.withActive p) = .next t) := by
  unfold takeStep at h
  split at h
  · exact .inl ⟨by assumption, (Host.Outcome.next.inj h).symm⟩
  · exact .inr (.inl ⟨_, _, by assumption, (Host.Outcome.next.inj h).symm⟩)
  · exact .inr (.inr ⟨_, _, by assumption, h⟩)

/-- The one fault of a meaning is an access to a slot that does not exist; no meaning is refused. -/
theorem exec_ne_refused (i : Instr) (s : State) (r : Refusal) : exec i s ≠ .refused r := by
  cases i <;>
    simp only [exec, execRbInit, execRbIsEmpty, execRbIsFull, execRbCount, execRbAvailable, execRbWrite,
      execRbRead, execRbPeek, execRbDrain, execSchRegister, execSchTick, execTmrStart, execTmrStop,
      execTmrExpired, onPort, onTimer, memRead, memWrite, answer, accept, hold] <;>
    repeat' split
  all_goals simp

end Sys2Proof.Machine
end

