-- ==== Sys2Proof/Tests/Slice0.lean ====
section
/-! SUPPORT. Tests: expected values are those of `spec/95_test_vectors.md`, of the rules' own examples, or worked out
by hand from the rule named. Witnesses: for each statement with hypotheses, a state and operands that meet them. -/

namespace Sys2Proof.Tests

open Sys2Proof Sys2Proof.Machine

/-! ### The checks of WellFormed refuse ill-formed terms -/

theorem test_params_depth_low : Params.legal ⟨1, 8, 4, none⟩ = false := by decide
theorem test_params_depth_high : Params.legal ⟨65536, 8, 4, none⟩ = false := by decide
theorem test_params_ntasks_low : Params.legal ⟨16, 0, 4, none⟩ = false := by decide
theorem test_params_ntasks_high : Params.legal ⟨16, 257, 4, none⟩ = false := by decide
theorem test_params_ntimers_low : Params.legal ⟨16, 8, 0, none⟩ = false := by decide
theorem test_params_ntimers_high : Params.legal ⟨16, 8, 257, none⟩ = false := by decide
theorem test_params_legal : Params.legal Params.reference = true ∧ Params.legal ⟨65535, 256, 256, none⟩ = true := by
  decide
theorem test_line_half_field : SourceLine.wf (.command .S .RB_INIT [0x10000]) = false := by decide
theorem test_line_byte_field : SourceLine.wf (.command .P .RB_WRITE [0x100]) = false := by decide
theorem test_line_index_field : SourceLine.wf (.command .T .TMR_STOP [0x100]) = false := by decide
theorem test_line_word_field : SourceLine.wf (.command .S .SCH_TICK [0x100000000]) = false := by decide
theorem test_line_too_few : SourceLine.wf (.command .S .SCH_REGISTER [3, 1]) = false := by decide
theorem test_line_too_many : SourceLine.wf (.command .P .RB_IS_EMPTY [0]) = false := by decide
theorem test_query_on_T : SourceOp.wf (.count .T) = false := by decide
theorem test_instr_wf : Instr.wf (.schRegister 0xFF 0xFFFF 0xFFFFFFFF) = true := by decide

/-! ### Decoding: one word for each constructor, from `30_encoding.md` R82 -/

theorem test_decode_rbInit : decode [0b0001_0000_00000000_0000000000001000] = .instr (.rbInit 8) [] := by decide
theorem test_decode_rbIsEmpty : decode [0b0001_0001_00000000_0000000000000000] = .instr .rbIsEmpty [] := by decide
theorem test_decode_rbIsFull : decode [0b0001_0010_00000000_0000000000000000] = .instr .rbIsFull [] := by decide
theorem test_decode_rbCount : decode [0b0001_0011_00000000_0000000000000000] = .instr .rbCount [] := by decide
theorem test_decode_rbAvailable : decode [0b0001_0100_00000000_0000000000000000] = .instr .rbAvailable [] := by decide
theorem test_decode_rbWrite : decode [0b0001_1000_00000000_0000000001100001] = .instr (.rbWrite 0x61) [] := by decide
theorem test_decode_rbRead : decode [0b0001_1001_00000000_0000000000000000] = .instr .rbRead [] := by decide
theorem test_decode_rbPeek : decode [0b0001_1010_00000000_0000000000000000] = .instr .rbPeek [] := by decide
theorem test_decode_rbDrain : decode [0b0001_1011_00000000_0000000000001010] = .instr (.rbDrain 10) [] := by decide
theorem test_decode_schRegister :
    decode [0b0010_0000_00000011_0000000100000001, 10] = .instr (.schRegister 3 0x0101 10) [] := by decide
theorem test_decode_schTick : decode [0b0010_0001_00000000_0000000000000000, 200] = .instr (.schTick 200) [] := by
  decide
theorem test_decode_tmrStart :
    decode [0b0011_0000_00000000_0000000000000000, 0xFFFFFFF0, 32] = .instr (.tmrStart 0 0xFFFFFFF0 32) [] := by decide
theorem test_decode_tmrStop : decode [0b0011_0001_00000001_0000000000000000] = .instr (.tmrStop 1) [] := by decide
theorem test_decode_tmrExpired :
    decode [0b0011_0010_00000000_0000000000000000, 0x10] = .instr (.tmrExpired 0 0x10) [] := by decide

/-- V-ENC-04: SCH_REGISTER has no reserved bits. -/
theorem test_decode_no_reserved_bits :
    decode [0x20FFFFFF, 1] = .instr (.schRegister 0xFF 0xFFFF 1) [] := by decide
/-- V-ENC-06, V-ENC-10. -/
theorem test_decode_undefined :
    decode [0x00000000] = .illegal .undefinedOpcode [] ∧ decode [0x33000000, 5] = .illegal .undefinedOpcode [5] := by
  decide
/-- V-ENC-18: the 3 words of the illegal command are consumed, and the next header is read as a header. -/
theorem test_decode_framing :
    decode [0x30000001, 0, 5, 0x32000000, 3] = .illegal .reservedBits [0x32000000, 3] ∧
      decode [0x32000000, 3] = .instr (.tmrExpired 0 3) [] := by decide
/-- R65: a command whose operand words are not all there is not decoded yet. -/
theorem test_decode_incomplete : decode [0x30000000, 0] = .incomplete ∧ decode [] = .incomplete := by decide
theorem test_encode_register : encode (.schRegister 3 0x0101 10) = [0x20030101, 0x0000000A] := by decide
theorem test_table_word : decodeTableWord 32 0x32000000 = some (.tmrExpired 0 0) := by decide

/-! ### Commands -/

/-- A buffer of capacity 4 that holds `[0x33, 0x11]`, its bytes in slots 3 and 0. -/
def wrapped : RingBuffer := ⟨4, 1, 3, [(0, 0x11), (3, 0x33)]⟩

/-- Right after reset but for the buffer, with port `p`'s command being taken. -/
def withBuffer (p : Port) (r : RingBuffer) : State := { State.reset with rb := r, active := p }

/-- Right after reset but for one registered task `{10, 0, 3, 0x0101}`, one running timer `{0xFFFFFFF0, 32}`, and
port `p`'s command being taken. -/
def withUnits (p : Port) : State :=
  { State.reset with
    sch := ⟨1, .setup, ⟨10, 0, 3, 0x0101⟩ :: List.replicate 7 Task.blank⟩
    timers := ⟨0xFFFFFFF0, 32, true⟩ :: List.replicate 3 Timer.inert
    active := p }

/-- The last word a step put on the response channel of port `p`. -/
def lastWord (r : Result) (p : Port) : Option Word :=
  match r with
  | .next t => (t.out.get p).sent.getLast?
  | _ => none

/-- The ring buffer a step leaves. -/
def bufferAfter (r : Result) : Option RingBuffer :=
  match r with
  | .next t => some t.rb
  | _ => none

/-- R87's example, from a buffer that held bytes: storage is unchanged. -/
theorem test_rbInit :
    bufferAfter (exec (.rbInit 4) (withBuffer .S wrapped)) = some ⟨4, 0, 0, [(0, 0x11), (3, 0x33)]⟩ := by decide
/-- V-RB-02: 17 is above DEPTH. -/
theorem test_rbInit_refused :
    lastWord (exec (.rbInit 17) (withBuffer .S wrapped)) .S = some 0x03000000 ∧
      bufferAfter (exec (.rbInit 17) (withBuffer .S wrapped)) = some wrapped := by decide
/-- R88's example. -/
theorem test_rbIsEmpty : lastWord (exec .rbIsEmpty (withBuffer .C ⟨16, 3, 3, []⟩)) .C = some 1 := by decide
/-- R89's example. -/
theorem test_rbIsFull : lastWord (exec .rbIsFull (withBuffer .P ⟨8, 7, 0, []⟩)) .P = some 1 := by decide
/-- V-RB-09, step 12: a capacity that is not a power of two. -/
theorem test_rbCount_cap5 : lastWord (exec .rbCount (withBuffer .C ⟨5, 1, 3, []⟩)) .C = some 3 := by decide
/-- R90's example. -/
theorem test_rbCount_cap8 : lastWord (exec .rbCount (withBuffer .C ⟨8, 4, 5, []⟩)) .C = some 7 := by decide
theorem test_rbAvailable : lastWord (exec .rbAvailable (withBuffer .S wrapped)) .S = some 1 := by decide
/-- V-RB-12, step 13: the write at `CAP - 1` wraps `head`. -/
theorem test_rbWrite_wraps :
    bufferAfter (exec (.rbWrite 0x11) (withBuffer .P ⟨8, 7, 5, []⟩)) = some ⟨8, 0, 5, [(7, 0x11)]⟩ := by decide
/-- V-RB-08: FULL, and nothing stored. -/
theorem test_rbWrite_full :
    lastWord (exec (.rbWrite 0x99) (withBuffer .P ⟨8, 7, 0, []⟩)) .P = some 0x01000000 ∧
      bufferAfter (exec (.rbWrite 0x99) (withBuffer .P ⟨8, 7, 0, []⟩)) = some ⟨8, 7, 0, []⟩ := by decide
/-- R93: the read at `CAP - 1` wraps `tail`. -/
theorem test_rbRead_wraps :
    lastWord (exec .rbRead (withBuffer .C wrapped)) .C = some 0x00000033 ∧
      (bufferAfter (exec .rbRead (withBuffer .C wrapped))).map RingBuffer.tail = some 0 := by decide
/-- V-RB-11. -/
theorem test_rbRead_empty : lastWord (exec .rbRead State.reset) .P = some 0x08000000 ∧
    lastWord (exec .rbRead (withBuffer .C ⟨16, 0, 0, []⟩)) .C = some 0x02000000 := by decide
/-- W4, step 1. -/
theorem test_rbPeek : lastWord (exec .rbPeek (withBuffer .C wrapped)) .C = some 0x00000033 ∧
    bufferAfter (exec .rbPeek (withBuffer .C wrapped)) = some wrapped := by decide
/-- R95's example. -/
theorem test_rbDrain : ∃ t, exec (.rbDrain 10) (withBuffer .C wrapped) = .next t ∧ t.drain = some ⟨10, 0⟩ ∧
    t.out.onC.sent = [] := ⟨_, rfl, by decide⟩
/-- R115's example. -/
theorem test_schRegister : ∃ t, exec (.schRegister 3 0x0101 10) (State.reset.withActive .S) = .next t ∧
    t.task 0 = ⟨10, 0, 3, 0x0101⟩ ∧ t.sch.ntasks = 1 ∧ t.out.onS.sent = [0x00000000] := ⟨_, rfl, by decide⟩
/-- V-SCH-05, step 4: the phase is checked before the period. -/
theorem test_schRegister_phase :
    lastWord (exec (.schRegister 0 0 0) { State.reset with sch := ⟨0, .running, []⟩, active := .S }) .S
      = some 0x05000000 := by decide
/-- R116's example. -/
theorem test_schTick : ∃ t, exec (.schTick 10) (State.reset.withActive .S) = .next t ∧
    t.tick = some ⟨10, 0, 0, false⟩ ∧ t.sch.phase = .running := ⟨_, rfl, by decide⟩
/-- R107's example. -/
theorem test_tmrStart : ∃ t, exec (.tmrStart 0 0xFFFFFFF0 32) (State.reset.withActive .T) = .next t ∧
    t.timer 0 = ⟨0xFFFFFFF0, 32, true⟩ ∧ t.timer 1 = ⟨0, 0, false⟩ := ⟨_, rfl, by decide⟩
/-- V-TMR-09: ERR_INDEX. -/
theorem test_tmrStart_index : lastWord (exec (.tmrStart 4 0 1) (withUnits .T)) .T = some 0x06000000 := by decide
/-- R108's example. -/
theorem test_tmrStop : ∃ t, exec (.tmrStop 0) (withUnits .T) = .next t ∧
    t.timer 0 = ⟨0xFFFFFFF0, 32, false⟩ := ⟨_, rfl, by decide⟩
/-- W7: expired at 0x10, not at 0x0F. -/
theorem test_tmrExpired : lastWord (exec (.tmrExpired 0 0x10) (withUnits .T)) .T = some 1 ∧
    lastWord (exec (.tmrExpired 0 0x0F) (withUnits .T)) .T = some 0 := by decide
/-- V-TMR-01: a timer never started. -/
theorem test_tmrExpired_inert : lastWord (exec (.tmrExpired 1 0) (withUnits .T)) .T = some 0 := by decide

/-! ### Steps -/

/-- V-SCH-11, step 2 with the task of `withUnits`: the dispatch event and the wait. -/
theorem test_dispatch : ∃ t,
    step { withUnits .S with tick := some ⟨10, 0, 0, false⟩, schedule := [.turn .S] } = .next t ∧
      t.dispatch.sent = [0x00030101] ∧ t.task 0 = ⟨10, 10, 3, 0x0101⟩ ∧ t.tick = some ⟨10, 0, 1, true⟩ :=
  ⟨_, rfl, by decide⟩
/-- R118's example. -/
theorem test_skip : ∃ t,
    step { withUnits .S with tick := some ⟨5, 0, 0, false⟩, schedule := [.turn .S] } = .next t ∧
      t.tick = some ⟨5, 1, 0, false⟩ := ⟨_, rfl, by decide⟩
/-- R96's example, from `[0x33, 0x11]`. -/
theorem test_drain_byte : ∃ t,
    step { withBuffer .C wrapped with drain := some ⟨10, 0⟩, schedule := [.turn .C] } = .next t ∧
      t.out.onC.sent = [0x80000033] ∧ t.drain = some ⟨9, 1⟩ ∧ t.rb.tail = 0 := ⟨_, rfl, by decide⟩
/-- V-RB-19: a reserved bit is checked before the port. -/
theorem test_illegal_before_port : ∃ t,
    step { State.reset with inp := ⟨[], [0x18000141], [], []⟩, schedule := [.turn .C] } = .next t ∧
      t.out.onC.sent = [0x07000000] ∧ t.inp.onC = [] := ⟨_, rfl, by decide⟩
/-- V-RB-17: RB_INIT is held behind a drain and its word stays. -/
theorem test_init_held : ∃ t,
    step { withBuffer .S wrapped with
      drain := some ⟨1, 0⟩, inp := ⟨[], [], [0x10000004], []⟩, schedule := [.turn .S] } = .next t ∧
      t.rb = wrapped ∧ t.inp.onS = [0x10000004] ∧ t.out.onS.sent = [] := ⟨_, rfl, by decide⟩
/-- V-RST-02: reset during a drain; the beat already put stays on the channel. -/
theorem test_reset : ∃ t,
    step { withBuffer .C wrapped with
      drain := some ⟨2, 1⟩, out := ⟨⟨[], []⟩, ⟨[], [0x80000001]⟩, ⟨[], []⟩, ⟨[], []⟩⟩, schedule := [.reset] } = .next t ∧
      t.drain = none ∧ t.rb = ⟨16, 0, 0, []⟩ ∧ t.out.onC.words = [0x80000001] ∧ t.out.onC.sent = [] :=
  ⟨_, rfl, by decide⟩
/-- The command of a table word is the next one taken. -/
theorem test_withFetchWord : ∃ t, step (State.reset.withFetchWord 32 0x18000061) = .next t ∧
    t.rb.storage = [(0, 0x61)] ∧ t.out.onP.sent = [0] := ⟨_, rfl, by decide⟩
/-- With nothing scheduled and nothing presented, nothing happens. -/
theorem test_idle : step State.reset = .next State.reset := rfl

/-! ### The assembler -/

theorem test_readLine :
    (readLine "S: SCH_REGISTER 3, 0x0101, 10 ; a task".toList).toOption
      = some (.command .S .SCH_REGISTER [3, 0x0101, 10]) := by decide
theorem test_readLine_ack : (readLine "H: ACK".toList).toOption = some .ack := by decide
theorem test_assemble_refuses : (assembleCommand .RB_WRITE [0x100]).toOption = none := by decide
theorem test_lineEvents : (lineEvents (expandSource (.advance 200))).toOption
    = some [.word .S 0x21000000, .word .S 0x000000C8, .turn .S] := by decide
theorem test_results : Response.text (.final .ok 5) = "-> OK, 5".toList ∧
    popResult 0x00000061 = some 0x61 ∧ popResult 0x02000000 = none ∧
    drainedBytes [0x80000048, 0x80000065, 0x00000002] = [0x48, 0x65] := by decide

/-! ### Witnesses -/

/-- A state in mid-work: `[0x33, 0x11]` buffered, one registered task, a drain and a tick in flight. -/
def busyState : State :=
  { withUnits .P with
    rb := wrapped
    sch := ⟨1, .running, ⟨10, 0, 3, 0x0101⟩ :: List.replicate 7 Task.blank⟩
    drain := some ⟨3, 1⟩
    tick := some ⟨10, 0, 0, false⟩ }

theorem busyState_inv : busyState.Inv where
  par_legal := by decide
  two_le_cap := by decide
  cap_le_depth := by decide
  head_lt_cap := by decide
  tail_lt_cap := by decide
  storage_wf := by decide
  storage_lt := by decide
  live_written := by decide
  timers_length := by decide
  tasks_length := by decide
  ntasks_le := by decide
  period_ne_zero := by decide
  tick_running := by decide
  tick_scan := by intro t h; cases h; decide
  drain_bound := by intro d h; cases h; decide
  one_command := by intro p; cases p <;> decide

/-- The invariant speaks of no field an update of which is named here. -/
theorem inv_irrelevant {s : State} (h : s.Inv) (es : List Event) (p : Port) :
    State.Inv { s with schedule := es, active := p } := ⟨h.1, h.2, h.3, h.4, h.5, h.6, h.7, h.8, h.9, h.10, h.11, h.12,
      h.13, h.14, h.15, h.16⟩

theorem witness_ResetHoldsSpecValues : ∃ c : Params, c.legal = true ∧ c.depth = 2 ∧ c.ntasks = 256 :=
  ⟨⟨2, 256, 1, none⟩, by decide⟩
theorem witness_ResetEventFromAnyState : ∃ (s : State) (es : List Event), s.schedule = .reset :: es :=
  ⟨busyState.withSchedule [.reset], [], rfl⟩

theorem witness_RbInit_port : ∃ s : State, s.active ≠ .S := ⟨busyState, by decide⟩
theorem witness_RbInit_hold : ∃ s : State, s.active = .S ∧ s.drain ≠ none :=
  ⟨busyState.withActive .S, by decide⟩
theorem witness_RbInit_config : ∃ (s : State) (cap cap' : Half), s.active = .S ∧ s.drain = none ∧
    (cap.toNat < 2 ∨ s.par.depth < cap.toNat) ∧ (cap'.toNat < 2 ∨ s.par.depth < cap'.toNat) ∧ cap = 1 ∧ cap' = 17 :=
  ⟨State.reset.withActive .S, 1, 17, by decide⟩
theorem witness_RbInit_ok : ∃ (s : State) (cap cap' : Half), s.active = .S ∧ s.drain = none ∧
    2 ≤ cap.toNat ∧ cap'.toNat ≤ s.par.depth ∧ cap = 2 ∧ cap' = 16 :=
  ⟨State.reset.withActive .S, 2, 16, by decide⟩
theorem witness_queries : ∃ s t : State, s.active = .T ∧ t.active ≠ .T ∧ 2 ≤ s.rb.cap.toNat ∧ 2 ≤ t.rb.cap.toNat ∧
    s.rb.head.toNat < s.rb.cap.toNat ∧ s.rb.tail.toNat < s.rb.cap.toNat ∧
    t.rb.head.toNat < t.rb.cap.toNat ∧ t.rb.tail.toNat < t.rb.cap.toNat :=
  ⟨withBuffer .T wrapped, withBuffer .P wrapped, by decide⟩
theorem witness_RbWrite_illegal : ∃ h : Word, h.toNat / 2 ^ 24 = 0x18 ∧ h.toNat / 2 ^ 8 % 2 ^ 8 ≠ 0 :=
  ⟨0x18000100, by decide⟩
theorem witness_RbWrite_port : ∃ s : State, 2 ≤ s.rb.cap.toNat ∧ s.active ≠ .P := ⟨withBuffer .C wrapped, by decide⟩
theorem witness_RbWrite_full : ∃ s : State, 2 ≤ s.rb.cap.toNat ∧ s.active = .P ∧
    (s.rb.head.toNat + 1) % s.rb.cap.toNat = s.rb.tail.toNat := ⟨withBuffer .P ⟨8, 7, 0, []⟩, by decide⟩
theorem witness_RbWrite_ok : ∃ s : State, 2 ≤ s.rb.cap.toNat ∧ s.active = .P ∧
    (s.rb.head.toNat + 1) % s.rb.cap.toNat ≠ s.rb.tail.toNat ∧ s.rb.head.toNat < s.par.depth :=
  ⟨withBuffer .P ⟨16, 15, 5, []⟩, by decide⟩
theorem witness_consumer_port : ∃ s : State, s.active ≠ .C := ⟨withBuffer .P wrapped, by decide⟩
theorem witness_consumer_empty : ∃ s : State, s.active = .C ∧ s.rb.head = s.rb.tail :=
  ⟨withBuffer .C ⟨16, 15, 15, []⟩, by decide⟩
theorem witness_consumer_ok : ∃ s : State, s.active = .C ∧ s.rb.head ≠ s.rb.tail ∧ s.rb.tail.toNat < s.par.depth :=
  ⟨withBuffer .C ⟨16, 0, 15, [(15, 7)]⟩, by decide⟩
theorem witness_DrainByteStep : ∃ (s : State) (d : Draining), s.schedule = [.turn .C] ∧ s.drain = some d ∧
    d.rem ≠ 0 ∧ s.rb.head ≠ s.rb.tail ∧ s.rb.tail.toNat < s.par.depth :=
  ⟨{ busyState with schedule := [.turn .C] }, ⟨3, 1⟩, by decide⟩
theorem witness_DrainEndStep : ∃ (s : State) (d : Draining), s.schedule = [.turn .C] ∧ s.drain = some d ∧
    (d.rem = 0 ∨ s.rb.head = s.rb.tail) := ⟨{ busyState with schedule := [.turn .C], drain := some ⟨0, 4⟩ }, ⟨0, 4⟩, by decide⟩
theorem witness_DrainEndStep_empty : ∃ (s : State) (d : Draining), s.schedule = [.turn .C] ∧ s.drain = some d ∧
    d.rem ≠ 0 ∧ s.rb.head = s.rb.tail :=
  ⟨{ busyState with rb := ⟨4, 3, 3, []⟩, schedule := [.turn .C] }, ⟨3, 1⟩, by decide⟩
theorem witness_DrainAlwaysEnds : ∃ (s : State) (d : Draining), s.Inv ∧ s.drain = some d ∧
    d.rem.toNat + 1 ≤ s.schedule.count (.turn .C) :=
  ⟨_, ⟨3, 1⟩, inv_irrelevant busyState_inv [.turn .C, .turn .C, .ack, .turn .C, .turn .C] .P, rfl, by decide⟩
theorem witness_SchRegister_port : ∃ s : State, s.active ≠ .S := ⟨withUnits .T, by decide⟩
theorem witness_SchRegister_phase : ∃ s : State, s.active = .S ∧ s.sch.phase = .running :=
  ⟨busyState.withActive .S, by decide⟩
theorem witness_SchRegister_config : ∃ (s : State) (p : Tick), s.active = .S ∧ s.sch.phase = .setup ∧ p = 0 :=
  ⟨withUnits .S, 0, by decide⟩
theorem witness_SchRegister_full : ∃ (s : State) (p : Tick), s.active = .S ∧ s.sch.phase = .setup ∧ p ≠ 0 ∧
    s.sch.ntasks.toNat = s.par.ntasks :=
  ⟨{ State.reset with sch := ⟨8, .setup, List.replicate 8 ⟨1, 0, 0, 0⟩⟩, active := .S }, 1, by decide⟩
theorem witness_SchRegister_ok : ∃ (s : State) (p : Tick), s.active = .S ∧ s.sch.phase = .setup ∧ p ≠ 0 ∧
    s.sch.ntasks.toNat < s.par.ntasks ∧ s.sch.tasks.length = s.par.ntasks ∧ s.par.ntasks ≤ 256 ∧
    s.sch.ntasks = 7 :=
  ⟨{ State.reset with sch := ⟨7, .setup, List.replicate 8 ⟨1, 0, 0, 0⟩⟩, active := .S }, 0xFFFFFFFF, by decide⟩
theorem witness_SchTick : ∃ s t : State, s.active ≠ .S ∧ t.active = .S := ⟨withUnits .T, withUnits .S, by decide⟩
theorem witness_DispatchStep : ∃ (s : State) (x : Ticking) (y : Task), s.schedule = [.turn .S] ∧ s.tick = some x ∧
    x.wait = false ∧ x.i.toNat < s.sch.ntasks.toNat ∧ s.sch.tasks[x.i.toNat]? = some y ∧
    y.period.toNat ≤ (x.cur.toNat + 2 ^ 32 - y.lastRun.toNat) % 2 ^ 32 :=
  ⟨{ busyState with schedule := [.turn .S] }, ⟨10, 0, 0, false⟩, ⟨10, 0, 3, 0x0101⟩, by decide⟩
theorem witness_SkipStep : ∃ (s : State) (x : Ticking) (y : Task), s.schedule = [.turn .S] ∧ s.tick = some x ∧
    x.wait = false ∧ x.i.toNat < s.sch.ntasks.toNat ∧ s.sch.tasks[x.i.toNat]? = some y ∧
    (x.cur.toNat + 2 ^ 32 - y.lastRun.toNat) % 2 ^ 32 < y.period.toNat :=
  ⟨{ busyState with schedule := [.turn .S], tick := some ⟨9, 0, 0, false⟩ }, ⟨9, 0, 0, false⟩,
    ⟨10, 0, 3, 0x0101⟩, by decide⟩
theorem witness_Ack_waits : ∃ (s t : State) (x : Ticking), s.schedule = [.ack] ∧ s.tick = some x ∧ x.wait = true ∧
    t.schedule = [.turn .S] ∧ t.tick = some x :=
  ⟨{ busyState with schedule := [.ack], tick := some ⟨10, 0, 1, true⟩ },
    { busyState with schedule := [.turn .S], tick := some ⟨10, 0, 1, true⟩ }, ⟨10, 0, 1, true⟩, by decide⟩
theorem witness_Ack_ignored : ∃ s : State, s.schedule = [.ack] ∧ (∀ x, s.tick = some x → x.wait = false) :=
  ⟨{ busyState with schedule := [.ack] }, rfl, by intro x h; cases h; rfl⟩
theorem witness_TickEndStep : ∃ (s : State) (x : Ticking), s.schedule = [.turn .S] ∧ s.tick = some x ∧
    x.wait = false ∧ x.i = s.sch.ntasks :=
  ⟨{ busyState with schedule := [.turn .S], tick := some ⟨10, 1, 1, false⟩ }, ⟨10, 1, 1, false⟩, by decide⟩
theorem witness_timers_port : ∃ s : State, s.active ≠ .T := ⟨withUnits .S, by decide⟩
theorem witness_timers_index : ∃ (s : State) (j : Index), s.active = .T ∧ s.par.ntimers ≤ j.toNat ∧ j = 4 :=
  ⟨withUnits .T, 4, by decide⟩
theorem witness_timers_ok : ∃ (s : State) (j : Index) (y : Timer), s.active = .T ∧ j.toNat < s.par.ntimers ∧
    s.timers[j.toNat]? = some y ∧ s.timers.length = s.par.ntimers ∧ j = 3 :=
  ⟨withUnits .T, 3, Timer.inert, by decide⟩
theorem witness_TimerAliases : ∃ d : Tick, d ≠ 0 ∧ d = 0xFFFFFFFF := ⟨_, by decide, rfl⟩
theorem witness_TimersAreIndependent : ∃ (i : Instr) (j : Index) (s s' t t' : State), i = .tmrStop j ∧
    exec i s = .next t ∧ exec i s' = .next t' ∧ s'.timer j.toNat = s.timer j.toNat ∧ s'.par = s.par ∧
    s'.active = s.active ∧ s'.timers.length = s.timers.length ∧ s'.timer 0 ≠ s.timer 0 :=
  ⟨.tmrStop 1, 1, withUnits .T, State.reset.withActive .T, _, _, rfl, rfl, rfl, by decide⟩
theorem witness_DecodeEncode : ∃ (i : Instr) (ws : List Word), i.wf = true ∧ decode ws = .instr i [7] :=
  ⟨.tmrStop 255, [0x31FF0000, 7], by decide⟩
theorem witness_UndefinedOpcodes : ∃ (s : State) (h : Word), s.schedule = [.turn .S] ∧ s.busy .S = false ∧
    s.inp.get .S = [h] ∧
    h.toNat / 2 ^ 24 ∉ [0x10, 0x11, 0x12, 0x13, 0x14, 0x18, 0x19, 0x1A, 0x1B, 0x20, 0x21, 0x30, 0x31, 0x32] :=
  ⟨{ State.reset with inp := ⟨[], [], [0x15000000], []⟩, schedule := [.turn .S] }, 0x15000000, by decide⟩
theorem witness_ReservedBits : ∃ (s : State) (m : Mnemonic) (h : Word) (ops : List Word),
    h.toNat / 2 ^ 24 = m.opc.toNat ∧ h &&& m.rz ≠ 0 ∧ ops.length + 1 = m.len ∧ s.schedule = [.turn .T] ∧
    s.busy .T = false ∧ s.inp.get .T = h :: (ops ++ []) :=
  ⟨{ State.reset with inp := ⟨[], [], [], [0x30000001, 0, 5]⟩, schedule := [.turn .T] }, .TMR_START, 0x30000001,
    [0, 5], by decide⟩
theorem witness_WrongPort : ∃ (i : Instr) (s : State), s.active ∉ i.ports := ⟨.rbCount, withUnits .T, by decide⟩
theorem witness_Assembler : ∃ (m : Mnemonic) (ops ops' : List Nat), List.Forall₂ (· ≤ ·) ops m.limits ∧
    ¬ List.Forall₂ (· ≤ ·) ops' m.limits ∧ m = .RB_WRITE :=
  ⟨.RB_WRITE, [0xFF], [0x100], .cons (by decide) .nil, by intro h; cases h with | cons h _ => exact absurd h (by decide),
    rfl⟩
theorem witness_StepRuns : ∃ (s : State) (i : Instr), s.schedule = [.turn .C] ∧ s.busy .C = false ∧
    decode (s.inp.get .C) = .instr i [] ∧ i.wf = true :=
  ⟨{ State.reset with inp := ⟨[], [0x19000000], [], []⟩, schedule := [.turn .C] }, .rbRead, by decide⟩
theorem witness_Words : ∃ s t u : State, s.schedule = [.word .S 5] ∧ decode (s.inp.get .S) = .incomplete ∧
    t.schedule = [.word .S 5] ∧ decode (t.inp.get .S) ≠ .incomplete ∧
    u.schedule = [.turn .S] ∧ u.busy .S = false ∧ decode (u.inp.get .S) = .incomplete :=
  ⟨{ State.reset with inp := ⟨[], [], [0x21000000], []⟩, schedule := [.word .S 5] },
    { State.reset with inp := ⟨[], [], [0x10000004], []⟩, schedule := [.word .S 5] },
    { State.reset with inp := ⟨[], [], [0x21000000], []⟩, schedule := [.turn .S] }, by decide⟩
theorem witness_StepKeepsInvariant : ∃ s t : State, s.Inv ∧ step s = .next t ∧ t.drain ≠ s.drain :=
  ⟨_, _, inv_irrelevant busyState_inv [.turn .C] .P, rfl, by decide⟩
theorem witness_Reachable : ∃ s : State, Reachable s ∧ s.inp.onP = [0x18000061] :=
  ⟨_, .next _ _ (.start Params.reference [.word .P 0x18000061] (by decide)) rfl, rfl⟩
theorem witness_FailedCommand : ∃ (s t : State) (st : Status), st ≠ .ok ∧ takeStep .C s = .next t ∧
    newWords (s.out.get .C) (t.out.get .C) = [finalWord st 0] :=
  ⟨{ State.reset with inp := ⟨[], [0x19000000], [], []⟩ }, _, .empty, by decide, rfl, by decide⟩
theorem witness_TakenCommand : ∃ (s t : State) (i : Instr), decode (s.inp.get .C) = .instr i [] ∧
    takeStep .C s = .next t :=
  ⟨{ State.reset with inp := ⟨[], [0x1B000002], [], []⟩ }, _, .rbDrain 2, by decide, rfl⟩
theorem witness_SingleWriter : ∃ s t : State, step s = .next t ∧ s.nextEvent ≠ some .reset ∧
    t.rb.head ≠ s.rb.head :=
  ⟨{ State.reset with inp := ⟨[0x18000061], [], [], []⟩, schedule := [.turn .P] }, _, rfl, by decide⟩
theorem witness_SingleWriter_others : ∃ s t s' t' s'' t'' : State,
    step s = .next t ∧ s.nextEvent ≠ some .reset ∧ t.rb.tail ≠ s.rb.tail ∧
    step s' = .next t' ∧ s'.nextEvent ≠ some .reset ∧ t'.rb.cap ≠ s'.rb.cap ∧
    step s'' = .next t'' ∧ s''.nextEvent ≠ some .reset ∧ t''.timers ≠ s''.timers :=
  ⟨{ busyState with schedule := [.turn .C] }, _,
    { State.reset with inp := ⟨[], [], [0x10000004], []⟩, schedule := [.turn .S] }, _,
    { State.reset with inp := ⟨[], [], [], [0x30000000, 1, 2]⟩, schedule := [.turn .T] }, _,
    rfl, by decide, by decide, rfl, by decide, by decide, rfl, by decide, by decide⟩
theorem witness_SingleWriter_registry : ∃ s t s' t' : State,
    step s = .next t ∧ s.nextEvent ≠ some .reset ∧ t.sch ≠ s.sch ∧
    step s' = .next t' ∧ s'.nextEvent ≠ some .reset ∧ t'.slot 1 ≠ s'.slot 1 :=
  ⟨{ State.reset with inp := ⟨[], [], [0x20010001, 5], []⟩, schedule := [.turn .S] }, _,
    { State.reset with rb := ⟨4, 1, 0, [(0, 7), (1, 9)]⟩, inp := ⟨[0x18000061], [], [], []⟩, schedule := [.turn .P] }, _,
    rfl, by decide, by decide, rfl, by decide, by decide⟩
theorem witness_Phase : ∃ s t s' t' : State, step s = .next t ∧ s.nextEvent ≠ some .reset ∧ s.sch.phase = .setup ∧
    t.sch.phase = .running ∧ step s' = .next t' ∧ s'.nextEvent ≠ some .reset ∧ s'.sch.phase = .running :=
  ⟨{ State.reset with inp := ⟨[], [], [0x21000000, 5], []⟩, schedule := [.turn .S] }, _,
    { busyState with schedule := [.turn .S] }, _, rfl, by decide, rfl, rfl, rfl, by decide, rfl⟩
theorem witness_Advance : ∃ cap x y : Half, x.toNat < cap.toNat ∧ x.toNat + 1 < cap.toNat ∧
    y.toNat < cap.toNat ∧ y.toNat + 1 = cap.toNat ∧ cap = 65535 := ⟨65535, 65533, 65534, by decide⟩
theorem witness_Count : ∃ r : RingBuffer, r.head.toNat < r.cap.toNat ∧ r.tail.toNat < r.cap.toNat ∧ r.count = 2 :=
  ⟨wrapped, by decide⟩
theorem witness_WriteFails : ∃ s t s' t' : State, s.Inv ∧ s.active = .P ∧ exec (.rbWrite 1) s = .next t ∧
    newWords s.out.onP t.out.onP = [finalWord .ok 0] ∧
    s'.Inv ∧ s'.active = .P ∧ exec (.rbWrite 1) s' = .next t' ∧ newWords s'.out.onP t'.out.onP = [finalWord .full 0] := by
  refine ⟨busyState, _, { busyState with rb := ⟨4, 2, 3, [(0, 0x11), (1, 0x22), (3, 0x33)]⟩ }, _, busyState_inv, rfl,
    rfl, by decide, ?_, rfl, rfl, by decide⟩
  have h := busyState_inv
  exact ⟨h.1, by decide, by decide, by decide, by decide, by decide, by decide, by decide, h.9, h.10, h.11, h.12, h.13,
    h.14, h.15, h.16⟩

/-- The reference configuration with nothing buffered, in capacity 4, has the invariant. -/
theorem emptyState_inv : State.Inv { State.reset with rb := ⟨4, 3, 3, []⟩ } where
  par_legal := by decide
  two_le_cap := by decide
  cap_le_depth := by decide
  head_lt_cap := by decide
  tail_lt_cap := by decide
  storage_wf := by decide
  storage_lt := by decide
  live_written := by decide
  timers_length := by decide
  tasks_length := by decide
  ntasks_le := by decide
  period_ne_zero := by decide
  tick_running := by decide
  tick_scan := nofun
  drain_bound := nofun
  one_command := by intro p; cases p <;> decide

theorem witness_UsableCapacity : ∃ (s : State) (bs : List Byte), s.Inv ∧ s.rb.head = s.rb.tail ∧ s.inp.onP = [] ∧
    s.schedule = writeEvents bs ++ [] ∧ bs.length ≤ s.rb.cap.toNat - 1 ∧ bs.length = 3 :=
  ⟨_, [0x0A, 0x0B, 0x0C], inv_irrelevant emptyState_inv (writeEvents [0x0A, 0x0B, 0x0C] ++ []) .P, rfl, rfl, rfl,
    by decide, rfl⟩
theorem witness_PeekThenRead : ∃ (s t : State) (v : Half), s.Inv ∧ s.active = .C ∧ exec .rbPeek s = .next t ∧
    newWords s.out.onC t.out.onC = [finalWord .ok v] ∧ ConsumerQuiet t t :=
  ⟨_, _, 0x33, inv_irrelevant busyState_inv [] .C, rfl, rfl, by decide, .refl _⟩
/-- Between the peek and the read: a word on P, then an RB_WRITE answered OK. -/
theorem witness_PeekThenRead_between : ∃ (s t u : State) (v : Half), s.Inv ∧ s.active = .C ∧
    exec .rbPeek s = .next t ∧ newWords s.out.onC t.out.onC = [finalWord .ok v] ∧ ConsumerQuiet t u ∧
    u.rb.head ≠ t.rb.head :=
  ⟨_, _, _, 0x33, inv_irrelevant busyState_inv [.word .P 0x18000061, .turn .P] .C, rfl, rfl, by decide,
    .next _ _ _ (.next _ _ _ (.refl _) rfl (by decide) (by decide) (by decide)) rfl (by decide) (by decide) (by decide),
    by decide⟩
theorem witness_PeekThenRead_write : ∃ s t : State, s.Inv ∧ s.rb.head ≠ s.rb.tail ∧ exec (.rbWrite 1) s = .next t ∧
    t.rb.head ≠ s.rb.head := ⟨busyState, _, busyState_inv, by decide, rfl, by decide⟩
theorem witness_SmallestBuffer : ∃ (r r' : RingBuffer) (s : State), r.cap = 2 ∧ r.head.toNat < 2 ∧ r.tail.toNat < 2 ∧
    r.count = 1 ∧ r'.cap = 1 ∧ r'.head.toNat < 1 ∧ r'.tail.toNat < 1 ∧ s.active = .S ∧ s.drain = none :=
  ⟨⟨2, 0, 1, []⟩, ⟨1, 0, 0, []⟩, State.reset.withActive .S, by decide⟩
theorem witness_Watched : ∃ (s : State) (g : Fifo), Watched s g ∧ g.accepted = [0x61] :=
  ⟨_, _, .next _ _ _ (.next _ _ _ (.start Params.reference [.word .P 0x18000061, .turn .P] (by decide)) rfl) rfl,
    by decide⟩
theorem witness_FifoStep : ∃ (s t : State) (g : Fifo), s.Inv ∧ step s = .next t ∧
    g.accepted = g.returned ++ s.contents ∧ t.contents ≠ s.contents :=
  ⟨_, _, ⟨[0x33, 0x11], []⟩, inv_irrelevant busyState_inv [.turn .C] .P, rfl, by decide, by decide⟩

/-- `busyState` with other bytes in a slot that is not live and in an unregistered entry. -/
def busyState' : State :=
  { busyState with
    rb := ⟨4, 1, 3, [(0, 0x11), (2, 0x77), (3, 0x33)]⟩
    sch := ⟨1, .running, ⟨10, 0, 3, 0x0101⟩ :: ⟨5, 5, 5, 5⟩ :: List.replicate 6 Task.blank⟩
    resets := 9 }

theorem busyState'_inv : busyState'.Inv :=
  have h := busyState_inv
  ⟨h.1, by decide, by decide, by decide, by decide, by decide, by decide, by decide, h.9, by decide, by decide,
    by decide, by decide, h.14, h.15, h.16⟩

theorem witness_Unspecified : ∃ s t : State, s.Inv ∧ t.Inv ∧ SameView s t ∧ s ≠ t :=
  ⟨busyState, busyState', busyState_inv, busyState'_inv,
    ⟨rfl, rfl, rfl, rfl, by decide, rfl, rfl, rfl, by decide, rfl, rfl, rfl, rfl, rfl, rfl, rfl⟩, by decide⟩
theorem witness_Polled : ∃ s t : State, s.Inv ∧ step s = .next t ∧ s.rb.full = false ∧
    s.nextEvent ≠ some (.turn .P) ∧ s.rb.empty = false ∧ s.nextEvent ≠ some (.turn .C) ∧
    s.nextEvent ≠ some .reset ∧ freshInit s t = false :=
  ⟨_, _, inv_irrelevant busyState_inv [.turn .S] .P, rfl, by decide⟩
theorem witness_Pass : ∃ s : State, s.Inv ∧ s.tick = some ⟨10, 0, 0, false⟩ ∧
    s.schedule = passEvents 10 s.registered ++ [] ∧ s.registered.length = 1 :=
  ⟨_, inv_irrelevant busyState_inv (passEvents 10 busyState.registered ++ []) .P, rfl, rfl, by decide⟩
theorem witness_DispatchCount : ∃ (p : Tick) (n : Nat), p ≠ 0 ∧ n < 2 ^ 32 ∧ n / p.toNat = 20 :=
  ⟨10, 200, by decide⟩
theorem witness_RepeatedTick : ∃ (x : Task) (cur : Tick), x.period ≠ 0 ∧ x.due cur = true :=
  ⟨⟨10, 0, 3, 0x0101⟩, 10, by decide⟩
theorem witness_Hang : ∃ (s t : State) (x : Ticking), s.tick = some x ∧ x.wait = true ∧
    decode s.inp.onS ≠ .incomplete ∧ (∀ e ∈ s.schedule, e ≠ .ack ∧ e ≠ .reset) ∧ core.run 1 s = .next t :=
  ⟨{ busyState with
      tick := some ⟨10, 0, 1, true⟩, inp := ⟨[], [], [0x13000000], []⟩, schedule := [.turn .S] }, _,
    ⟨10, 0, 1, true⟩, rfl, rfl, by decide, by decide, rfl⟩
/-- R144 (a) in its plain form: no whole command waits on S. -/
theorem witness_Hang_plain : ∃ (s t : State) (x : Ticking), s.tick = some x ∧ x.wait = true ∧
    decode s.inp.onS = .incomplete ∧ (∀ e ∈ s.schedule, e ≠ .ack ∧ e ≠ .reset) ∧ core.run 2 s = .next t ∧
    t.inp.onS ≠ s.inp.onS :=
  ⟨{ busyState with tick := some ⟨10, 0, 1, true⟩, schedule := [.word .S 0x13000000, .turn .S] }, _,
    ⟨10, 0, 1, true⟩, rfl, rfl, by decide, by decide, rfl, by decide⟩
theorem witness_Rest : ∃ s : State, s.Inv ∧ s.schedule = [] ∧ s.drain ≠ none ∧ s.tick ≠ none :=
  ⟨_, inv_irrelevant busyState_inv [] .P, rfl, by decide⟩

end Sys2Proof.Tests
end

section
/-! SUPPORT. The ring's index arithmetic (`00_scope.md` R9, `40_ringbuffer.md` R98, R99): the index advance, the
number of live slots and where they are, and what moving `head` or `tail` makes of them. -/

namespace Sys2Proof.Machine

theorem Params.legal_iff {c : Params} : c.legal = true ↔
    2 ≤ c.depth ∧ c.depth ≤ 65535 ∧ 1 ≤ c.ntasks ∧ c.ntasks ≤ 256 ∧ 1 ≤ c.ntimers ∧ c.ntimers ≤ 256 := by
  simp [Params.legal, and_assoc]

/-- A legal DEPTH is a 16-bit value, so the reset capacity is DEPTH itself (`00_scope.md` R5). -/
theorem Params.depth_toNat {c : Params} (hc : c.legal = true) : (BitVec.ofNat 16 c.depth).toNat = c.depth := by
  obtain ⟨-, hd, -⟩ := Params.legal_iff.mp hc
  rw [BitVec.toNat_ofNat, Nat.mod_eq_of_lt (by omega)]

theorem advance_toNat {cap x : Half} (h : x.toNat < cap.toNat) :
    (advance cap x).toNat = (x.toNat + 1) % cap.toNat := by
  have hlt : (x.toNat + 1) % cap.toNat < cap.toNat := Nat.mod_lt _ (by omega)
  have hcap := cap.isLt
  rw [advance, BitVec.toNat_ofNat, Nat.mod_eq_of_lt (by omega)]

/-- The advance without a remainder, for linear arithmetic. -/
theorem advance_toNat_ite {cap x : Half} (h : x.toNat < cap.toNat) :
    (advance cap x).toNat = if x.toNat + 1 = cap.toNat then 0 else x.toNat + 1 := by
  rw [advance_toNat h]
  split
  · simp [*]
  · exact Nat.mod_eq_of_lt (by omega)

theorem advance_lt_cap {cap x : Half} (h : x.toNat < cap.toNat) : (advance cap x).toNat < cap.toNat := by
  rw [advance_toNat h]
  exact Nat.mod_lt _ (by omega)

section Indices
variable {r : RingBuffer}

theorem RingBuffer.empty_eq_false_iff : r.empty = false ↔ r.head.toNat ≠ r.tail.toNat := by
  simp [RingBuffer.empty, BitVec.toNat_inj]

theorem RingBuffer.full_eq_false_iff : r.full = false ↔ (advance r.cap r.head).toNat ≠ r.tail.toNat := by
  simp [RingBuffer.full, BitVec.toNat_inj]

theorem RingBuffer.liveSlot_zero (ht : r.tail.toNat < r.cap.toNat) : r.liveSlot 0 = r.tail.toNat := by
  simp [RingBuffer.liveSlot, Nat.mod_eq_of_lt ht]

/-- A buffer that is not empty has a live slot. -/
theorem RingBuffer.count_pos (ht : r.tail.toNat < r.cap.toNat) (he : r.empty = false) : 0 < r.count := by
  have hne := RingBuffer.empty_eq_false_iff.mp he
  unfold RingBuffer.count
  split <;> omega

/-- The next slot to be written is the one after the live ones (`40_ringbuffer.md` R99). -/
theorem RingBuffer.liveSlot_count (hh : r.head.toNat < r.cap.toNat) (ht : r.tail.toNat < r.cap.toNat) :
    r.liveSlot r.count = r.head.toNat := by
  unfold RingBuffer.liveSlot RingBuffer.count
  split
  · rw [Nat.add_sub_cancel' (by assumption), Nat.mod_eq_of_lt hh]
  · rw [show r.tail.toNat + (r.head.toNat + r.cap.toNat - r.tail.toNat) = r.head.toNat + r.cap.toNat by omega,
      Nat.add_mod_right, Nat.mod_eq_of_lt hh]

/-- One more live slot after `head` moves on, unless the buffer was full. -/
theorem RingBuffer.count_advance_head (hh : r.head.toNat < r.cap.toNat) (ht : r.tail.toNat < r.cap.toNat)
    (hf : r.full = false) : RingBuffer.count { r with head := advance r.cap r.head } = r.count + 1 := by
  have hne := RingBuffer.full_eq_false_iff.mp hf
  simp only [RingBuffer.count, advance_toNat_ite hh] at hne ⊢
  split_ifs at hne ⊢ <;> omega

/-- One live slot less after `tail` moves on, unless the buffer was empty. -/
theorem RingBuffer.count_advance_tail (hh : r.head.toNat < r.cap.toNat) (ht : r.tail.toNat < r.cap.toNat)
    (he : r.empty = false) : RingBuffer.count { r with tail := advance r.cap r.tail } + 1 = r.count := by
  have hne := RingBuffer.empty_eq_false_iff.mp he
  simp only [RingBuffer.count, advance_toNat_ite ht]
  split_ifs <;> omega

/-- After `tail` moves on, the live slots are the old ones without the first. -/
theorem RingBuffer.liveSlot_advance_tail (ht : r.tail.toNat < r.cap.toNat) (d : Nat) :
    RingBuffer.liveSlot { r with tail := advance r.cap r.tail } d = r.liveSlot (d + 1) := by
  simp only [RingBuffer.liveSlot, advance_toNat ht, Nat.mod_add_mod]
  congr 1
  omega

end Indices

theorem Memory.isSome_read_write {m : Memory} {k j : Nat} (b : Byte) (h : j = k ∨ (m.read j).isSome = true) :
    ((Memory.write m k b).read j).isSome = true := by
  by_cases hj : j = k
  · simp [hj, Memory.read_write_same]
  · rw [Memory.read_write_ne m b hj]
    exact h.resolve_left hj

/-- A task entry after an entry inside the registry is written. -/
theorem task_withTask {s : State} {i : Nat} (hi : i < s.sch.tasks.length) (x : Task) (j : Nat) :
    (s.withTask i x).task j = if j = i then x else s.task j := by
  by_cases h : j = i
  · subst h
    simp [State.task, hi]
  · simp [State.task, List.getElem?_set_ne (Ne.symm h), h]

end Sys2Proof.Machine
end

section
/-! SUPPORT. Once for all 14 commands: what a command makes of the units before it is answered, and that it answers
at most once. -/

namespace Sys2Proof.Machine

/-- A fresh buffer of capacity `cap`, its storage unchanged (`40_ringbuffer.md` R87). -/
def State.withFresh (s : State) (cap : Half) : State := { s with rb := { s.rb with cap := cap, head := 0, tail := 0 } }

/-- `b` stored at `head`, and `head` advanced (`40_ringbuffer.md` R92). -/
def State.withStored (s : State) (b : Byte) : State :=
  { s with rb := { s.rb with
      head := advance s.rb.cap s.rb.head
      storage := s.rb.storage.write s.rb.head.toNat b } }

/-- `x` added to the registry (`42_scheduler.md` R115). -/
def State.withRegistered (s : State) (x : Task) : State :=
  { s with sch := { s.sch with
      ntasks := s.sch.ntasks + 1
      tasks := s.sch.tasks.set s.sch.ntasks.toNat x } }

/-- A pass at tick `cur` begun (`42_scheduler.md` R116). -/
def State.withPass (s : State) (cur : Tick) : State :=
  { s with sch := { s.sch with phase := .running }, tick := some ⟨cur, 0, 0, false⟩ }

/-- What a command, taken on `s.active`, can make of the units, with the guards it checked. -/
inductive CommandEffect (s : State) : State → Prop where
  | same : CommandEffect s s
  | fresh (cap : Half) (hp : s.active = .S) (hd : s.drain = none) (h2 : 2 ≤ cap.toNat)
      (hc : cap.toNat ≤ s.par.depth) : CommandEffect s (s.withFresh cap)
  | store (b : Byte) (hp : s.active = .P) (hf : s.rb.full = false) (hk : s.rb.head.toNat < s.par.depth) :
      CommandEffect s (s.withStored b)
  | take (hp : s.active = .C) (he : s.rb.empty = false) (hk : s.rb.tail.toNat < s.par.depth) :
      CommandEffect s (s.withTail (advance s.rb.cap s.rb.tail))
  | drain (maxLen : Half) (hp : s.active = .C) : CommandEffect s (s.withDrain (some ⟨maxLen, 0⟩))
  | register (x : Task) (hp : s.active = .S) (hs : s.sch.phase = .setup) (hx : x.period ≠ 0)
      (hn : s.sch.ntasks.toNat ≠ s.par.ntasks) : CommandEffect s (s.withRegistered x)
  | pass (cur : Tick) (hp : s.active = .S) : CommandEffect s (s.withPass cur)
  | timer (j : Nat) (x : Timer) (hp : s.active = .T) (hj : j < s.par.ntimers) : CommandEffect s (s.withTimer j x)

/-- `u` with the active port's command ended by a final response, or accepted without one. -/
def AnsweredFrom (u t : State) : Prop := t = u.accepted ∨ ∃ st rdata, t = u.responded st rdata

theorem AnsweredFrom.responded (u : State) (st : Status) (rdata : Half) : AnsweredFrom u (u.responded st rdata) :=
  .inr ⟨st, rdata, rfl⟩

variable {s t : State}

/-- A command is held, or has its effect on the units and is then answered or accepted. -/
theorem exec_cases {i : Instr} (h : exec i s = .next t) : t = s ∨ ∃ u, CommandEffect s u ∧ AnsweredFrom u t := by
  have unchanged {st rdata} (e : t = s.responded st rdata) : t = s ∨ ∃ u, CommandEffect s u ∧ AnsweredFrom u t :=
    .inr ⟨s, .same, .inr ⟨st, rdata, e⟩⟩
  cases i with
  | rbInit cap =>
    obtain ⟨-, e⟩ | ⟨-, -, e⟩ | ⟨-, -, -, e⟩ | ⟨hp, hd, h2, hc, rfl⟩ := execRbInit_cases h
    · exact unchanged e
    · exact .inl e
    · exact unchanged e
    · exact .inr ⟨_, .fresh cap hp hd h2 hc, .responded _ _ _⟩
  | rbIsEmpty => obtain ⟨-, e⟩ | ⟨-, e⟩ := execRbIsEmpty_cases h <;> exact unchanged e
  | rbIsFull => obtain ⟨-, e⟩ | ⟨-, e⟩ := execRbIsFull_cases h <;> exact unchanged e
  | rbCount => obtain ⟨-, e⟩ | ⟨-, e⟩ := execRbCount_cases h <;> exact unchanged e
  | rbAvailable => obtain ⟨-, e⟩ | ⟨-, e⟩ := execRbAvailable_cases h <;> exact unchanged e
  | rbWrite b =>
    obtain ⟨-, e⟩ | ⟨-, -, e⟩ | ⟨hp, hf, hk, rfl⟩ := execRbWrite_cases h
    · exact unchanged e
    · exact unchanged e
    · exact .inr ⟨_, .store b hp hf hk, .responded _ _ _⟩
  | rbRead =>
    obtain ⟨-, e⟩ | ⟨-, -, e⟩ | ⟨hp, he, hk, rfl⟩ := execRbRead_cases h
    · exact unchanged e
    · exact unchanged e
    · exact .inr ⟨_, .take hp he hk, .responded _ _ _⟩
  | rbPeek => obtain ⟨-, e⟩ | ⟨-, -, e⟩ | ⟨-, -, -, e⟩ := execRbPeek_cases h <;> exact unchanged e
  | rbDrain maxLen =>
    obtain ⟨-, e⟩ | ⟨hp, rfl⟩ := execRbDrain_cases h
    · exact unchanged e
    · exact .inr ⟨_, .drain maxLen hp, .inl rfl⟩
  | schRegister action name period =>
    obtain ⟨-, e⟩ | ⟨-, -, e⟩ | ⟨-, -, -, e⟩ | ⟨-, -, -, -, e⟩ | ⟨hp, hs, hx, hn, rfl⟩ := execSchRegister_cases h
    · exact unchanged e
    · exact unchanged e
    · exact unchanged e
    · exact unchanged e
    · exact .inr ⟨_, .register _ hp hs hx hn, .responded _ _ _⟩
  | schTick cur =>
    obtain ⟨-, e⟩ | ⟨hp, rfl⟩ := execSchTick_cases h
    · exact unchanged e
    · exact .inr ⟨_, .pass cur hp, .inl rfl⟩
  | tmrStart j start duration =>
    obtain ⟨-, e⟩ | ⟨-, -, e⟩ | ⟨hp, hj, rfl⟩ := execTmrStart_cases h
    · exact unchanged e
    · exact unchanged e
    · exact .inr ⟨_, .timer _ _ hp hj, .responded _ _ _⟩
  | tmrStop j =>
    obtain ⟨-, e⟩ | ⟨-, -, e⟩ | ⟨hp, hj, rfl⟩ := execTmrStop_cases h
    · exact unchanged e
    · exact unchanged e
    · exact .inr ⟨_, .timer _ _ hp hj, .responded _ _ _⟩
  | tmrExpired j tick => obtain ⟨-, e⟩ | ⟨-, -, e⟩ | ⟨-, -, e⟩ := execTmrExpired_cases h <;> exact unchanged e

end Sys2Proof.Machine
end

section
/-! The invariant: right after reset, kept by each update of the state, and so by every step (`10_state.md` R22 to
R36, R39). -/

namespace Sys2Proof.Machine

/-- Settles O1: each field by the definition of the reset state, the capacity because a legal DEPTH fits 16 bits. -/
theorem resetHoldsSpecValues : Obligations.ResetHoldsSpecValues := by
  refine ⟨rfl, fun c hc => ?_⟩
  exact ⟨Params.depth_toNat hc, rfl, rfl, rfl, rfl, rfl, List.length_replicate, rfl, rfl, fun p => by cases p <;> rfl,
    fun p => by cases p <;> rfl, fun p => by cases p <;> rfl, rfl⟩

/-- Settles O36. -/
theorem resetStateHasInvariant : Obligations.ResetStateHasInvariant := by
  intro c es hc
  obtain ⟨h2, -⟩ := Params.legal_iff.mp hc
  have hcap := Params.depth_toNat hc
  exact {
    par_legal := hc
    two_le_cap := h2.trans_eq hcap.symm
    cap_le_depth := hcap.le
    head_lt_cap := (Nat.lt_of_lt_of_le Nat.two_pos h2).trans_eq hcap.symm
    tail_lt_cap := (Nat.lt_of_lt_of_le Nat.two_pos h2).trans_eq hcap.symm
    storage_wf := resetWith_storage_wf c
    storage_lt := nofun
    live_written := nofun
    timers_length := List.length_replicate
    tasks_length := List.length_replicate
    ntasks_le := Nat.zero_le _
    period_ne_zero := nofun
    tick_running := nofun
    tick_scan := nofun
    drain_bound := nofun
    one_command := fun p => by cases p <;> rfl }

namespace State.Inv

variable {s t u : State}

/-- The invariant speaks of no channel, port, reset count or schedule, and of the waiting words only that they are at
most one command. -/
theorem frame (h : s.Inv) {inp : PerPort (List Word)} (hinp : ∀ p, dropCommand (inp.get p) = [])
    (out : PerPort Channel) (dispatch : Channel) (active : Port) (resets : Nat) (schedule : List Event) :
    State.Inv { s with inp, out, dispatch, active, resets, schedule } :=
  { h with one_command := hinp }

theorem withActive (h : s.Inv) (p : Port) : (s.withActive p).Inv := h.frame h.one_command _ _ _ _ _

theorem withSchedule (h : s.Inv) (es : List Event) : (s.withSchedule es).Inv := h.frame h.one_command _ _ _ _ _

theorem put (h : s.Inv) (p : Port) (w : Word) : (s.put p w).Inv := h.frame h.one_command _ _ _ _ _

theorem emitDispatch (h : s.Inv) (w : Word) : (s.emitDispatch w).Inv := h.frame h.one_command _ _ _ _ _

theorem withPending (h : s.Inv) (p : Port) {ws : List Word} (hws : dropCommand ws = []) : (s.withPending p ws).Inv := by
  refine h.frame (fun q => ?_) _ _ _ _ _
  by_cases hq : q = p
  · rw [hq, PerPort.get_set_same, hws]
  · rw [PerPort.get_set_ne _ _ hq, h.one_command]

theorem accepted (h : s.Inv) : s.accepted.Inv :=
  h.withPending s.active (by rw [h.one_command]; rfl)

theorem responded (h : s.Inv) (st : Status) (rdata : Half) : (s.responded st rdata).Inv :=
  h.accepted.put s.active (finalWord st rdata)

theorem answeredFrom (h : u.Inv) (ha : AnsweredFrom u t) : t.Inv := by
  obtain rfl | ⟨st, rdata, rfl⟩ := ha
  · exact h.accepted
  · exact h.responded st rdata

/-! ### The updates of the units -/

theorem withFresh (h : s.Inv) {cap : Half} (h2 : 2 ≤ cap.toNat) (hc : cap.toNat ≤ s.par.depth) :
    (s.withFresh cap).Inv :=
  { h with
    two_le_cap := h2
    cap_le_depth := hc
    head_lt_cap := Nat.lt_of_lt_of_le Nat.two_pos h2
    tail_lt_cap := Nat.lt_of_lt_of_le Nat.two_pos h2
    live_written := nofun }

/-- The live slots after a write are the old ones and the slot just written. -/
theorem withStored (h : s.Inv) (hf : s.rb.full = false) (b : Byte) : (s.withStored b).Inv :=
  { h with
    head_lt_cap := advance_lt_cap h.head_lt_cap
    storage_wf := Memory.write_wf _ _ h.storage_wf
    storage_lt := Memory.write_lt b (h.head_lt_cap.trans_le h.cap_le_depth) h.storage_lt
    live_written := by
      intro d hd
      have hd : d < s.rb.count + 1 := (RingBuffer.count_advance_head h.head_lt_cap h.tail_lt_cap hf) ▸ hd
      apply Memory.isSome_read_write
      obtain hlt | rfl := Nat.lt_succ_iff_lt_or_eq.mp hd
      · exact .inr (h.live_written d hlt)
      · exact .inl (RingBuffer.liveSlot_count h.head_lt_cap h.tail_lt_cap) }

/-- The live slots after a read are old ones. -/
theorem withTail_advance (h : s.Inv) (he : s.rb.empty = false) : (s.withTail (advance s.rb.cap s.rb.tail)).Inv :=
  { h with
    tail_lt_cap := advance_lt_cap h.tail_lt_cap
    live_written := by
      intro d hd
      have hd : d + 1 < s.rb.count :=
        RingBuffer.count_advance_tail h.head_lt_cap h.tail_lt_cap he ▸ Nat.succ_lt_succ hd
      rw [State.withTail_rb, RingBuffer.liveSlot_advance_tail h.tail_lt_cap]
      exact h.live_written (d + 1) hd }

theorem withDrain (h : s.Inv) {x : Option Draining} (hx : ∀ d, x = some d → d.rem.toNat + d.n.toNat ≤ 65535) :
    (s.withDrain x).Inv := { h with drain_bound := hx }

theorem withTick (h : s.Inv) {x : Option Ticking} (hr : x.isSome = true → s.sch.phase = .running)
    (hx : ∀ t, x = some t → t.i.toNat + t.wait.toNat ≤ s.sch.ntasks.toNat ∧ t.n.toNat ≤ t.i.toNat + t.wait.toNat) :
    (s.withTick x).Inv := { h with tick_running := hr, tick_scan := hx }

theorem withPass (h : s.Inv) (cur : Tick) : (s.withPass cur).Inv :=
  { h with
    tick_running := fun _ => rfl
    tick_scan := by rintro _ ⟨⟩; simp }

theorem withTimer (h : s.Inv) (j : Nat) (x : Timer) : (s.withTimer j x).Inv :=
  { h with timers_length := by simpa using h.timers_length }

theorem withTask (h : s.Inv) {i : Nat} (hi : i < s.sch.ntasks.toNat) {x : Task} (hx : x.period ≠ 0) :
    (s.withTask i x).Inv :=
  { h with
    tasks_length := by simpa using h.tasks_length
    period_ne_zero := by
      intro j hj
      rw [task_withTask (hi.trans_le (h.ntasks_le.trans_eq h.tasks_length.symm))]
      split
      · exact hx
      · exact h.period_ne_zero j hj }

/-- `SCH.ntasks` has room to count one more task (`10_state.md` R30). -/
theorem ntasks_succ (h : s.Inv) (hn : s.sch.ntasks.toNat ≠ s.par.ntasks) :
    s.sch.ntasks.toNat < s.par.ntasks ∧ (s.sch.ntasks + 1).toNat = s.sch.ntasks.toNat + 1 := by
  obtain ⟨-, -, -, h256, -⟩ := Params.legal_iff.mp h.par_legal
  have hle := h.ntasks_le
  refine ⟨by omega, ?_⟩
  rw [BitVec.toNat_add]
  simp
  omega

theorem withRegistered (h : s.Inv) (hs : s.sch.phase = .setup) (hn : s.sch.ntasks.toNat ≠ s.par.ntasks) {x : Task}
    (hx : x.period ≠ 0) : (s.withRegistered x).Inv := by
  obtain ⟨hlt, hsucc⟩ := h.ntasks_succ hn
  have hidle : s.tick = none := by
    cases ht : s.tick with
    | none => rfl
    | some y => exact absurd (h.tick_running (by rw [ht]; rfl)) (by simp [hs])
  exact { h with
    tasks_length := by simpa [State.withRegistered] using h.tasks_length
    ntasks_le := hsucc.trans_le hlt
    period_ne_zero := by
      intro i hi
      have hi : i < s.sch.ntasks.toNat + 1 := hsucc ▸ hi
      change ((s.withTask s.sch.ntasks.toNat x).task i).period ≠ 0
      rw [task_withTask (hlt.trans_eq h.tasks_length.symm)]
      split
      · exact hx
      · exact h.period_ne_zero i (by omega)
    tick_scan := fun y hy => absurd (hidle.symm.trans hy) nofun }

theorem doReset (h : s.Inv) : s.doReset.Inv :=
  (resetStateHasInvariant s.par [] h.par_legal).frame (fun p => by cases p <;> rfl) _ _ _ _ _

theorem commandEffect (h : s.Inv) (he : CommandEffect s u) : u.Inv := by
  cases he with
  | same => exact h
  | fresh cap _ _ h2 hc => exact h.withFresh h2 hc
  | store b _ hf => exact h.withStored hf b
  | take _ he => exact h.withTail_advance he
  | drain maxLen => exact h.withDrain (by rintro _ ⟨⟩; have := maxLen.isLt; simp; omega)
  | register x _ hs hx hn => exact h.withRegistered hs hn hx
  | pass cur => exact h.withPass cur
  | timer j x => exact h.withTimer j x

/-! ### The steps -/

theorem exec (h : s.Inv) {i : Instr} (e : exec i s = .next t) : t.Inv := by
  obtain rfl | ⟨u, hu, ha⟩ := exec_cases e
  · exact h
  · exact (h.commandEffect hu).answeredFrom ha

theorem takeStep (h : s.Inv) {p : Port} (e : takeStep p s = .next t) : t.Inv := by
  obtain ⟨-, rfl⟩ | ⟨_, _, -, rfl⟩ | ⟨i, _, -, e⟩ := takeStep_cases e
  · exact h
  · exact (h.withActive p).responded _ _
  · exact (h.withActive p).exec e

theorem drainStep (h : s.Inv) {d : Draining} (hd : s.drain = some d) (e : drainStep d s = .next t) : t.Inv := by
  have hbound := h.drain_bound d hd
  obtain ⟨hrem, he, -, rfl⟩ | ⟨-, rfl⟩ := drainStep_cases e
  · refine ((h.withTail_advance he).put .C _).withDrain ?_
    rintro _ ⟨⟩
    bv_omega
  · exact (h.put .C _).withDrain nofun

theorem tickStep (h : s.Inv) {x : Ticking} (hx : s.tick = some x) (hw : x.wait = false)
    (e : tickStep x s = .next t) : t.Inv := by
  have hrun : s.sch.phase = .running := h.tick_running (by rw [hx]; rfl)
  obtain ⟨-, -, -, h256, -⟩ := Params.legal_iff.mp h.par_legal
  have hle := h.ntasks_le
  obtain ⟨-, hn⟩ := h.tick_scan x hx
  simp only [hw, Bool.toNat_false, Nat.add_zero] at hn
  obtain ⟨hi, -, rfl⟩ | ⟨hi, -, rfl⟩ | ⟨-, rfl⟩ | ⟨-, rfl⟩ := tickStep_cases e
  · have hper : Task.period { s.task x.i.toNat with lastRun := x.cur } ≠ 0 := h.period_ne_zero _ hi
    refine ((h.emitDispatch _).withTask hi hper).withTick (fun _ => hrun) ?_
    rintro _ ⟨⟩
    simp only [State.withTask_sch, State.emitDispatch_sch, Bool.toNat_true]
    bv_omega
  · refine h.withTick (fun _ => hrun) ?_
    rintro _ ⟨⟩
    simp only [hw, Bool.toNat_false]
    bv_omega
  · exact (h.put .S _).withTick nofun nofun
  · exact h

theorem ackStep (h : s.Inv) (e : ackStep s = .next t) : t.Inv := by
  obtain ⟨x, hx, hw, rfl⟩ | ⟨-, rfl⟩ := ackStep_cases e
  · obtain ⟨-, -, -, h256, -⟩ := Params.legal_iff.mp h.par_legal
    have hle := h.ntasks_le
    obtain ⟨hi, hn⟩ := h.tick_scan x hx
    simp only [hw, Bool.toNat_true] at hi hn
    refine h.withTick (fun _ => h.tick_running (by rw [hx]; rfl)) ?_
    rintro _ ⟨⟩
    simp only [Bool.toNat_false]
    bv_omega
  · exact h

theorem agentStep (h : s.Inv) {p : Port} (e : agentStep p s = .next t) : t.Inv := by
  obtain ⟨-, d, hd, e⟩ | ⟨-, x, -, -, rfl⟩ | ⟨-, x, hx, hw, e⟩ | ⟨-, e⟩ := agentStep_cases e
  · exact h.drainStep hd e
  · exact h
  · exact h.tickStep hx hw e
  · exact h.takeStep e

theorem runEvent (h : s.Inv) {e : Event} (he : runEvent e s = .next t) : t.Inv := by
  obtain ⟨p, w, -, hinc, rfl⟩ | ⟨_, _, -, -, rfl⟩ | ⟨p, -, he⟩ | ⟨-, he⟩ | ⟨-, rfl⟩ := runEvent_cases he
  · exact h.withPending p (Laws.dropCommand_of_incomplete w hinc)
  · exact h
  · exact h.agentStep he
  · exact h.ackStep he
  · exact h.doReset

theorem step (h : s.Inv) (e : step s = .next t) : t.Inv := by
  obtain ⟨-, rfl⟩ | ⟨_, -, e⟩ := step_cases e
  · exact h
  · exact (h.withSchedule _).runEvent e

end State.Inv

/-- Settles O37: each event's step keeps the invariant. -/
theorem stepKeepsInvariant : Obligations.StepKeepsInvariant := fun _ _ h e => h.step e

/-- Every state a run reaches has the invariant, by induction on the run. -/
theorem Reachable.inv {s : State} (h : Reachable s) : s.Inv := by
  induction h with
  | start c es hc => exact resetStateHasInvariant c es hc
  | next s t _ e ih => exact ih.step e

/-- Settles O38: the two bounds are part of the invariant. -/
theorem indicesStayBelowCap : Obligations.IndicesStayBelowCap := fun _ h => ⟨h.inv.head_lt_cap, h.inv.tail_lt_cap⟩

end Sys2Proof.Machine
end

section
/-! The output channels: a word put on one stays on it, and a step puts at most one word on one (`10_state.md` R37,
`70_reset_and_hazards.md` R148). -/

namespace Sys2Proof.Machine

/-- `c'` is `c` with at most one word put after the words of `c`. -/
def Channel.GrowsTo (c c' : Channel) : Prop := ∃ ws, c'.words = c.words ++ ws ∧ ws.length ≤ 1

theorem Channel.GrowsTo.refl (c : Channel) : c.GrowsTo c := ⟨[], by simp, by simp⟩

theorem Channel.growsTo_put (c : Channel) (w : Word) : c.GrowsTo (c.put w) := ⟨[w], by simp [Channel.words], by simp⟩

theorem Channel.growsTo_cut (c : Channel) : c.GrowsTo c.cut := ⟨[], by simp, by simp⟩

/-- Every channel of `t` is that of `s` with at most one word more. -/
def State.ChannelsGrowTo (s t : State) : Prop :=
  (∀ p, (s.out.get p).GrowsTo (t.out.get p)) ∧ s.dispatch.GrowsTo t.dispatch

namespace State.ChannelsGrowTo

variable {s t u : State}

theorem of_eq (ho : t.out = s.out) (hd : t.dispatch = s.dispatch) : s.ChannelsGrowTo t :=
  ⟨fun _ => ho ▸ .refl _, hd ▸ .refl _⟩

theorem refl (s : State) : s.ChannelsGrowTo s := of_eq rfl rfl

/-- One word put on one response channel. -/
theorem of_put {p : Port} {w : Word} (ho : t.out = s.out.set p ((s.out.get p).put w)) (hd : t.dispatch = s.dispatch) :
    s.ChannelsGrowTo t := by
  refine ⟨fun q => ?_, hd ▸ .refl _⟩
  rw [ho]
  by_cases hq : q = p
  · rw [hq, PerPort.get_set_same]
    exact Channel.growsTo_put _ w
  · rw [PerPort.get_set_ne _ _ hq]
    exact .refl _

/-- One word put on the dispatch channel. -/
theorem of_emit {w : Word} (ho : t.out = s.out) (hd : t.dispatch = s.dispatch.put w) : s.ChannelsGrowTo t :=
  ⟨fun _ => ho ▸ .refl _, hd ▸ Channel.growsTo_put _ w⟩

theorem doReset (s : State) : s.ChannelsGrowTo s.doReset :=
  ⟨fun p => by simpa [State.doReset] using Channel.growsTo_cut _, Channel.growsTo_cut _⟩

end State.ChannelsGrowTo

section Steps
variable {s t u : State}

/-- No command puts a word before it is answered. -/
theorem CommandEffect.channels_eq (h : CommandEffect s u) : u.out = s.out ∧ u.dispatch = s.dispatch := by
  cases h <;> exact ⟨rfl, rfl⟩

theorem exec_channelsGrowTo {i : Instr} (h : exec i s = .next t) : s.ChannelsGrowTo t := by
  obtain rfl | ⟨u, hu, ha⟩ := exec_cases h
  · exact .refl t
  · obtain ⟨ho, hd⟩ := hu.channels_eq
    obtain rfl | ⟨st, rdata, rfl⟩ := ha
    · exact .of_eq ho hd
    · exact .of_put (by rw [State.responded_out, ho]; rfl) hd

theorem takeStep_channelsGrowTo {p : Port} (h : takeStep p s = .next t) : s.ChannelsGrowTo t := by
  obtain ⟨-, rfl⟩ | ⟨_, _, -, rfl⟩ | ⟨i, _, -, h⟩ := takeStep_cases h
  · exact .refl t
  · exact .of_put rfl rfl
  · exact exec_channelsGrowTo (s := s.withActive p) h

theorem drainStep_channelsGrowTo {d : Draining} (h : drainStep d s = .next t) : s.ChannelsGrowTo t := by
  obtain ⟨-, -, -, rfl⟩ | ⟨-, rfl⟩ := drainStep_cases h
  · exact .of_put (p := .C) (w := dataWord _) rfl rfl
  · exact .of_put (p := .C) (w := finalWord .ok d.n) rfl rfl

theorem tickStep_channelsGrowTo {x : Ticking} (h : tickStep x s = .next t) : s.ChannelsGrowTo t := by
  obtain ⟨-, -, rfl⟩ | ⟨-, -, rfl⟩ | ⟨-, rfl⟩ | ⟨-, rfl⟩ := tickStep_cases h
  · exact .of_emit rfl rfl
  · exact .of_eq rfl rfl
  · exact .of_put (p := .S) (w := finalWord .ok _) rfl rfl
  · exact .refl t

theorem agentStep_channelsGrowTo {p : Port} (h : agentStep p s = .next t) : s.ChannelsGrowTo t := by
  obtain ⟨-, d, -, h⟩ | ⟨-, x, -, -, rfl⟩ | ⟨-, x, -, -, h⟩ | ⟨-, h⟩ := agentStep_cases h
  · exact drainStep_channelsGrowTo h
  · exact .refl t
  · exact tickStep_channelsGrowTo h
  · exact takeStep_channelsGrowTo h

theorem runEvent_channelsGrowTo {e : Event} (h : runEvent e s = .next t) : s.ChannelsGrowTo t := by
  obtain ⟨p, w, -, -, rfl⟩ | ⟨_, _, -, -, rfl⟩ | ⟨p, -, h⟩ | ⟨-, h⟩ | ⟨-, rfl⟩ := runEvent_cases h
  · exact .of_eq rfl rfl
  · exact .refl t
  · exact agentStep_channelsGrowTo h
  · obtain ⟨x, -, -, rfl⟩ | ⟨-, rfl⟩ := ackStep_cases h
    · exact .of_eq rfl rfl
    · exact .refl t
  · exact .doReset s

end Steps

/-- Settles O44: an event's step puts no word, or one word on one channel; taking the event off the schedule puts
none. -/
theorem channelsOnlyGrow : Obligations.ChannelsOnlyGrow := by
  intro s t h
  obtain ⟨-, rfl⟩ | ⟨e, -, h⟩ := step_cases h
  · exact State.ChannelsGrowTo.refl t
  · exact (runEvent_channelsGrowTo h : State.ChannelsGrowTo _ t)

end Sys2Proof.Machine
end

section
/-! What the spec leaves unspecified is never observed (`10_state.md` R25, R28, R32, `70_reset_and_hazards.md` R150):
two states with the same view stay so under the same update, each operation of the block answers them alike, and so
does each step. -/

namespace Sys2Proof.Machine

namespace SameView

variable {s t : State}

/-! ### What two states with the same view compute alike -/

theorem empty (h : SameView s t) : t.rb.empty = s.rb.empty := by simp [RingBuffer.empty, h.head, h.tail]

theorem full (h : SameView s t) : t.rb.full = s.rb.full := by simp [RingBuffer.full, h.cap, h.head, h.tail]

theorem count (h : SameView s t) : t.rb.count = s.rb.count := by simp [RingBuffer.count, h.cap, h.head, h.tail]

theorem mayTake (h : SameView s t) (d : Draining) : d.mayTake t.rb = d.mayTake s.rb := by
  rw [Draining.mayTake, Draining.mayTake, h.empty]

theorem timer (h : SameView s t) (j : Nat) : t.timer j = s.timer j := State.timer_congr h.timers j

theorem presented (h : SameView s t) (p : Port) : t.presented p = s.presented p := by
  simp only [State.presented, h.inp]

theorem initPresented (h : SameView s t) : t.initPresented = s.initPresented := by
  simp only [State.initPresented, h.inp]

theorem enabled (h : SameView s t) (p : Port) : t.enabled p = s.enabled p := by
  cases p with
  | P => exact h.presented .P
  | C => simp only [State.enabled, h.drain, h.presented]
  | S => simp only [State.enabled, h.tick, h.ntasks, h.presented, h.initPresented, h.drain]
  | T => exact h.presented .T

theorem nextEvent (h : SameView s t) : t.nextEvent = s.nextEvent := by
  have hport : t.nextPort = s.nextPort := by
    rw [State.nextPort, State.nextPort, funext h.enabled]
  rw [State.nextEvent, State.nextEvent, h.schedule, hport]

/-- The oldest byte is in a live slot, so both states hold the same one. -/
theorem slot_tail (h : SameView s t) (hs : s.Inv) (he : s.rb.empty = false) :
    t.slot s.rb.tail.toNat = s.slot s.rb.tail.toNat := by
  have hlive := h.live 0 (RingBuffer.count_pos hs.tail_lt_cap he)
  rwa [RingBuffer.liveSlot_zero hs.tail_lt_cap] at hlive

/-! ### The same update keeps the same view -/

theorem withActive (h : SameView s t) (p : Port) : SameView (s.withActive p) (t.withActive p) :=
  { h with active := rfl }

theorem withSchedule (h : SameView s t) (es : List Event) : SameView (s.withSchedule es) (t.withSchedule es) :=
  { h with schedule := rfl }

theorem withPending (h : SameView s t) (p : Port) (ws : List Word) :
    SameView (s.withPending p ws) (t.withPending p ws) :=
  { h with inp := by simp [h.inp] }

theorem put (h : SameView s t) (p : Port) (w : Word) : SameView (s.put p w) (t.put p w) :=
  { h with out := by simp [h.out] }

theorem emitDispatch (h : SameView s t) (w : Word) : SameView (s.emitDispatch w) (t.emitDispatch w) :=
  { h with dispatch := by simp [h.dispatch] }

theorem accepted (h : SameView s t) : SameView s.accepted t.accepted :=
  { h with inp := by simp [h.inp, h.active] }

theorem responded (h : SameView s t) (st : Status) (rdata : Half) :
    SameView (s.responded st rdata) (t.responded st rdata) :=
  { h with
    inp := by simp [h.inp, h.active]
    out := by simp [h.out, h.active] }

theorem withDrain (h : SameView s t) (x : Option Draining) : SameView (s.withDrain x) (t.withDrain x) :=
  { h with drain := rfl }

theorem withTick (h : SameView s t) (x : Option Ticking) : SameView (s.withTick x) (t.withTick x) :=
  { h with tick := rfl }

theorem withPass (h : SameView s t) (cur : Tick) : SameView (s.withPass cur) (t.withPass cur) :=
  { h with
    phase := rfl
    tick := rfl }

theorem withTimer (h : SameView s t) (j : Nat) (x : Timer) : SameView (s.withTimer j x) (t.withTimer j x) :=
  { h with timers := by simp [h.timers] }

theorem withTask (h : SameView s t) (hs : s.Inv) (ht : t.Inv) {i : Nat} (hi : i < s.par.ntasks) (x : Task) :
    SameView (s.withTask i x) (t.withTask i x) :=
  { h with
    tasks := fun j hj => by
      rw [task_withTask (hi.trans_eq hs.tasks_length.symm),
        task_withTask ((h.par ▸ hi : i < t.par.ntasks).trans_eq ht.tasks_length.symm)]
      split
      · rfl
      · exact h.tasks j hj }

theorem withRegistered (h : SameView s t) (hs : s.Inv) (ht : t.Inv) (hn : s.sch.ntasks.toNat ≠ s.par.ntasks)
    (x : Task) : SameView (s.withRegistered x) (t.withRegistered x) := by
  obtain ⟨hlt, hsucc⟩ := hs.ntasks_succ hn
  have hlt' : t.sch.ntasks.toNat < t.sch.tasks.length := by rwa [h.ntasks, ht.tasks_length, h.par]
  exact { h with
    ntasks := congrArg (· + 1) h.ntasks
    tasks := fun j hj => by
      have hj : j < s.sch.ntasks.toNat + 1 := hsucc ▸ hj
      change (t.withTask t.sch.ntasks.toNat x).task j = (s.withTask s.sch.ntasks.toNat x).task j
      rw [task_withTask hlt', task_withTask (hlt.trans_eq hs.tasks_length.symm), h.ntasks]
      split
      · rfl
      · exact h.tasks j (by omega) }

/-- A fresh buffer has no live slot, so none that could differ. -/
theorem withFresh (h : SameView s t) (cap : Half) : SameView (s.withFresh cap) (t.withFresh cap) :=
  { h with
    cap := rfl
    head := rfl
    tail := rfl
    live := nofun }

/-- A write adds one live slot, and both states store the same byte there. -/
theorem withStored (h : SameView s t) (hs : s.Inv) (hf : s.rb.full = false) (b : Byte) :
    SameView (s.withStored b) (t.withStored b) :=
  { h with
    head := by simp [State.withStored, h.cap, h.head]
    live := fun d hd => by
      have hd : d < s.rb.count + 1 := RingBuffer.count_advance_head hs.head_lt_cap hs.tail_lt_cap hf ▸ hd
      refine (slot_write t t.rb.head.toNat (s.rb.liveSlot d) b).trans
        (Eq.trans ?_ (slot_write s s.rb.head.toNat (s.rb.liveSlot d) b).symm)
      rw [h.head]
      split
      · rfl
      · rename_i hne
        obtain hlt | rfl := Nat.lt_succ_iff_lt_or_eq.mp hd
        · exact h.live d hlt
        · exact absurd (RingBuffer.liveSlot_count hs.head_lt_cap hs.tail_lt_cap) hne }

/-- After a read, the live slots are old ones. -/
theorem withTail_advance (h : SameView s t) (hs : s.Inv) (he : s.rb.empty = false) :
    SameView (s.withTail (advance s.rb.cap s.rb.tail)) (t.withTail (advance t.rb.cap t.rb.tail)) :=
  { h with
    tail := by simp [h.cap, h.tail]
    live := fun d hd => by
      have hd : d + 1 < s.rb.count :=
        RingBuffer.count_advance_tail hs.head_lt_cap hs.tail_lt_cap he ▸ Nat.succ_lt_succ hd
      rw [State.withTail_rb, RingBuffer.liveSlot_advance_tail hs.tail_lt_cap]
      exact h.live (d + 1) hd }

theorem doReset (h : SameView s t) : SameView s.doReset t.doReset where
  par := h.par
  cap := by simp [State.doReset, State.resetWith, h.par]
  head := rfl
  tail := rfl
  live := nofun
  timers := by simp [State.doReset, State.resetWith, h.par]
  ntasks := rfl
  phase := rfl
  tasks := nofun
  drain := rfl
  tick := rfl
  inp := rfl
  out := by simp [State.doReset, h.out]
  dispatch := by simp [State.doReset, h.dispatch]
  active := rfl
  schedule := h.schedule

end SameView

/-! ### The shared operations answer alike -/

section Operations
variable {s t : State}

theorem SameView.onPort (h : SameView s t) (i : Instr) {a b : Result} (hab : SameViewResult a b) :
    SameViewResult (onPort i s a) (onPort i t b) := by
  unfold Sys2Proof.Machine.onPort
  rw [h.active]
  split
  · exact hab
  · exact h.responded .errPort 0

theorem SameView.onTimer (h : SameView s t) (j : Index) {a b : Result} (hab : SameViewResult a b) :
    SameViewResult (onTimer j s a) (onTimer j t b) := by
  unfold Sys2Proof.Machine.onTimer
  rw [h.par]
  split
  · exact h.responded .errIndex 0
  · exact hab

theorem SameView.memRead (h : SameView s t) {k k' : Nat} (hk : k' = k) (hv : t.slot k = s.slot k)
    {f g : Byte → Result} (hfg : SameViewResult (f (s.slot k)) (g (s.slot k))) :
    SameViewResult (memRead s k f) (memRead t k' g) := by
  unfold Sys2Proof.Machine.memRead
  rw [hk, h.par, hv]
  split
  · exact hfg
  · exact rfl

theorem SameView.memWrite (h : SameView s t) {k k' : Nat} (hk : k' = k) {b : Byte} {f g : State → Result}
    (hfg : SameViewResult (f { s with rb := { s.rb with storage := s.rb.storage.write k b } })
      (g { t with rb := { t.rb with storage := t.rb.storage.write k' b } })) :
    SameViewResult (memWrite s k b f) (memWrite t k' b g) := by
  unfold Sys2Proof.Machine.memWrite
  by_cases hlt : k < s.par.depth
  · rw [if_pos hlt, if_pos (by rwa [hk, h.par])]
    exact hfg
  · rw [if_neg hlt, if_neg (by rwa [hk, h.par])]
    exact congrArg _ hk.symm

end Operations

/-! ### Each command answers alike -/

section Commands
variable {s t : State}

theorem execRbInit_eq (cap : Half) (s : State) :
    execRbInit cap s = onPort (.rbInit cap) s (
      if s.drain.isSome then hold s
      else if cap.toNat < 2 ∨ s.par.depth < cap.toNat then answer .errConfig 0 s
      else answer .ok 0 (s.withFresh cap)) := rfl

theorem execSchRegister_eq (action : Index) (name : Half) (period : Tick) (s : State) :
    execSchRegister action name period s = onPort (.schRegister action name period) s (
      if s.sch.phase = .running then answer .errPhase 0 s
      else if period = 0 then answer .errConfig 0 s
      else if s.sch.ntasks.toNat = s.par.ntasks then answer .errRegFull 0 s
      else answer .ok (rdataNat s.sch.ntasks.toNat) (s.withRegistered ⟨period, 0, action, name⟩)) := rfl

theorem execRbInit_sameView (h : SameView s t) (cap : Half) :
    SameViewResult (execRbInit cap s) (execRbInit cap t) := by
  rw [execRbInit_eq, execRbInit_eq, h.drain, h.par]
  refine h.onPort _ ?_
  split
  · exact h
  · split
    · exact h.responded .errConfig 0
    · exact (h.withFresh cap).responded .ok 0

theorem execRbWrite_sameView (h : SameView s t) (hs : s.Inv) (b : Byte) :
    SameViewResult (execRbWrite b s) (execRbWrite b t) := by
  rw [execRbWrite, execRbWrite, h.full]
  refine h.onPort _ ?_
  split
  · exact h.responded .full 0
  · rename_i hf
    exact h.memWrite (congrArg BitVec.toNat h.head)
      ((h.withStored hs (by simpa using hf) b).responded .ok 0)

theorem execRbRead_sameView (h : SameView s t) (hs : s.Inv) : SameViewResult (execRbRead s) (execRbRead t) := by
  rw [execRbRead, execRbRead, h.empty]
  refine h.onPort _ ?_
  split
  · exact h.responded .empty 0
  · rename_i he
    have he : s.rb.empty = false := by simpa using he
    exact h.memRead (congrArg BitVec.toNat h.tail) (h.slot_tail hs he) ((h.withTail_advance hs he).responded .ok _)

theorem execRbPeek_sameView (h : SameView s t) (hs : s.Inv) : SameViewResult (execRbPeek s) (execRbPeek t) := by
  rw [execRbPeek, execRbPeek, h.empty]
  refine h.onPort _ ?_
  split
  · exact h.responded .empty 0
  · rename_i he
    exact h.memRead (congrArg BitVec.toNat h.tail) (h.slot_tail hs (by simpa using he)) (h.responded .ok _)

theorem execSchRegister_sameView (h : SameView s t) (hs : s.Inv) (ht : t.Inv) (action : Index) (name : Half)
    (period : Tick) : SameViewResult (execSchRegister action name period s) (execSchRegister action name period t) := by
  rw [execSchRegister_eq, execSchRegister_eq, h.phase, h.ntasks, h.par]
  refine h.onPort _ ?_
  split
  · exact h.responded .errPhase 0
  · split
    · exact h.responded .errConfig 0
    · split
      · exact h.responded .errRegFull 0
      · exact (h.withRegistered hs ht (by assumption) _).responded .ok _

/-- A query answers a value both states compute alike, and changes nothing. -/
theorem SameView.query (h : SameView s t) (i : Instr) {a b : Half} (hab : b = a) :
    SameViewResult (Sys2Proof.Machine.onPort i s (answer .ok a s)) (Sys2Proof.Machine.onPort i t (answer .ok b t)) :=
  h.onPort i (hab ▸ h.responded .ok a)

theorem exec_sameView (h : SameView s t) (hs : s.Inv) (ht : t.Inv) (i : Instr) :
    SameViewResult (exec i s) (exec i t) := by
  cases i with
  | rbInit cap => exact execRbInit_sameView h cap
  | rbIsEmpty => exact h.query _ (congrArg rdataBool h.empty)
  | rbIsFull => exact h.query _ (congrArg rdataBool h.full)
  | rbCount => exact h.query _ (congrArg rdataNat h.count)
  | rbAvailable => exact h.query _ (congrArg (fun b => rdataBool !b) h.empty)
  | rbWrite b => exact execRbWrite_sameView h hs b
  | rbRead => exact execRbRead_sameView h hs
  | rbPeek => exact execRbPeek_sameView h hs
  | rbDrain maxLen => exact h.onPort _ (h.withDrain _).accepted
  | schRegister action name period => exact execSchRegister_sameView h hs ht action name period
  | schTick cur => exact h.onPort _ (h.withPass cur).accepted
  | tmrStart j start duration => exact h.onPort _ (h.onTimer j ((h.withTimer j.toNat _).responded .ok 0))
  | tmrStop j =>
    refine h.onPort _ (h.onTimer j ?_)
    rw [h.timer]
    exact (h.withTimer j.toNat _).responded .ok 0
  | tmrExpired j tick =>
    refine h.onPort _ (h.onTimer j ?_)
    rw [h.timer]
    exact h.responded .ok _

end Commands

/-! ### Each step answers alike -/

section Steps
variable {s t : State}

theorem takeStep_sameView (h : SameView s t) (hs : s.Inv) (ht : t.Inv) (p : Port) :
    SameViewResult (takeStep p s) (takeStep p t) := by
  unfold takeStep
  rw [h.inp]
  split
  · exact h
  · exact (h.withActive p).responded .errIllegal 0
  · exact exec_sameView (h.withActive p) (hs.withActive p) (ht.withActive p) _

theorem drainStep_sameView (h : SameView s t) (hs : s.Inv) (d : Draining) :
    SameViewResult (drainStep d s) (drainStep d t) := by
  unfold drainStep
  rw [h.mayTake]
  split
  · rename_i hm
    have he : s.rb.empty = false := by
      simp only [Draining.mayTake, Bool.and_eq_true, Bool.not_eq_true'] at hm
      exact hm.2
    exact h.memRead (congrArg BitVec.toNat h.tail) (h.slot_tail hs he)
      (((h.withTail_advance hs he).put .C _).withDrain _)
  · exact (h.put .C _).withDrain none

theorem tickStep_sameView (h : SameView s t) (hs : s.Inv) (ht : t.Inv) (x : Ticking) :
    SameViewResult (tickStep x s) (tickStep x t) := by
  unfold tickStep
  rw [h.ntasks]
  split
  · rename_i hi
    have htask := h.tasks _ hi
    rw [htask]
    split
    · simp only [dispatchStep, htask]
      exact ((h.emitDispatch _).withTask (hs.emitDispatch _) (ht.emitDispatch _) (hi.trans_le hs.ntasks_le) _).withTick _
    · exact h.withTick _
  · split
    · exact (h.put .S _).withTick none
    · exact h

theorem ackStep_sameView (h : SameView s t) : SameViewResult (ackStep s) (ackStep t) := by
  unfold ackStep
  rw [h.tick]
  split
  · exact h
  · split
    · exact h.withTick _
    · exact h

theorem agentStep_sameView (h : SameView s t) (hs : s.Inv) (ht : t.Inv) (p : Port) :
    SameViewResult (agentStep p s) (agentStep p t) := by
  cases p with
  | P => exact takeStep_sameView h hs ht .P
  | C =>
    simp only [agentStep, h.drain]
    split
    · exact drainStep_sameView h hs _
    · exact takeStep_sameView h hs ht .C
  | S =>
    simp only [agentStep, h.tick]
    split
    · split
      · exact h
      · exact tickStep_sameView h hs ht _
    · exact takeStep_sameView h hs ht .S
  | T => exact takeStep_sameView h hs ht .T

theorem runEvent_sameView (h : SameView s t) (hs : s.Inv) (ht : t.Inv) (e : Event) :
    SameViewResult (runEvent e s) (runEvent e t) := by
  cases e with
  | word p w =>
    simp only [runEvent, presentWord, h.presented, h.inp]
    split
    · exact h
    · exact h.withPending p _
  | turn p => exact agentStep_sameView h hs ht p
  | ack => exact ackStep_sameView h
  | reset => exact h.doReset

end Steps

/-- Settles O53: both states take the same event, and each event's step answers them alike. -/
theorem unspecifiedContentIsNeverObserved : Obligations.UnspecifiedContentIsNeverObserved := by
  intro s t hs ht h
  rw [step_eq, step_eq, h.nextEvent, h.schedule]
  cases s.nextEvent with
  | none => exact h
  | some e => exact runEvent_sameView (h.withSchedule _) (hs.withSchedule _) (ht.withSchedule _) e

end Sys2Proof.Machine
end

section
/-! The buffered bytes as a list (`10_state.md` R28, `20_memory.md` R62): the live slots are all different, so a write
adds its byte at the end, a read takes the oldest byte off the front, and a fresh buffer holds none. -/

namespace Sys2Proof.Machine

section Indices
variable {r : RingBuffer}

theorem RingBuffer.count_lt_cap (hh : r.head.toNat < r.cap.toNat) : r.count < r.cap.toNat := by
  unfold RingBuffer.count
  split <;> omega

theorem RingBuffer.count_eq_zero (h : r.head = r.tail) : r.count = 0 := by
  simp [RingBuffer.count, h]

/-- Slots at different distances below CAP from `tail` are different (`40_ringbuffer.md` R99). -/
theorem RingBuffer.liveSlot_inj {d e : Nat} (hd : d < r.cap.toNat) (he : e < r.cap.toNat)
    (h : r.liveSlot d = r.liveSlot e) : d = e :=
  (Nat.ModEq.add_left_cancel' r.tail.toNat h).eq_of_lt_of_lt hd he

/-- The slot a write stores to is not live. -/
theorem RingBuffer.liveSlot_ne_head (hh : r.head.toNat < r.cap.toNat) (ht : r.tail.toNat < r.cap.toNat) {d : Nat}
    (hd : d < r.count) : r.liveSlot d ≠ r.head.toNat := by
  intro h
  have hcount := RingBuffer.count_lt_cap hh
  exact hd.ne (RingBuffer.liveSlot_inj (hd.trans hcount) hcount (h.trans (RingBuffer.liveSlot_count hh ht).symm))

end Indices

section Contents
variable {s t : State}

theorem contents_congr (hrb : t.rb = s.rb) (hn : t.resets = s.resets) : t.contents = s.contents := by
  simp only [State.contents, hrb, State.slot_congr (congrArg RingBuffer.storage hrb) hn]

theorem contents_eq_nil (h : s.rb.head = s.rb.tail) : s.contents = [] := by
  simp [State.contents, RingBuffer.count_eq_zero h]

theorem slot_withStored (s : State) (b : Byte) (k : Nat) :
    (s.withStored b).slot k = if k = s.rb.head.toNat then b else s.slot k :=
  slot_write s s.rb.head.toNat k b

theorem contents_withStored (h : s.Inv) (hf : s.rb.full = false) (b : Byte) :
    (s.withStored b).contents = s.contents ++ [b] := by
  have hcount : (s.withStored b).rb.count = s.rb.count + 1 :=
    RingBuffer.count_advance_head h.head_lt_cap h.tail_lt_cap hf
  have old : ∀ d ∈ List.range s.rb.count, (s.withStored b).slot (s.rb.liveSlot d) = s.slot (s.rb.liveSlot d) :=
    fun d hd => by
      rw [slot_withStored,
        if_neg (RingBuffer.liveSlot_ne_head h.head_lt_cap h.tail_lt_cap (List.mem_range.mp hd))]
  have new : (s.withStored b).slot (s.rb.liveSlot s.rb.count) = b := by
    rw [slot_withStored, if_pos (RingBuffer.liveSlot_count h.head_lt_cap h.tail_lt_cap)]
  calc (s.withStored b).contents
      = (List.range (s.rb.count + 1)).map fun d => (s.withStored b).slot (s.rb.liveSlot d) := by
        rw [← hcount]; rfl
    _ = s.contents ++ [b] := by
        rw [List.range_succ, List.map_append, List.map_congr_left old, List.map_singleton, new]; rfl

theorem contents_eq_cons (h : s.Inv) (he : s.rb.empty = false) :
    s.contents = s.slot s.rb.tail.toNat :: (s.withTail (advance s.rb.cap s.rb.tail)).contents := by
  have hcount : (s.withTail (advance s.rb.cap s.rb.tail)).rb.count + 1 = s.rb.count :=
    RingBuffer.count_advance_tail h.head_lt_cap h.tail_lt_cap he
  simp only [State.contents, ← hcount, List.range_succ_eq_map, List.map_cons, List.map_map,
    RingBuffer.liveSlot_zero h.tail_lt_cap, State.withTail_rb, RingBuffer.liveSlot_advance_tail h.tail_lt_cap]
  rfl

end Contents

end Sys2Proof.Machine
end

section
/-! What an observer of the response channels counts (`20_memory.md` R62): the words a step puts, what they say, and
the bytes and fresh buffers they stand for. -/

namespace Sys2Proof

/-- The commands that move the ring when they are answered OK (`40_ringbuffer.md` R87, R92, R93). -/
def Instr.movesRing : Instr → Bool
  | .rbInit _ | .rbWrite _ | .rbRead => true
  | _ => false

end Sys2Proof

namespace Sys2Proof.Machine

theorem finalWord_eq_header (st : Status) (rdata : Half) :
    finalWord st rdata = header st.code 0 (if st = .ok then rdata else 0) := by
  unfold finalWord header
  split <;> simp

theorem dataWord_eq_header (b : Byte) : dataWord b = header 0x80 0 (zextByte b) := by
  simp [dataWord, header, zextByte]

theorem readResponse_finalWord (st : Status) (rdata : Half) :
    readResponse (finalWord st rdata) = some (.final st (if st = .ok then rdata else 0)) := by
  have hdata : st.code ≠ 0x80#8 := by cases st <;> decide
  have hfind : Status.table.find? (fun x => x.code == st.code) = some st := by cases st <;> decide
  simp [readResponse, finalWord_eq_header, hdata, hfind]

theorem readResponse_dataWord (b : Byte) : readResponse (dataWord b) = some (.data b) := by
  simp [readResponse, dataWord_eq_header]

theorem finalWord_ne_ok {st : Status} (h : st ≠ .ok) (rdata rdata' : Half) :
    finalWord st rdata ≠ finalWord .ok rdata' := by
  intro e
  have := congrArg readResponse e
  simp [readResponse_finalWord, h] at this

@[simp] theorem newWords_self (c : Channel) : newWords c c = [] := by simp [newWords]

@[simp] theorem newWords_put (c : Channel) (w : Word) : newWords c (c.put w) = [w] := by simp [newWords]

/-- From `s` to `t` the one word put on a response channel is `w`, on port `p`. -/
def PutOn (s t : State) (p : Port) (w : Word) : Prop := t.out = s.out.set p ((s.out.get p).put w)

section Observers
variable {s t : State}

theorem PutOn.newWords_same {p : Port} {w : Word} (h : PutOn s t p w) : newWords (s.out.get p) (t.out.get p) = [w] := by
  rw [h, PerPort.get_set_same, newWords_put]

theorem PutOn.get_ne {p q : Port} {w : Word} (h : PutOn s t p w) (hq : q ≠ p) : t.out.get q = s.out.get q := by
  rw [h, PerPort.get_set_ne _ _ hq]

theorem putOn_responded {u : State} {p : Port} (hp : u.active = p) (ho : u.out = s.out) (st : Status) (rdata : Half) :
    PutOn s (u.responded st rdata) p (finalWord st rdata) := by
  rw [PutOn, State.responded_out, hp, ho]
  rfl

theorem freshInit_of_unchanged (h : t.out.get .S = s.out.get .S) : freshInit s t = false := by
  have h : t.out.onS = s.out.onS := h
  unfold freshInit
  split <;> simp [h]

theorem acceptedBytes_of_unchanged (h : t.out.get .P = s.out.get .P) : acceptedBytes s t = [] := by
  have h : t.out.onP = s.out.onP := h
  unfold acceptedBytes
  split <;> simp [h]

theorem returnedBytes_of_unchanged (h : t.out.get .C = s.out.get .C) : returnedBytes s t = [] := by
  have h : t.out.onC = s.out.onC := h
  simp [returnedBytes, h]

theorem freshInit_of_ok {cap : Half} {rest : List Word} (hd : decode (s.inp.get .S) = .instr (.rbInit cap) rest)
    (hb : s.busy .S = false) (h : PutOn s t .S (finalWord .ok 0)) : freshInit s t = true := by
  have hd : decode s.inp.onS = .instr (.rbInit cap) rest := hd
  have hw : newWords s.out.onS t.out.onS = [finalWord .ok 0] := h.newWords_same
  have hb : s.tick.isNone = true := by simpa [State.busy] using hb
  simp [freshInit, hd, hw, hb]

theorem acceptedBytes_of_ok {b : Byte} {rest : List Word} (hd : decode (s.inp.get .P) = .instr (.rbWrite b) rest)
    (h : PutOn s t .P (finalWord .ok 0)) : acceptedBytes s t = [b] := by
  have hd : decode s.inp.onP = .instr (.rbWrite b) rest := hd
  have hw : newWords s.out.onP t.out.onP = [finalWord .ok 0] := h.newWords_same
  simp [acceptedBytes, hd, hw]

theorem returnedBytes_of_read {b : Byte} {rest : List Word} (hd : decode (s.inp.get .C) = .instr .rbRead rest)
    (hb : s.busy .C = false) (h : PutOn s t .C (finalWord .ok (zextByte b))) : returnedBytes s t = [b] := by
  have hd : decode s.inp.onC = .instr .rbRead rest := hd
  have hw : newWords s.out.onC t.out.onC = [finalWord .ok (zextByte b)] := h.newWords_same
  have hr : s.readPresented = true := by simpa [State.readPresented, hd, State.busy] using hb
  simp [returnedBytes, hw, hr, readResponse_finalWord, zextByte]

theorem returnedBytes_of_data {b : Byte} (h : PutOn s t .C (dataWord b)) : returnedBytes s t = [b] := by
  have hw : newWords s.out.onC t.out.onC = [dataWord b] := h.newWords_same
  simp [returnedBytes, hw, readResponse_dataWord]

/-- A final response that stands for no move of the ring: its status is not OK, or its port was busy, or its port's
command is none that moves the ring. -/
def Unmoving (s : State) (p : Port) (st : Status) : Prop :=
  st = .ok → s.busy p = false → ∀ i rest, decode (s.inp.get p) = .instr i rest → i.movesRing = false

theorem freshInit_of_unmoving {st : Status} {rdata : Half} (h : PutOn s t .S (finalWord st rdata))
    (hu : Unmoving s .S st) : freshInit s t = false := by
  have hw : newWords s.out.onS t.out.onS = [finalWord st rdata] := h.newWords_same
  unfold freshInit
  split
  · rename_i cap rest hd
    by_cases hst : st = .ok
    · have hb : s.busy .S ≠ false := fun hb => nomatch hu hst hb _ _ hd
      have hb : s.tick.isNone = false := by simpa [State.busy, Option.isSome_iff_ne_none] using hb
      simp [hb]
    · simp [hw, finalWord_ne_ok hst]
  · rfl

theorem acceptedBytes_of_unmoving {st : Status} {rdata : Half} (h : PutOn s t .P (finalWord st rdata))
    (hu : Unmoving s .P st) : acceptedBytes s t = [] := by
  have hw : newWords s.out.onP t.out.onP = [finalWord st rdata] := h.newWords_same
  unfold acceptedBytes
  split
  · rename_i b rest hd
    have hst : st ≠ .ok := fun hst => nomatch hu hst rfl _ _ hd
    simp [hw, finalWord_ne_ok hst]
  · rfl

theorem returnedBytes_of_unmoving {st : Status} {rdata : Half} (h : PutOn s t .C (finalWord st rdata))
    (hu : Unmoving s .C st) : returnedBytes s t = [] := by
  have hw : newWords s.out.onC t.out.onC = [finalWord st rdata] := h.newWords_same
  by_cases hst : st = .ok
  · have hr : s.readPresented = false := by
      unfold State.readPresented
      split
      · rename_i rest hd
        have hb : s.busy .C ≠ false := fun hb => nomatch hu hst hb _ _ hd
        simpa [State.busy, Option.isSome_iff_ne_none] using hb
      · rfl
    simp [returnedBytes, hw, readResponse_finalWord, hst, hr]
  · have hread : readResponse (finalWord st rdata) = some (.final st 0) := by simp [readResponse_finalWord, hst]
    cases st with
    | ok => exact absurd rfl hst
    | _ => simp [returnedBytes, hw, hread]

end Observers

/-- No reset and no fresh buffer between `s` and `t`; the observer counts the bytes `acc` accepted and `ret`
returned. -/
structure Observed (s t : State) (acc ret : List Byte) : Prop where
  resets : t.resets = s.resets
  noInit : freshInit s t = false
  accepted : acceptedBytes s t = acc
  returned : returnedBytes s t = ret

section Observed
variable {s t : State} {acc ret : List Byte}

theorem Observed.observe_eq (h : Observed s t acc ret) (g : Fifo) :
    g.observe s t = ⟨g.accepted ++ acc, g.returned ++ ret⟩ := by
  simp [Fifo.observe, h.resets, h.noInit, h.accepted, h.returned]

theorem Observed.of_silent (hn : t.resets = s.resets) (ho : t.out = s.out) : Observed s t [] [] where
  resets := hn
  noInit := freshInit_of_unchanged (ho ▸ rfl)
  accepted := acceptedBytes_of_unchanged (ho ▸ rfl)
  returned := returnedBytes_of_unchanged (ho ▸ rfl)

theorem Observed.of_unmoving {p : Port} {st : Status} {rdata : Half} (hn : t.resets = s.resets)
    (h : PutOn s t p (finalWord st rdata)) (hu : Unmoving s p st) : Observed s t [] [] where
  resets := hn
  noInit := by
    by_cases hp : p = .S
    · subst hp; exact freshInit_of_unmoving h hu
    · exact freshInit_of_unchanged (h.get_ne (Ne.symm hp))
  accepted := by
    by_cases hp : p = .P
    · subst hp; exact acceptedBytes_of_unmoving h hu
    · exact acceptedBytes_of_unchanged (h.get_ne (Ne.symm hp))
  returned := by
    by_cases hp : p = .C
    · subst hp; exact returnedBytes_of_unmoving h hu
    · exact returnedBytes_of_unchanged (h.get_ne (Ne.symm hp))

theorem Observed.of_write {b : Byte} {rest : List Word} (hn : t.resets = s.resets)
    (hd : decode (s.inp.get .P) = .instr (.rbWrite b) rest) (h : PutOn s t .P (finalWord .ok 0)) :
    Observed s t [b] [] where
  resets := hn
  noInit := freshInit_of_unchanged (h.get_ne nofun)
  accepted := acceptedBytes_of_ok hd h
  returned := returnedBytes_of_unchanged (h.get_ne nofun)

theorem Observed.of_returned {w : Word} (hn : t.resets = s.resets) (h : PutOn s t .C w)
    (hr : returnedBytes s t = ret) : Observed s t [] ret where
  resets := hn
  noInit := freshInit_of_unchanged (h.get_ne nofun)
  accepted := acceptedBytes_of_unchanged (h.get_ne nofun)
  returned := hr

end Observed

end Sys2Proof.Machine
end

section
/-! Once, what a step makes of the ring buffer, at whose turn, and what the observer counts then (`20_memory.md` R57,
R62). -/

namespace Sys2Proof.Machine

/-- What a step with event `e` makes of the ring buffer, with what the observer of the channels counts. -/
inductive RingStep (s t : State) : Option Event → Prop where
  | same {e : Option Event} (hrb : t.rb = s.rb) (ho : Observed s t [] []) : RingStep s t e
  | fresh (cap : Half) (hrb : t.rb = (s.withFresh cap).rb) (hn : t.resets = s.resets) (hi : freshInit s t = true) :
      RingStep s t (some (.turn .S))
  | store (b : Byte) (hf : s.rb.full = false) (hrb : t.rb = (s.withStored b).rb) (ho : Observed s t [b] []) :
      RingStep s t (some (.turn .P))
  | take (he : s.rb.empty = false) (hrb : t.rb = (s.withTail (advance s.rb.cap s.rb.tail)).rb)
      (ho : Observed s t [] [s.slot s.rb.tail.toNat]) : RingStep s t (some (.turn .C))
  | reset (hn : t.resets = s.resets + 1) (he : t.rb.head = t.rb.tail) : RingStep s t (some .reset)

variable {s t u : State}

/-- The observer reads neither the active port nor the schedule. -/
theorem RingStep.of_frame {e : Option Event} {active : Port} {schedule : List Event}
    (h : RingStep { s with active, schedule } t e) : RingStep s t e := by
  have observed {acc ret} (ho : Observed { s with active, schedule } t acc ret) : Observed s t acc ret :=
    ⟨ho.resets, ho.noInit, ho.accepted, ho.returned⟩
  cases h with
  | same hrb ho => exact .same hrb (observed ho)
  | fresh cap hrb hn hi => exact .fresh cap hrb hn hi
  | store b hf hrb ho => exact .store b hf hrb (observed ho)
  | take he hrb ho => exact .take he hrb (observed ho)
  | reset hn he => exact .reset hn he

theorem CommandEffect.resets_eq (h : CommandEffect s u) : u.resets = s.resets := by
  cases h <;> rfl

/-- A command puts no word, or one final response on its port. -/
theorem exec_out {i : Instr} (h : exec i s = .next t) :
    t.resets = s.resets ∧ (t.out = s.out ∨ ∃ st rdata, PutOn s t s.active (finalWord st rdata)) := by
  obtain rfl | ⟨u, hu, ha⟩ := exec_cases h
  · exact ⟨rfl, .inl rfl⟩
  · obtain ⟨hout, -⟩ := hu.channels_eq
    obtain rfl | ⟨st, rdata, rfl⟩ := ha
    · exact ⟨hu.resets_eq, .inl hout⟩
    · have hactive : u.active = s.active := by cases hu <;> rfl
      exact ⟨hu.resets_eq, .inr ⟨st, rdata, putOn_responded hactive hout st rdata⟩⟩

/-- Every command but RB_INIT, RB_WRITE and RB_READ leaves the ring buffer alone. -/
theorem exec_rb_of_not_movesRing {i : Instr} (hi : i.movesRing = false) (h : exec i s = .next t) : t.rb = s.rb := by
  cases i with
  | rbInit cap => cases hi
  | rbWrite b => cases hi
  | rbRead => cases hi
  | rbIsEmpty => obtain ⟨-, rfl⟩ | ⟨-, rfl⟩ := execRbIsEmpty_cases h <;> rfl
  | rbIsFull => obtain ⟨-, rfl⟩ | ⟨-, rfl⟩ := execRbIsFull_cases h <;> rfl
  | rbCount => obtain ⟨-, rfl⟩ | ⟨-, rfl⟩ := execRbCount_cases h <;> rfl
  | rbAvailable => obtain ⟨-, rfl⟩ | ⟨-, rfl⟩ := execRbAvailable_cases h <;> rfl
  | rbPeek => obtain ⟨-, rfl⟩ | ⟨-, -, rfl⟩ | ⟨-, -, -, rfl⟩ := execRbPeek_cases h <;> rfl
  | rbDrain maxLen => obtain ⟨-, rfl⟩ | ⟨-, rfl⟩ := execRbDrain_cases h <;> rfl
  | schRegister action name period =>
    obtain ⟨-, rfl⟩ | ⟨-, -, rfl⟩ | ⟨-, -, -, rfl⟩ | ⟨-, -, -, -, rfl⟩ | ⟨-, -, -, -, rfl⟩ :=
      execSchRegister_cases h <;> rfl
  | schTick cur => obtain ⟨-, rfl⟩ | ⟨-, rfl⟩ := execSchTick_cases h <;> rfl
  | tmrStart j start duration => obtain ⟨-, rfl⟩ | ⟨-, -, rfl⟩ | ⟨-, -, rfl⟩ := execTmrStart_cases h <;> rfl
  | tmrStop j => obtain ⟨-, rfl⟩ | ⟨-, -, rfl⟩ | ⟨-, -, rfl⟩ := execTmrStop_cases h <;> rfl
  | tmrExpired j tick => obtain ⟨-, rfl⟩ | ⟨-, -, rfl⟩ | ⟨-, -, rfl⟩ := execTmrExpired_cases h <;> rfl

/-- A refusal moves nothing, and the observer counts nothing. -/
theorem RingStep.of_refused {e : Option Event} {st : Status} {rdata : Half} (ht : t = s.responded st rdata)
    (hst : st ≠ .ok) : RingStep s t e := by
  subst ht
  exact .same rfl (.of_unmoving (p := s.active) rfl rfl fun h => absurd h hst)

theorem exec_ringStep {i : Instr} {rest : List Word} {p : Port} (hp : s.active = p)
    (hd : decode (s.inp.get p) = .instr i rest) (hb : s.busy p = false) (h : exec i s = .next t) :
    RingStep s t (some (.turn p)) := by
  by_cases hi : i.movesRing = false
  · have hrb := exec_rb_of_not_movesRing hi h
    obtain ⟨hn, ho | ⟨st, rdata, ho⟩⟩ := exec_out h
    · exact .same hrb (.of_silent hn ho)
    · refine .same hrb (.of_unmoving hn (hp ▸ ho) fun _ _ j _ hj => ?_)
      obtain ⟨rfl, -⟩ := Decoded.instr.inj (hd.symm.trans hj)
      exact hi
  cases i with
  | rbInit cap =>
    obtain ⟨-, ht⟩ | ⟨-, -, rfl⟩ | ⟨-, -, -, ht⟩ | ⟨hS, -, -, -, rfl⟩ := execRbInit_cases h
    · exact .of_refused ht nofun
    · exact .same rfl (.of_silent rfl rfl)
    · exact .of_refused ht nofun
    · obtain rfl : p = .S := hp.symm.trans hS
      have ho := putOn_responded (s := s) (u := s.withFresh cap) hp rfl .ok 0
      exact .fresh cap rfl rfl (freshInit_of_ok hd hb ho)
  | rbWrite b =>
    obtain ⟨-, ht⟩ | ⟨-, -, ht⟩ | ⟨hP, hf, -, rfl⟩ := execRbWrite_cases h
    · exact .of_refused ht nofun
    · exact .of_refused ht nofun
    · obtain rfl : p = .P := hp.symm.trans hP
      have ho := putOn_responded (s := s) (u := s.withStored b) hp rfl .ok 0
      exact .store b hf rfl (.of_write rfl hd ho)
  | rbRead =>
    obtain ⟨-, ht⟩ | ⟨-, -, ht⟩ | ⟨hC, he, -, rfl⟩ := execRbRead_cases h
    · exact .of_refused ht nofun
    · exact .of_refused ht nofun
    · obtain rfl : p = .C := hp.symm.trans hC
      have ho := putOn_responded (s := s) (u := s.withTail (advance s.rb.cap s.rb.tail)) hp rfl .ok
        (zextByte (s.slot s.rb.tail.toNat))
      exact .take he rfl (.of_returned rfl ho (returnedBytes_of_read hd hb ho))
  | _ => exact absurd rfl hi

theorem takeStep_ringStep {p : Port} (hb : s.busy p = false) (h : takeStep p s = .next t) :
    RingStep s t (some (.turn p)) := by
  obtain ⟨-, rfl⟩ | ⟨why, rest, -, rfl⟩ | ⟨i, rest, hd, h⟩ := takeStep_cases h
  · exact .same rfl (.of_silent rfl rfl)
  · exact .of_frame (.of_refused (s := s.withActive p) rfl nofun)
  · exact .of_frame (exec_ringStep (s := s.withActive p) rfl hd (by cases p <;> exact hb) h)

theorem drainStep_ringStep {d : Draining} (hd : s.drain = some d) (h : drainStep d s = .next t) :
    RingStep s t (some (.turn .C)) := by
  obtain ⟨-, he, -, rfl⟩ | ⟨-, rfl⟩ := drainStep_cases h
  · exact .take he rfl (.of_returned rfl rfl (returnedBytes_of_data rfl))
  · exact .same rfl (.of_unmoving (p := .C) (st := .ok) rfl rfl fun _ hb => by simp [State.busy, hd] at hb)

theorem tickStep_ringStep {x : Ticking} (hx : s.tick = some x) (h : tickStep x s = .next t) :
    RingStep s t (some (.turn .S)) := by
  obtain ⟨-, -, rfl⟩ | ⟨-, -, rfl⟩ | ⟨-, rfl⟩ | ⟨-, rfl⟩ := tickStep_cases h
  · exact .same rfl (.of_silent rfl rfl)
  · exact .same rfl (.of_silent rfl rfl)
  · exact .same rfl (.of_unmoving (p := .S) (st := .ok) rfl rfl fun _ hb => by simp [State.busy, hx] at hb)
  · exact .same rfl (.of_silent rfl rfl)

theorem agentStep_ringStep {p : Port} (h : agentStep p s = .next t) : RingStep s t (some (.turn p)) := by
  obtain ⟨rfl, d, hd, h⟩ | ⟨-, x, -, -, rfl⟩ | ⟨rfl, x, hx, -, h⟩ | ⟨hb, h⟩ := agentStep_cases h
  · exact drainStep_ringStep hd h
  · exact .same rfl (.of_silent rfl rfl)
  · exact tickStep_ringStep hx h
  · exact takeStep_ringStep hb h

theorem runEvent_ringStep {e : Event} (h : runEvent e s = .next t) : RingStep s t (some e) := by
  obtain ⟨p, w, -, -, rfl⟩ | ⟨_, _, -, -, rfl⟩ | ⟨p, rfl, h⟩ | ⟨-, h⟩ | ⟨rfl, rfl⟩ := runEvent_cases h
  · exact .same rfl (.of_silent rfl rfl)
  · exact .same rfl (.of_silent rfl rfl)
  · exact agentStep_ringStep h
  · obtain ⟨x, -, -, rfl⟩ | ⟨-, rfl⟩ := ackStep_cases h <;> exact .same rfl (.of_silent rfl rfl)
  · exact .reset rfl rfl

theorem step_ringStep (h : step s = .next t) : RingStep s t s.nextEvent := by
  obtain ⟨-, rfl⟩ | ⟨e, he, h⟩ := step_cases h
  · exact .same rfl (.of_silent rfl rfl)
  · rw [he]
    exact .of_frame (runEvent_ringStep h)

end Sys2Proof.Machine
end

section
/-! The FIFO law (`20_memory.md` R62), from what a step makes of the ring buffer. -/

namespace Sys2Proof.Machine

/-- A write adds its byte to the accepted and to the buffered bytes, a read moves the oldest buffered byte to the
returned ones, a reset or a fresh buffer empties all three, and no other step touches them. -/
theorem RingStep.keepsFifoLaw {s t : State} {e : Option Event} (h : RingStep s t e) (hinv : s.Inv) {g : Fifo}
    (hg : g.accepted = g.returned ++ s.contents) :
    (g.observe s t).accepted = (g.observe s t).returned ++ t.contents := by
  cases h with
  | same hrb ho =>
    rw [ho.observe_eq, contents_congr hrb ho.resets]
    simpa using hg
  | fresh cap hrb hn hi =>
    have hempty : t.rb.head = t.rb.tail := by rw [hrb]; rfl
    simp [Fifo.observe, hi, contents_eq_nil hempty]
  | store b hf hrb ho =>
    have hc : t.contents = s.contents ++ [b] :=
      (contents_congr (s := s.withStored b) hrb ho.resets).trans (contents_withStored hinv hf b)
    rw [ho.observe_eq, hc, hg]
    simp
  | take he hrb ho =>
    have hc : s.contents = s.slot s.rb.tail.toNat :: t.contents := by
      rw [contents_eq_cons hinv he, ← contents_congr (t := t) hrb ho.resets]
    rw [ho.observe_eq, hg, hc]
    simp
  | reset hn he => simp [Fifo.observe, hn, contents_eq_nil he]

/-- Settles O52. -/
theorem stepKeepsFifoLaw : Obligations.StepKeepsFifoLaw := fun _ _ _ hinv h hg => (step_ringStep h).keepsFifoLaw hinv hg

theorem Watched.reachable {s : State} {g : Fifo} (h : Watched s g) : Reachable s := by
  induction h with
  | start c es hc => exact .start c es hc
  | next s t g _ e ih => exact .next s t ih e

/-- Settles O51, by induction on the run: the buffer is empty after reset, and each step keeps the law. -/
theorem fifoOrderInEveryRun : Obligations.FifoOrderInEveryRun := by
  intro s g h
  have law : g.accepted = g.returned ++ s.contents := by
    induction h with
    | start c es hc => exact (contents_eq_nil rfl).symm
    | next s t g hw e ih => exact stepKeepsFifoLaw s t g hw.reachable.inv e ih
  exact ⟨⟨s.contents, law.symm⟩, law⟩

end Sys2Proof.Machine
end

section
/-! Who writes what (`20_memory.md` R57): the parameters never, the registry and the phase at turns of S, the timers at
turns of T; the ring buffer as `RingStep` says. -/

namespace Sys2Proof.Machine

/-- Between `s` and `t`, with event `e`, the parameters stay, the scheduler unit changes only at a turn of S, the
timers only at a turn of T, and either at a reset. -/
structure WrittenByOwner (s t : State) (e : Option Event) : Prop where
  par : t.par = s.par
  sch : t.sch = s.sch ∨ e = some (.turn .S) ∨ e = some .reset
  timers : t.timers = s.timers ∨ e = some (.turn .T) ∨ e = some .reset

variable {s t u : State}

theorem WrittenByOwner.of_eq {e : Option Event} (hp : t.par = s.par) (hs : t.sch = s.sch) (ht : t.timers = s.timers) :
    WrittenByOwner s t e := ⟨hp, .inl hs, .inl ht⟩

theorem CommandEffect.writtenByOwner (h : CommandEffect s u) : WrittenByOwner s u (some (.turn s.active)) := by
  cases h with
  | same => exact .of_eq rfl rfl rfl
  | fresh cap => exact .of_eq rfl rfl rfl
  | store b => exact .of_eq rfl rfl rfl
  | take => exact .of_eq rfl rfl rfl
  | drain maxLen => exact .of_eq rfl rfl rfl
  | register x hp => exact ⟨rfl, .inr (.inl (hp ▸ rfl)), .inl rfl⟩
  | pass cur hp => exact ⟨rfl, .inr (.inl (hp ▸ rfl)), .inl rfl⟩
  | timer j x hp => exact ⟨rfl, .inl rfl, .inr (.inl (hp ▸ rfl))⟩

theorem exec_writtenByOwner {i : Instr} (h : exec i s = .next t) : WrittenByOwner s t (some (.turn s.active)) := by
  obtain rfl | ⟨u, hu, ha⟩ := exec_cases h
  · exact .of_eq rfl rfl rfl
  · obtain ⟨hp, hs, ht⟩ := hu.writtenByOwner
    obtain rfl | ⟨st, rdata, rfl⟩ := ha <;> exact ⟨hp, hs, ht⟩

theorem takeStep_writtenByOwner {p : Port} (h : takeStep p s = .next t) : WrittenByOwner s t (some (.turn p)) := by
  obtain ⟨-, rfl⟩ | ⟨_, _, -, rfl⟩ | ⟨i, rest, -, h⟩ := takeStep_cases h
  · exact .of_eq rfl rfl rfl
  · exact .of_eq rfl rfl rfl
  · obtain ⟨hp, hs, ht⟩ := exec_writtenByOwner h
    exact ⟨hp, hs, ht⟩

theorem tickStep_writtenByOwner {x : Ticking} (h : tickStep x s = .next t) :
    WrittenByOwner s t (some (.turn .S)) := by
  obtain ⟨-, -, rfl⟩ | ⟨-, -, rfl⟩ | ⟨-, rfl⟩ | ⟨-, rfl⟩ := tickStep_cases h <;>
    exact ⟨rfl, .inr (.inl rfl), .inl rfl⟩

theorem agentStep_writtenByOwner {p : Port} (h : agentStep p s = .next t) : WrittenByOwner s t (some (.turn p)) := by
  obtain ⟨-, d, -, h⟩ | ⟨-, x, -, -, rfl⟩ | ⟨rfl, x, -, -, h⟩ | ⟨-, h⟩ := agentStep_cases h
  · obtain ⟨-, -, -, rfl⟩ | ⟨-, rfl⟩ := drainStep_cases h <;> exact .of_eq rfl rfl rfl
  · exact .of_eq rfl rfl rfl
  · exact tickStep_writtenByOwner h
  · exact takeStep_writtenByOwner h

theorem runEvent_writtenByOwner {e : Event} (h : runEvent e s = .next t) : WrittenByOwner s t (some e) := by
  obtain ⟨p, w, -, -, rfl⟩ | ⟨_, _, -, -, rfl⟩ | ⟨p, rfl, h⟩ | ⟨-, h⟩ | ⟨rfl, rfl⟩ := runEvent_cases h
  · exact .of_eq rfl rfl rfl
  · exact .of_eq rfl rfl rfl
  · exact agentStep_writtenByOwner h
  · obtain ⟨x, -, -, rfl⟩ | ⟨-, rfl⟩ := ackStep_cases h <;> exact .of_eq rfl rfl rfl
  · exact ⟨rfl, .inr (.inr rfl), .inr (.inr rfl)⟩

theorem step_writtenByOwner (h : step s = .next t) : WrittenByOwner s t s.nextEvent := by
  obtain ⟨-, rfl⟩ | ⟨e, he, h⟩ := step_cases h
  · exact .of_eq rfl rfl rfl
  · rw [he]
    obtain ⟨hp, hs, ht⟩ := runEvent_writtenByOwner h
    exact ⟨hp, hs, ht⟩

/-- The ring buffer's part of the single-writer discipline. -/
def RingWrittenByOwner (s t : State) (e : Option Event) : Prop :=
  (t.rb.head ≠ s.rb.head → e = some (.turn .P) ∨ (e = some (.turn .S) ∧ freshInit s t = true)) ∧
  (t.rb.tail ≠ s.rb.tail → e = some (.turn .C) ∨ (e = some (.turn .S) ∧ freshInit s t = true)) ∧
  (t.rb.cap ≠ s.rb.cap → e = some (.turn .S) ∧ freshInit s t = true) ∧
  (∀ k, t.slot k ≠ s.slot k → e = some (.turn .P) ∧ k = s.rb.head.toNat)

theorem RingStep.writtenByOwner {e : Option Event} (h : RingStep s t e) (hr : e ≠ some .reset) :
    RingWrittenByOwner s t e := by
  cases h with
  | same hrb ho =>
    have hslot := State.slot_congr (congrArg RingBuffer.storage hrb) ho.resets
    exact ⟨fun hne => absurd (by rw [hrb]) hne, fun hne => absurd (by rw [hrb]) hne,
      fun hne => absurd (by rw [hrb]) hne, fun k hne => absurd (hslot k) hne⟩
  | fresh cap hrb hn hi =>
    have hslot := State.slot_congr (s := s) (t := t) (by rw [hrb]; rfl) hn
    exact ⟨fun _ => .inr ⟨rfl, hi⟩, fun _ => .inr ⟨rfl, hi⟩, fun _ => ⟨rfl, hi⟩, fun k hne => absurd (hslot k) hne⟩
  | store b hf hrb ho =>
    have hslot (k : Nat) : t.slot k = if k = s.rb.head.toNat then b else s.slot k :=
      (State.slot_congr (s := s.withStored b) (by rw [hrb]) ho.resets k).trans (slot_withStored s b k)
    refine ⟨fun _ => .inl rfl, fun hne => absurd (by rw [hrb]; rfl) hne, fun hne => absurd (by rw [hrb]; rfl) hne,
      fun k hne => ⟨rfl, ?_⟩⟩
    by_contra hk
    exact hne (by rw [hslot, if_neg hk])
  | take he hrb ho =>
    have hslot := State.slot_congr (s := s) (t := t) (by rw [hrb]; rfl) ho.resets
    exact ⟨fun hne => absurd (by rw [hrb]; rfl) hne, fun _ => .inl rfl, fun hne => absurd (by rw [hrb]; rfl) hne,
      fun k hne => absurd (hslot k) hne⟩
  | reset => exact absurd rfl hr

/-- Settles O42. -/
theorem singleWriterDiscipline : Obligations.SingleWriterDiscipline := by
  intro s t h
  obtain ⟨hpar, hsch, htimers⟩ := step_writtenByOwner h
  refine ⟨hpar, fun hr => ?_⟩
  obtain ⟨hhead, htail, hcap, hslot⟩ := (step_ringStep h).writtenByOwner hr
  exact ⟨hhead, htail, hcap, fun hne => (hsch.resolve_left hne).resolve_right hr,
    fun hne => (htimers.resolve_left hne).resolve_right hr, hslot⟩

end Sys2Proof.Machine
end

section
/-! The commands and their words (`30_encoding.md` R63 to R68, R83): the fields a reserved-zero mask leaves, decoding
after encoding, and encoding after decoding. -/

namespace Sys2Proof.Laws

open Sys2Proof.Machine

variable {m : Mnemonic} {h : Word} {ops rest : List Word}

/-- A conjunction of headers is taken field by field. -/
theorem header_and_header (opc idx opc' idx' : Index) (imm imm' : Half) :
    header opc idx imm &&& header opc' idx' imm' = header (opc &&& opc') (idx &&& idx') (imm &&& imm') := by
  apply BitVec.eq_of_getLsbD_eq
  intro i hi
  simp only [header]
  interval_cases i <;> simp

theorem header_eq_zero_iff {opc idx : Index} {imm : Half} :
    header opc idx imm = 0 ↔ opc = 0 ∧ idx = 0 ∧ imm = 0 := by
  constructor
  · intro e
    have ho := opcField_header opc idx imm
    have hi := idxField_header opc idx imm
    have hm := immField_header opc idx imm
    rw [e] at ho hi hm
    exact ⟨ho.symm, hi.symm, hm.symm⟩
  · rintro ⟨rfl, rfl, rfl⟩
    rfl

/-- The bits a mask over IDX and IMM finds in a header, field by field. -/
theorem header_and_mask_eq_zero_iff (opc idx idxMask : Index) (imm immMask : Half) :
    header opc idx imm &&& header 0 idxMask immMask = 0 ↔ idx &&& idxMask = 0 ∧ imm &&& immMask = 0 := by
  rw [header_and_header, header_eq_zero_iff]
  simp

theorem and_whole_idx (idx : Index) : idx &&& 0xFF = idx := BitVec.and_allOnes

theorem and_whole_imm (imm : Half) : imm &&& 0xFFFF = imm := BitVec.and_allOnes

/-! The header's fields when no bit of a mask of `30_encoding.md` R67 is set. -/

section Masks
variable (opc idx : Index) (imm : Half)

theorem and_idxMask_eq_zero_iff : header opc idx imm &&& 0x00FF0000 = 0 ↔ idx = 0 := by
  refine (header_and_mask_eq_zero_iff opc idx 0xFF imm 0).trans ?_
  rw [and_whole_idx]
  simp

theorem and_immMask_eq_zero_iff : header opc idx imm &&& 0x0000FFFF = 0 ↔ imm = 0 := by
  refine (header_and_mask_eq_zero_iff opc idx 0 imm 0xFFFF).trans ?_
  rw [and_whole_imm]
  simp

theorem and_bothMask_eq_zero_iff : header opc idx imm &&& 0x00FFFFFF = 0 ↔ idx = 0 ∧ imm = 0 := by
  refine (header_and_mask_eq_zero_iff opc idx 0xFF imm 0xFFFF).trans ?_
  rw [and_whole_idx, and_whole_imm]

theorem and_byteMask_eq_zero_iff : header opc idx imm &&& 0x00FFFF00 = 0 ↔ idx = 0 ∧ imm &&& 0xFF00 = 0 := by
  refine (header_and_mask_eq_zero_iff opc idx 0xFF imm 0xFF00).trans ?_
  rw [and_whole_idx]

end Masks

/-- The low byte of IMM, extended again, is IMM with its high byte masked off (`30_encoding.md` R68). -/
theorem zextByte_byteField (h : Word) : zextByte (byteField h) = immField h &&& 0xFF := by
  apply BitVec.eq_of_getLsbD_eq
  intro i hi
  simp only [zextByte, byteField]
  interval_cases i <;> simp

theorem imm_eq_low_byte {imm : Half} (hz : imm &&& 0xFF00 = 0) : imm &&& 0xFF = imm := by
  calc imm &&& 0xFF = imm &&& 0xFF ||| imm &&& 0xFF00 := by rw [hz]; exact BitVec.or_zero.symm
    _ = imm &&& 0xFFFF := BitVec.and_or_distrib_left.symm
    _ = imm := and_whole_imm imm

/-- Every command's words are those of its row of the opcode map. -/
theorem encodedRow (i : Instr) : EncodedRow.Statement i := by
  cases i with
  | rbInit cap => exact EncodedRow.rbInit cap
  | rbIsEmpty => exact EncodedRow.rbIsEmpty
  | rbIsFull => exact EncodedRow.rbIsFull
  | rbCount => exact EncodedRow.rbCount
  | rbAvailable => exact EncodedRow.rbAvailable
  | rbWrite b => exact EncodedRow.rbWrite b
  | rbRead => exact EncodedRow.rbRead
  | rbPeek => exact EncodedRow.rbPeek
  | rbDrain maxLen => exact EncodedRow.rbDrain maxLen
  | schRegister action name period => exact EncodedRow.schRegister action name period
  | schTick cur => exact EncodedRow.schTick cur
  | tmrStart j start duration => exact EncodedRow.tmrStart j start duration
  | tmrStop j => exact EncodedRow.tmrStop j
  | tmrExpired j tick => exact EncodedRow.tmrExpired j tick

/-- A command's words are a header with its row's opcode and no reserved bit, then the row's number of operand
words, from which the decoder assembles the command. -/
theorem encode_eq_cons (i : Instr) : ∃ h ops, encode i = h :: ops ∧ opcField h = i.mnemonic.opc ∧
    h &&& i.mnemonic.rz = 0 ∧ ops.length + 1 = i.mnemonic.len ∧
    assembleOperands i.mnemonic h (ops.getD 0 0) (ops.getD 1 0) = i := by
  obtain ⟨hlen, hopc, hrz, hasm⟩ := encodedRow i
  cases hw : encode i with
  | nil => cases i <;> cases hw
  | cons h ops =>
    rw [hw] at hlen hopc hrz hasm
    exact ⟨h, ops, rfl, hopc, hrz, hlen, hasm⟩

/-- Operand assembly reads the command's own operand words only. -/
theorem assembleOperands_append (hlen : ops.length + 1 = m.len) :
    assembleOperands m h ((ops ++ rest).getD 0 0) ((ops ++ rest).getD 1 0) =
      assembleOperands m h (ops.getD 0 0) (ops.getD 1 0) := by
  have hfirst (hl : 0 < ops.length) : (ops ++ rest).getD 0 0 = ops.getD 0 0 := List.getD_append _ _ _ _ hl
  have hsecond (hl : 1 < ops.length) : (ops ++ rest).getD 1 0 = ops.getD 1 0 := List.getD_append _ _ _ _ hl
  cases m with
  | SCH_REGISTER | SCH_TICK | TMR_EXPIRED =>
    have hl : ops.length + 1 = 2 := hlen
    simp only [assembleOperands, hfirst (by omega)]
  | TMR_START =>
    have hl : ops.length + 1 = 3 := hlen
    simp only [assembleOperands, hfirst (by omega), hsecond (by omega)]
  | _ => rfl

/-- The decoder on a header with a defined opcode and all its operand words (`30_encoding.md` R76, R80). -/
theorem decode_whole (hopc : opcField h = m.opc) (hlen : ops.length + 1 = m.len) :
    decode (h :: (ops ++ rest)) =
      if h &&& m.rz = 0 then .instr (assembleOperands m h (ops.getD 0 0) (ops.getD 1 0)) rest
      else .illegal .reservedBits rest := by
  have hwhole : ¬ (ops ++ rest).length < m.len - 1 := by rw [List.length_append]; omega
  have hrest : (ops ++ rest).drop (m.len - 1) = rest := by rw [← hlen]; exact List.drop_left
  simp only [decode, hopc, ofOpc_opc, if_neg hwhole, hrest, assembleOperands_append hlen]

/-- Decoding a command's words gives the command back, and leaves the words after it (`30_encoding.md` R83). -/
theorem decode_encode_append (i : Instr) (rest : List Word) : decode (encode i ++ rest) = .instr i rest := by
  obtain ⟨h, ops, hw, hopc, hrz, hlen, hasm⟩ := encode_eq_cons i
  rw [hw, List.cons_append, decode_whole hopc hlen, if_pos hrz, hasm]

/-- What the decoder read a command from: its header and its operand words. -/
theorem decode_instr_cases {ws : List Word} {i : Instr} (hd : decode ws = .instr i rest) :
    ∃ h ops, ws = h :: (ops ++ rest) ∧ opcField h = i.mnemonic.opc ∧ h &&& i.mnemonic.rz = 0 ∧
      ops.length + 1 = i.mnemonic.len ∧ i = assembleOperands i.mnemonic h (ops.getD 0 0) (ops.getD 1 0) := by
  obtain ⟨h, vs, rfl, hm, hrz, hvs⟩ := decode_instr_mnemonic hd
  have hopc : opcField h = i.mnemonic.opc := (opc_of_ofOpc hm).symm
  have hpos : 1 ≤ i.mnemonic.len := by cases i.mnemonic <;> decide
  have hlen : (vs.take (i.mnemonic.len - 1)).length + 1 = i.mnemonic.len := by rw [List.length_take]; omega
  have hdrop : vs.drop (i.mnemonic.len - 1) = rest := by
    simpa [dropCommand, commandLen_of_ofOpc hm] using decode_instr_rest hd
  have hvs : vs = vs.take (i.mnemonic.len - 1) ++ rest := by rw [← hdrop, List.take_append_drop]
  refine ⟨h, vs.take (i.mnemonic.len - 1), congrArg (h :: ·) hvs, hopc, hrz, hlen, ?_⟩
  rw [hvs, decode_whole hopc hlen, if_pos hrz] at hd
  exact (Decoded.instr.inj hd).1.symm

/-- Encoding the command that a whole row of words assembles to gives the words back (`30_encoding.md` R83). -/
theorem encode_assembleOperands (hopc : opcField h = m.opc) (hrz : h &&& m.rz = 0) (hlen : ops.length + 1 = m.len) :
    encode (assembleOperands m h (ops.getD 0 0) (ops.getD 1 0)) = h :: ops := by
  obtain ⟨idx, imm, rfl⟩ : ∃ idx imm, h = header m.opc idx imm := ⟨_, _, hopc ▸ (header_fields h).symm⟩
  cases m with
  | RB_INIT | RB_DRAIN =>
    obtain rfl := (and_idxMask_eq_zero_iff _ _ _).mp hrz
    obtain rfl : ops = [] := List.length_eq_zero_iff.mp (Nat.succ.inj hlen)
    simp [assembleOperands, encode, Mnemonic.opc]
  | RB_IS_EMPTY | RB_IS_FULL | RB_COUNT | RB_AVAILABLE | RB_READ | RB_PEEK =>
    obtain ⟨rfl, rfl⟩ := (and_bothMask_eq_zero_iff _ _ _).mp hrz
    obtain rfl : ops = [] := List.length_eq_zero_iff.mp (Nat.succ.inj hlen)
    rfl
  | RB_WRITE =>
    obtain ⟨rfl, himm⟩ := (and_byteMask_eq_zero_iff _ _ _).mp hrz
    obtain rfl : ops = [] := List.length_eq_zero_iff.mp (Nat.succ.inj hlen)
    simp only [assembleOperands, encode, zextByte_byteField, immField_header, imm_eq_low_byte himm]
    rfl
  | SCH_REGISTER =>
    obtain ⟨period, rfl⟩ := List.length_eq_one_iff.mp (Nat.succ.inj hlen)
    simp [assembleOperands, encode, Mnemonic.opc]
  | SCH_TICK =>
    obtain ⟨rfl, rfl⟩ := (and_bothMask_eq_zero_iff _ _ _).mp hrz
    obtain ⟨cur, rfl⟩ := List.length_eq_one_iff.mp (Nat.succ.inj hlen)
    rfl
  | TMR_START =>
    obtain rfl := (and_immMask_eq_zero_iff _ _ _).mp hrz
    obtain ⟨start, duration, rfl⟩ := List.length_eq_two.mp (Nat.succ.inj hlen)
    simp [assembleOperands, encode, Mnemonic.opc]
  | TMR_STOP =>
    obtain rfl := (and_immMask_eq_zero_iff _ _ _).mp hrz
    obtain rfl : ops = [] := List.length_eq_zero_iff.mp (Nat.succ.inj hlen)
    simp [assembleOperands, encode, Mnemonic.opc]
  | TMR_EXPIRED =>
    obtain rfl := (and_immMask_eq_zero_iff _ _ _).mp hrz
    obtain ⟨tick, rfl⟩ := List.length_eq_one_iff.mp (Nat.succ.inj hlen)
    simp [assembleOperands, encode, Mnemonic.opc]

/-- A stream that decodes to a command begins with that command's words (`30_encoding.md` R83). -/
theorem eq_encode_append_of_decode {ws : List Word} {i : Instr} (hd : decode ws = .instr i rest) :
    ws = encode i ++ rest := by
  obtain ⟨h, ops, rfl, hopc, hrz, hlen, hi⟩ := decode_instr_cases hd
  rw [hi, encode_assembleOperands hopc hrz hlen, List.cons_append]

/-- Settles O28: the two round trips, and the header of an encoding put together from its own fields. -/
theorem decodeEncodeAgree : Obligations.DecodeEncodeAgree := by
  refine ⟨fun i rest _ => decode_encode_append i rest, fun _ _ _ hd => eq_encode_append_of_decode hd, fun i => ?_⟩
  obtain ⟨h, ops, hw, hopc, -, hlen, -⟩ := encode_eq_cons i
  refine ⟨opcField h, idxField h, immField h, ops, ?_, hopc, hlen⟩
  rw [hw]
  exact congrArg (· :: ops) (header_fields h).symm

end Sys2Proof.Laws
end

section
/-! The opcode map and the final response word as numbers (`30_encoding.md` R66, R67, R69, R70, R82). -/

namespace Sys2Proof.Laws

open Sys2Proof.Machine

/-- The opcode of a header is its highest byte (`30_encoding.md` R63). -/
theorem opcField_toNat (h : Word) : (opcField h).toNat = h.toNat / 2 ^ 24 := by
  have hsum := header_toNat (opcField h) (idxField h) (immField h)
  rw [header_fields] at hsum
  have hidx := (idxField h).isLt
  have himm := (immField h).isLt
  omega

/-- The opcodes of the 14 rows, as numbers. -/
def definedOpcodes : List Nat := Mnemonic.table.map (fun m => m.opc.toNat)

/-- The undefined opcodes are those of no row (`30_encoding.md` R75). -/
theorem ofOpc_eq_none_iff {opc : Index} : ofOpc opc = none ↔ opc.toNat ∉ definedOpcodes := by
  simp [ofOpc, definedOpcodes, BitVec.toNat_inj]

/-- As many opcodes below 256 are undefined as the rows, all different, leave over. -/
theorem length_undefined_opcodes :
    ((List.range 256).filter fun k => (ofOpc (BitVec.ofNat 8 k)).isNone).length = 242 := by
  have hdefined : ((List.range 256).filter (· ∈ definedOpcodes)).Perm definedOpcodes := by
    refine (List.perm_ext_iff_of_nodup (List.nodup_range.filter _) (by decide)).mpr fun k => ?_
    have hlt : ∀ k ∈ definedOpcodes, k < 256 := by decide
    simpa using hlt k
  have hundefined : ∀ k ∈ List.range 256, (ofOpc (BitVec.ofNat 8 k)).isNone = !decide (k ∈ definedOpcodes) := by
    intro k hk
    have hk : (BitVec.ofNat 8 k).toNat = k := by simpa using Nat.mod_eq_of_lt (List.mem_range.mp hk)
    rw [Bool.eq_iff_iff, Option.isNone_iff_eq_none, ofOpc_eq_none_iff, hk]
    simp
  have hsplit := List.length_eq_length_filter_add (l := List.range 256) (· ∈ definedOpcodes)
  rw [← List.filter_congr hundefined, hdefined.length_eq, List.length_range] at hsplit
  exact Nat.add_left_cancel hsplit.symm

/-- A final response word as a number: STATUS in 31:24, RDATA in 15:0, and nothing between (`30_encoding.md` R69). -/
theorem finalWord_toNat (st : Status) (rdata : Half) :
    (finalWord st rdata).toNat = st.code.toNat * 2 ^ 24 + (if st = .ok then rdata.toNat else 0) := by
  rw [finalWord_eq_header, header_toNat]
  split <;> simp

/-- Settles O26: a final response word is a header with IDX 0. -/
theorem finalWordFields : Obligations.FinalWordFields := ⟨rfl, finalWord_toNat⟩

/-- Settles O27, by reading the map row by row. -/
theorem opcodeMapRows : Obligations.OpcodeMapRows := by
  unfold Obligations.OpcodeMapRows
  decide

/-- Settles O32: each row of words is the encoding of its command, with no word after it. -/
theorem referenceEncodingsDecode : Obligations.ReferenceEncodingsDecode :=
  ⟨decode_encode_append (.rbInit 8) [], decode_encode_append .rbIsEmpty [], decode_encode_append .rbIsFull [],
    decode_encode_append .rbCount [], decode_encode_append .rbAvailable [], decode_encode_append (.rbWrite 0x61) [],
    decode_encode_append .rbRead [], decode_encode_append .rbPeek [], decode_encode_append (.rbDrain 10) [],
    decode_encode_append (.schRegister 3 0x0101 10) [], decode_encode_append (.schTick 200) [],
    decode_encode_append (.tmrStart 0 0xFFFFFFF0 32) [], decode_encode_append (.tmrStop 1) [],
    decode_encode_append (.tmrExpired 0 0x10) []⟩

end Sys2Proof.Laws
end

section
/-! Commands that are refused before their body runs: ERR_ILLEGAL at the turn of an idle port, and ERR_PORT
(`30_encoding.md` R74 to R76, `60_exceptions.md` R132). -/

namespace Sys2Proof.Machine

open Sys2Proof.Laws

variable {s : State} {p : Port}

/-- The agent of an idle port takes a command (`60_exceptions.md` R141). -/
theorem agentStep_of_idle (hb : s.busy p = false) : agentStep p s = takeStep p s := by
  cases p with
  | P | T => rfl
  | C =>
    have hd : s.drain = none := by simpa [State.busy] using hb
    simp only [agentStep, hd]
  | S =>
    have ht : s.tick = none := by simpa [State.busy] using hb
    simp only [agentStep, ht]

theorem step_turn_of_idle {es : List Event} (hs : s.schedule = .turn p :: es) (hb : s.busy p = false) :
    step s = takeStep p (s.withSchedule es) := by
  have hidle : (s.withSchedule es).busy p = false := by cases p <;> exact hb
  rw [← agentStep_of_idle hidle, step_eq, State.nextEvent, hs]
  rfl

/-- An illegal command at the turn of an idle port: its words are taken, ERR_ILLEGAL is put on the port, and nothing
else changes (`30_encoding.md` R75, R76). -/
theorem step_illegal {es : List Event} {why : IllegalReason} {rest : List Word} (hs : s.schedule = .turn p :: es)
    (hb : s.busy p = false) (hd : decode (s.inp.get p) = .illegal why rest) :
    step s = .next { s with
      schedule := es
      active := p
      inp := s.inp.set p rest
      out := s.out.set p ⟨(s.out.get p).kept, (s.out.get p).sent ++ [0x07000000#32]⟩ } := by
  have htake : takeStep p (s.withSchedule es) = answer .errIllegal 0 ((s.withSchedule es).withActive p) := by
    rw [takeStep, State.withSchedule_inp, hd]
  rw [step_turn_of_idle hs hb, htake, answer_eq, State.responded, ← decode_illegal_rest hd]
  rfl

theorem decode_of_undefined {h : Word} (ws : List Word) (hopc : ofOpc (opcField h) = none) :
    decode (h :: ws) = .illegal .undefinedOpcode ws := by
  simp only [decode, hopc]

/-- Settles O29: the decoder names the opcode undefined, and an illegal command is answered so. -/
theorem undefinedOpcodesAreIllegal : Obligations.UndefinedOpcodesAreIllegal := by
  refine ⟨length_undefined_opcodes, fun s p es h ws hopc hs hb hi => ?_⟩
  have hnone : ofOpc (opcField h) = none := ofOpc_eq_none_iff.mpr (opcField_toNat h ▸ hopc)
  exact step_illegal hs hb (hi ▸ decode_of_undefined ws hnone)

/-- Settles O30: the decoder sees the reserved bit once the command is whole. -/
theorem reservedBitsAreIllegal : Obligations.ReservedBitsAreIllegal := by
  intro s p es m h ops rest hopc hrz hlen hs hb hi
  have hfield : opcField h = m.opc := BitVec.eq_of_toNat_eq ((opcField_toNat h).trans hopc)
  have hd : decode (s.inp.get p) = .illegal .reservedBits rest := by rw [hi, decode_whole hfield hlen, if_neg hrz]
  exact step_illegal hs hb hd

/-- The port check comes first in every command (`30_encoding.md` R74, `60_exceptions.md` R132). -/
theorem exec_of_wrongPort {i : Instr} (hp : s.active ∉ i.ports) : exec i s = .next (s.responded .errPort 0) := by
  cases i <;> exact onPort_refused hp

/-- Settles O31: each command's row names the ports the statement writes out. -/
theorem wrongPortAnswersErrPort : Obligations.WrongPortAnswersErrPort := by
  intro i s hp
  exact exec_of_wrongPort (i := i) (by cases i <;> exact hp)

end Sys2Proof.Machine
end

section
/-! The assembler's check of operands (`30_encoding.md` R86). -/

namespace Sys2Proof.Machine

theorem fitsLimits_iff {vs ls : List Nat} : fitsLimits vs ls = true ↔ List.Forall₂ (· ≤ ·) vs ls := by
  induction vs generalizing ls with
  | nil => cases ls <;> simp [fitsLimits]
  | cons v vs ih => cases ls <;> simp [fitsLimits, ih]

/-- An operand inside its field is held exactly. -/
theorem toNat_ofNat_of_le {w v limit : Nat} (hlimit : limit < 2 ^ w) (hv : v ≤ limit) :
    (BitVec.ofNat w v).toNat = v :=
  (BitVec.toNat_ofNat v w).trans (Nat.mod_eq_of_lt (hv.trans_lt hlimit))

/-- Operands inside their fields make a command of the mnemonic with exactly those operands. -/
theorem buildInstr_of_fits {m : Mnemonic} {ops : List Nat} (h : List.Forall₂ (· ≤ ·) ops m.limits) :
    ∃ i, buildInstr m ops = some i ∧ i.mnemonic = m ∧ i.operands = ops := by
  have index {v : Nat} (hv : v ≤ 0xFF) : (BitVec.ofNat 8 v).toNat = v := toNat_ofNat_of_le (by decide) hv
  have half {v : Nat} (hv : v ≤ 0xFFFF) : (BitVec.ofNat 16 v).toNat = v := toNat_ofNat_of_le (by decide) hv
  have word {v : Nat} (hv : v ≤ 0xFFFFFFFF) : (BitVec.ofNat 32 v).toNat = v := toNat_ofNat_of_le (by decide) hv
  cases m with
  | RB_IS_EMPTY | RB_IS_FULL | RB_COUNT | RB_AVAILABLE | RB_READ | RB_PEEK =>
    obtain rfl := List.forall₂_nil_right_iff.mp h
    exact ⟨_, rfl, rfl, rfl⟩
  | RB_INIT | RB_DRAIN =>
    obtain _ | ⟨ha, _ | _⟩ := h
    exact ⟨_, rfl, rfl, by simp only [Instr.operands, half ha]⟩
  | RB_WRITE | TMR_STOP =>
    obtain _ | ⟨ha, _ | _⟩ := h
    exact ⟨_, rfl, rfl, by simp only [Instr.operands, index ha]⟩
  | SCH_TICK =>
    obtain _ | ⟨ha, _ | _⟩ := h
    exact ⟨_, rfl, rfl, by simp only [Instr.operands, word ha]⟩
  | SCH_REGISTER =>
    obtain _ | ⟨ha, _ | ⟨hn, _ | ⟨hp, _ | _⟩⟩⟩ := h
    exact ⟨_, rfl, rfl, by simp only [Instr.operands, index ha, half hn, word hp]⟩
  | TMR_START =>
    obtain _ | ⟨hj, _ | ⟨hs, _ | ⟨hd, _ | _⟩⟩⟩ := h
    exact ⟨_, rfl, rfl, by simp only [Instr.operands, index hj, word hs, word hd]⟩
  | TMR_EXPIRED =>
    obtain _ | ⟨hj, _ | ⟨ht, _ | _⟩⟩ := h
    exact ⟨_, rfl, rfl, by simp only [Instr.operands, index hj, word ht]⟩

/-- Settles O33: the check is the componentwise bound, under which each operand is held exactly. -/
theorem assemblerNeverTruncates : Obligations.AssemblerNeverTruncates := by
  refine ⟨rfl, fun m ops => ⟨fun hfits => ?_, fun hfits => ?_⟩⟩
  · obtain ⟨i, hbuild, hm, hops⟩ := buildInstr_of_fits hfits
    refine ⟨i, ?_, hm, hops⟩
    rw [assembleCommand, if_pos (fitsLimits_iff.mpr hfits), hbuild]
  · rw [assembleCommand, if_neg (mt fitsLimits_iff.mp hfits)]

end Sys2Proof.Machine
end

section
/-! The ring's index advance and its number of live slots as arithmetic (`40_ringbuffer.md` R98 to R100): what full and
empty say of the count, and which slots are live. -/

namespace Sys2Proof.Machine

/-- The advance is the remainder even from an index past CAP. -/
theorem advance_toNat_of_pos {cap : Half} (h : 0 < cap.toNat) (x : Half) :
    (advance cap x).toNat = (x.toNat + 1) % cap.toNat := by
  have hlt := Nat.mod_lt (x.toNat + 1) h
  rw [advance, BitVec.toNat_ofNat, Nat.mod_eq_of_lt (hlt.trans cap.isLt)]

section Indices
variable {r : RingBuffer}

theorem RingBuffer.empty_iff : r.empty = true ↔ r.head = r.tail := by simp [RingBuffer.empty]

theorem RingBuffer.empty_eq_false_iff_ne : r.empty = false ↔ r.head ≠ r.tail := by simp [RingBuffer.empty]

/-- The test of `10_state.md` R27, written with numbers. -/
theorem RingBuffer.full_iff (hc : 0 < r.cap.toNat) :
    r.full = true ↔ (r.head.toNat + 1) % r.cap.toNat = r.tail.toNat := by
  rw [← advance_toNat_of_pos hc, RingBuffer.full, decide_eq_true_eq, BitVec.toNat_inj]

theorem RingBuffer.empty_iff_count (ht : r.tail.toNat < r.cap.toNat) : r.empty = true ↔ r.count = 0 := by
  rw [RingBuffer.empty_iff]
  constructor
  · exact RingBuffer.count_eq_zero
  · intro h
    by_contra hne
    exact (RingBuffer.count_pos ht (RingBuffer.empty_eq_false_iff_ne.mpr hne)).ne' h

/-- One slot always stays unused (`40_ringbuffer.md` R100). -/
theorem RingBuffer.full_iff_count (hh : r.head.toNat < r.cap.toNat) (ht : r.tail.toNat < r.cap.toNat) :
    r.full = true ↔ r.count = r.cap.toNat - 1 := by
  rw [RingBuffer.full, decide_eq_true_eq, ← BitVec.toNat_inj, advance_toNat_ite hh, RingBuffer.count]
  split_ifs <;> omega

/-- `count` is the mathematical remainder of `head - tail` (`40_ringbuffer.md` R99). -/
theorem RingBuffer.count_eq_emod (hh : r.head.toNat < r.cap.toNat) (ht : r.tail.toNat < r.cap.toNat) :
    (r.count : Int) = ((r.head.toNat : Int) - r.tail.toNat) % r.cap.toNat := by
  have hlt := RingBuffer.count_lt_cap hh (r := r)
  obtain hle | hgt := le_or_gt r.tail.toNat r.head.toNat
  · have hcount : (r.count : Int) = r.head.toNat - r.tail.toNat := by rw [RingBuffer.count, if_pos hle]; omega
    rw [← hcount, Int.emod_eq_of_lt (by omega) (by omega)]
  · have hcount : (r.count : Int) = r.head.toNat - r.tail.toNat + r.cap.toNat := by
      rw [RingBuffer.count, if_neg (by omega)]; omega
    rw [← Int.add_emod_right, ← hcount, Int.emod_eq_of_lt (by omega) (by omega)]

theorem RingBuffer.nodup_liveSlots (hh : r.head.toNat < r.cap.toNat) :
    ((List.range r.count).map r.liveSlot).Nodup := by
  have hlt := RingBuffer.count_lt_cap hh (r := r)
  refine List.Nodup.map_on (fun d hd e he h => ?_) List.nodup_range
  exact RingBuffer.liveSlot_inj ((List.mem_range.mp hd).trans hlt) ((List.mem_range.mp he).trans hlt) h

end Indices

theorem contents_length (s : State) : s.contents.length = s.rb.count := by simp [State.contents]

/-- Settles O45. -/
theorem advanceWrapsAtCap : Obligations.AdvanceWrapsAtCap := by
  intro cap x hx
  have hite := advance_toNat_ite hx
  refine ⟨advance_toNat hx, fun hlt => ?_, fun hlast => ?_⟩
  · rw [hite, if_neg hlt.ne]
  · exact BitVec.eq_of_toNat_eq (by rw [hite, if_pos hlast]; rfl)

/-- Settles O46. -/
theorem countIsNumberOfLiveSlots : Obligations.CountIsNumberOfLiveSlots := fun _ hh ht =>
  ⟨RingBuffer.count_eq_emod hh ht, RingBuffer.count_lt_cap hh, RingBuffer.nodup_liveSlots hh,
    RingBuffer.liveSlot_count hh ht⟩

end Sys2Proof.Machine
end

section
/-! The rules of the ring buffer commands (`40_ringbuffer.md` R87 to R95): each command's words, its ports, and for each
guard the state it answers. -/

namespace Sys2Proof.Machine

open Sys2Proof.Laws

variable {s : State} {i : Instr} {p : Port} {body : Result}

/-! ### The ports that take a ring command -/

theorem onPort_of_onlyPort (hi : i.ports = [p]) (hp : s.active = p) : onPort i s body = body :=
  onPort_taken (by rw [hi, hp]; exact List.mem_singleton_self p)

theorem exec_of_not_onlyPort (hi : i.ports = [p]) (hp : s.active ≠ p) : exec i s = .next (s.responded .errPort 0) :=
  exec_of_wrongPort (by rw [hi]; exact mt List.mem_singleton.mp hp)

/-- A query is taken on every port but T (`30_encoding.md` R66). -/
theorem mem_queryPorts_iff : p ∈ [Port.P, .C, .S] ↔ p ≠ .T := by cases p <;> decide

theorem onPort_of_query (hi : i.ports = [.P, .C, .S]) (hp : s.active ≠ .T) : onPort i s body = body :=
  onPort_taken (by rw [hi]; exact mem_queryPorts_iff.mpr hp)

theorem exec_query_of_T (hi : i.ports = [.P, .C, .S]) (hp : s.active = .T) :
    exec i s = .next (s.responded .errPort 0) :=
  exec_of_wrongPort (by rw [hi]; exact fun h => mem_queryPorts_iff.mp h hp)

/-! ### What each command answers on its port -/

theorem exec_rbInit_held {cap : Half} (hp : s.active = .S) (hd : s.drain ≠ none) : exec (.rbInit cap) s = .next s :=
  (onPort_of_onlyPort rfl hp).trans (if_pos (Option.isSome_iff_ne_none.mpr hd))

theorem exec_rbInit_of_idle {cap : Half} (hp : s.active = .S) (hd : s.drain = none) :
    exec (.rbInit cap) s = if cap.toNat < 2 ∨ s.par.depth < cap.toNat then .next (s.responded .errConfig 0)
      else .next ((s.withFresh cap).responded .ok 0) :=
  (onPort_of_onlyPort rfl hp).trans (if_neg (by simp [hd]))

theorem exec_rbWrite_full {b : Byte} (hp : s.active = .P) (hf : s.rb.full = true) :
    exec (.rbWrite b) s = .next (s.responded .full 0) :=
  (onPort_of_onlyPort rfl hp).trans (if_pos hf)

theorem exec_rbWrite_stored {b : Byte} (hp : s.active = .P) (hf : s.rb.full = false)
    (hk : s.rb.head.toNat < s.par.depth) : exec (.rbWrite b) s = .next ((s.withStored b).responded .ok 0) :=
  calc exec (.rbWrite b) s
      = memWrite s s.rb.head.toNat b fun s' => answer .ok 0 (s'.withHead (advance s.rb.cap s.rb.head)) :=
        (onPort_of_onlyPort rfl hp).trans (if_neg (by simp [hf]))
    _ = .next ((s.withStored b).responded .ok 0) := if_pos hk

theorem memRead_of_lt {k : Nat} (hk : k < s.par.depth) (go : Byte → Result) : memRead s k go = go (s.slot k) :=
  if_pos hk

theorem exec_rbRead_empty (hp : s.active = .C) (he : s.rb.empty = true) :
    exec .rbRead s = .next (s.responded .empty 0) :=
  (onPort_of_onlyPort rfl hp).trans (if_pos he)

theorem exec_rbRead_taken (hp : s.active = .C) (he : s.rb.empty = false) (hk : s.rb.tail.toNat < s.par.depth) :
    exec .rbRead s = .next ((s.withTail (advance s.rb.cap s.rb.tail)).responded .ok
      (zextByte (s.slot s.rb.tail.toNat))) :=
  calc exec .rbRead s
      = memRead s s.rb.tail.toNat fun v => answer .ok (zextByte v) (s.withTail (advance s.rb.cap s.rb.tail)) :=
        (onPort_of_onlyPort rfl hp).trans (if_neg (by simp [he]))
    _ = _ := memRead_of_lt hk _

theorem exec_rbPeek_empty (hp : s.active = .C) (he : s.rb.empty = true) :
    exec .rbPeek s = .next (s.responded .empty 0) :=
  (onPort_of_onlyPort rfl hp).trans (if_pos he)

theorem exec_rbPeek_seen (hp : s.active = .C) (he : s.rb.empty = false) (hk : s.rb.tail.toNat < s.par.depth) :
    exec .rbPeek s = .next (s.responded .ok (zextByte (s.slot s.rb.tail.toNat))) :=
  calc exec .rbPeek s
      = memRead s s.rb.tail.toNat fun v => answer .ok (zextByte v) s :=
        (onPort_of_onlyPort rfl hp).trans (if_neg (by simp [he]))
    _ = _ := memRead_of_lt hk _

/-! ### The words of the commands -/

theorem decode_encode (i : Instr) : decode (encode i) = .instr i [] := by
  simpa using decode_encode_append i []

theorem decode_header_of_encode {opc : Index} {imm : Half} (h : encode i = [header opc 0 imm]) :
    decode [BitVec.ofNat 32 (opc.toNat * 2 ^ 24 + imm.toNat)] = .instr i [] := by
  have hw : header opc 0 imm = BitVec.ofNat 32 (opc.toNat * 2 ^ 24 + imm.toNat) := by simp [header_eq_ofNat]
  rw [← hw, ← h, decode_encode]

theorem zextByte_toNat (b : Byte) : (zextByte b).toNat = b.toNat :=
  BitVec.toNat_setWidth_of_le (by decide)

/-- IMM[15:8] is bits 15:8 of the header (`30_encoding.md` R63). -/
theorem immField_high_byte (h : Word) : (immField h).toNat / 2 ^ 8 = h.toNat / 2 ^ 8 % 2 ^ 8 := by
  have hsum := header_toNat (opcField h) (idxField h) (immField h)
  rw [header_fields] at hsum
  have himm := (immField h).isLt
  omega

/-- An RB_WRITE header with a set bit of IMM[15:8] is illegal (`30_encoding.md` R67, R76). -/
theorem decode_rbWrite_reserved {h : Word} (hopc : h.toNat / 2 ^ 24 = 0x18) (hbits : h.toNat / 2 ^ 8 % 2 ^ 8 ≠ 0) :
    decode [h] = .illegal .reservedBits [] := by
  have hfield : opcField h = Mnemonic.RB_WRITE.opc := BitVec.eq_of_toNat_eq ((opcField_toNat h).trans hopc)
  have hrz : h &&& Mnemonic.RB_WRITE.rz ≠ 0 := by
    rw [← header_fields h]
    intro hz
    obtain ⟨-, himm⟩ := (and_byteMask_eq_zero_iff _ _ _).mp hz
    have hlow : (immField h).toNat = (byteField h).toNat := by
      rw [← zextByte_toNat, zextByte_byteField, imm_eq_low_byte himm]
    have hbyte := (byteField h).isLt
    have hhigh := immField_high_byte h
    omega
  exact (decode_whole (ops := []) (rest := []) hfield rfl).trans (if_neg hrz)

/-! ### The statements -/

/-- Settles O3. -/
theorem rbInitBuildsFreshBuffer : Obligations.RbInitBuildsFreshBuffer := by
  refine ⟨fun cap => decode_header_of_encode (opc := 0x10) rfl, fun cap s => ⟨exec_of_not_onlyPort rfl,
    exec_rbInit_held, fun hp hd hc => ?_, fun hp hd h2 hc => ?_⟩⟩
  · rw [exec_rbInit_of_idle hp hd, if_pos hc]
  · rw [exec_rbInit_of_idle hp hd, if_neg (by omega)]
    rfl

/-- Settles O4. -/
theorem rbIsEmptyAnswersHeadEqualsTail : Obligations.RbIsEmptyAnswersHeadEqualsTail := by
  refine ⟨decode_encode .rbIsEmpty, fun s => ⟨exec_query_of_T rfl, fun hp => ?_⟩⟩
  have hr : rdataBool s.rb.empty = if s.rb.head = s.rb.tail then 1 else 0 := by
    simp only [rdataBool, RingBuffer.empty_iff]
  exact hr ▸ onPort_of_query rfl hp

/-- Settles O5. -/
theorem rbIsFullAnswersOneSlotLeft : Obligations.RbIsFullAnswersOneSlotLeft := by
  refine ⟨decode_encode .rbIsFull, fun s hc => ⟨exec_query_of_T rfl, fun hp => ?_⟩⟩
  have hr : rdataBool s.rb.full =
      if (s.rb.head.toNat + 1) % s.rb.cap.toNat = s.rb.tail.toNat then 1 else 0 := by
    simp only [rdataBool, RingBuffer.full_iff (Nat.two_pos.trans_le hc)]
  exact hr ▸ onPort_of_query rfl hp

/-- Settles O6: the rule's formula is `RingBuffer.count`. -/
theorem rbCountAnswersBufferedBytes : Obligations.RbCountAnswersBufferedBytes := by
  refine ⟨decode_encode .rbCount, fun s hh ht => ⟨exec_query_of_T rfl, fun hp => ?_⟩⟩
  exact ⟨s.rb.count, onPort_of_query rfl hp, RingBuffer.count_lt_cap hh, rfl, RingBuffer.count_eq_emod hh ht,
    (contents_length s).symm⟩

/-- Settles O7. -/
theorem rbAvailableAnswersNotEmpty : Obligations.RbAvailableAnswersNotEmpty := by
  refine ⟨decode_encode .rbAvailable, fun s => ⟨exec_query_of_T rfl, fun hp => ?_⟩⟩
  have hr : rdataBool (!s.rb.empty) = if s.rb.head = s.rb.tail then 0 else 1 := by
    simp [rdataBool, RingBuffer.empty]
  exact hr ▸ onPort_of_query rfl hp

/-- Settles O8. -/
theorem rbWriteStoresAtHead : Obligations.RbWriteStoresAtHead := by
  refine ⟨fun b => ?_, fun h => decode_rbWrite_reserved, fun b s hc => ?_⟩
  · have hd := decode_header_of_encode (i := .rbWrite b) (opc := 0x18) rfl
    rwa [zextByte_toNat] at hd
  · have hpos := Nat.two_pos.trans_le hc
    have hfull := RingBuffer.full_iff hpos
    refine ⟨exec_of_not_onlyPort rfl, fun hp hf => exec_rbWrite_full hp (hfull.mpr hf), fun hp hf hk => ?_⟩
    have hf : s.rb.full = false := Bool.eq_false_iff.mpr (mt hfull.mp hf)
    exact ⟨_, exec_rbWrite_stored hp hf hk, (slot_withStored s b _).trans (if_pos rfl),
      fun k hne => (slot_withStored s b k).trans (if_neg hne), advance_toNat_of_pos hpos _, rfl, rfl, rfl⟩

/-- Settles O9. -/
theorem rbReadTakesByteAtTail : Obligations.RbReadTakesByteAtTail :=
  ⟨decode_encode .rbRead, fun _ => ⟨exec_of_not_onlyPort rfl,
    fun hp he => exec_rbRead_empty hp (RingBuffer.empty_iff.mpr he),
    fun hp he hk => exec_rbRead_taken hp (RingBuffer.empty_eq_false_iff_ne.mpr he) hk⟩⟩

/-- Settles O10. -/
theorem rbPeekLeavesTail : Obligations.RbPeekLeavesTail :=
  ⟨decode_encode .rbPeek, fun _ => ⟨exec_of_not_onlyPort rfl,
    fun hp he => exec_rbPeek_empty hp (RingBuffer.empty_iff.mpr he),
    fun hp he hk => exec_rbPeek_seen hp (RingBuffer.empty_eq_false_iff_ne.mpr he) hk⟩⟩

/-- Settles O11. -/
theorem rbDrainAcceptBeginsDrain : Obligations.RbDrainAcceptBeginsDrain :=
  ⟨fun _ => decode_header_of_encode (opc := 0x1B) rfl,
    fun _ _ => ⟨exec_of_not_onlyPort rfl, fun hp => onPort_of_onlyPort rfl hp⟩⟩

end Sys2Proof.Machine
end

section
/-! From a state with the invariant nothing stops the block (`60_exceptions.md` R129): the one fault is an access to a
slot at or above DEPTH, and `head` and `tail` stay below it. -/

namespace Sys2Proof.Machine

variable {s : State}

theorem onPort_next {i : Instr} {body : Result} (h : ∃ t, body = .next t) : ∃ t, onPort i s body = .next t := by
  unfold onPort
  split
  · exact h
  · exact ⟨_, rfl⟩

theorem onTimer_next {j : Index} {body : Result} (h : ∃ t, body = .next t) : ∃ t, onTimer j s body = .next t := by
  unfold onTimer
  split
  · exact ⟨_, rfl⟩
  · exact h

namespace State.Inv

theorem head_lt_depth (h : s.Inv) : s.rb.head.toNat < s.par.depth := h.head_lt_cap.trans_le h.cap_le_depth

theorem tail_lt_depth (h : s.Inv) : s.rb.tail.toNat < s.par.depth := h.tail_lt_cap.trans_le h.cap_le_depth

theorem exec_next (h : s.Inv) (i : Instr) : ∃ t, Machine.exec i s = .next t := by
  cases i with
  | rbInit cap => exact onPort_next (by split_ifs <;> exact ⟨_, rfl⟩)
  | rbIsEmpty | rbIsFull | rbCount | rbAvailable | rbDrain _ | schTick _ => exact onPort_next ⟨_, rfl⟩
  | rbWrite b =>
    refine onPort_next ?_
    split
    · exact ⟨_, rfl⟩
    · exact ⟨_, if_pos h.head_lt_depth⟩
  | rbRead | rbPeek =>
    refine onPort_next ?_
    split
    · exact ⟨_, rfl⟩
    · exact ⟨_, memRead_of_lt h.tail_lt_depth _⟩
  | schRegister action name period => exact onPort_next (by split_ifs <;> exact ⟨_, rfl⟩)
  | tmrStart _ _ _ | tmrStop _ | tmrExpired _ _ => exact onPort_next (onTimer_next ⟨_, rfl⟩)

theorem takeStep_next (h : s.Inv) (p : Port) : ∃ t, Machine.takeStep p s = .next t := by
  unfold Machine.takeStep
  split
  · exact ⟨_, rfl⟩
  · exact ⟨_, rfl⟩
  · exact (h.withActive p).exec_next _

theorem drainStep_next (h : s.Inv) (d : Draining) : ∃ t, Machine.drainStep d s = .next t := by
  unfold Machine.drainStep
  split
  · exact ⟨_, memRead_of_lt h.tail_lt_depth _⟩
  · exact ⟨_, rfl⟩

theorem agentStep_next (h : s.Inv) (p : Port) : ∃ t, Machine.agentStep p s = .next t := by
  cases p with
  | P => exact h.takeStep_next .P
  | C =>
    simp only [Machine.agentStep]
    split
    · exact h.drainStep_next _
    · exact h.takeStep_next .C
  | S =>
    simp only [Machine.agentStep, Machine.tickStep]
    split
    · split_ifs <;> exact ⟨_, rfl⟩
    · exact h.takeStep_next .S
  | T => exact h.takeStep_next .T

theorem runEvent_next (h : s.Inv) (e : Event) : ∃ t, Machine.runEvent e s = .next t := by
  cases e with
  | word p w =>
    simp only [Machine.runEvent, presentWord]
    split <;> exact ⟨_, rfl⟩
  | turn p => exact h.agentStep_next p
  | ack =>
    simp only [Machine.runEvent, Machine.ackStep]
    split
    · exact ⟨_, rfl⟩
    · split <;> exact ⟨_, rfl⟩
  | reset => exact ⟨_, rfl⟩

theorem step_next (h : s.Inv) : ∃ t, Machine.step s = .next t := by
  rw [step_eq]
  split
  · exact ⟨_, rfl⟩
  · exact (h.withSchedule _).runEvent_next _

end State.Inv

end Sys2Proof.Machine
end

section
/-! Runs: one step more, and what a step makes of the schedule: it takes its event off and leaves the rest. -/

namespace Sys2Proof.Machine

variable {s t u : State}

theorem run_succ (h : step s = .next t) (k : Nat) : core.run (k + 1) s = core.run k t := by
  have h : core.step s = .next t := h
  simp only [Host.Core.run, h]

theorem step_of_schedule {e : Event} {es : List Event} (hs : s.schedule = e :: es) :
    step s = runEvent e (s.withSchedule es) := by
  rw [step_eq, State.nextEvent, hs]
  rfl

theorem exec_schedule {i : Instr} (h : exec i s = .next t) : t.schedule = s.schedule := by
  obtain rfl | ⟨u, hu, ha⟩ := exec_cases h
  · rfl
  · have hu : u.schedule = s.schedule := by cases hu <;> rfl
    obtain rfl | ⟨st, rdata, rfl⟩ := ha <;> exact hu

theorem takeStep_schedule {p : Port} (h : takeStep p s = .next t) : t.schedule = s.schedule := by
  obtain ⟨-, rfl⟩ | ⟨_, _, -, rfl⟩ | ⟨i, _, -, h⟩ := takeStep_cases h
  · rfl
  · rfl
  · exact exec_schedule (s := s.withActive p) h

theorem agentStep_schedule {p : Port} (h : agentStep p s = .next t) : t.schedule = s.schedule := by
  obtain ⟨-, d, -, h⟩ | ⟨-, x, -, -, rfl⟩ | ⟨-, x, -, -, h⟩ | ⟨-, h⟩ := agentStep_cases h
  · obtain ⟨-, -, -, rfl⟩ | ⟨-, rfl⟩ := drainStep_cases h <;> rfl
  · rfl
  · obtain ⟨-, -, rfl⟩ | ⟨-, -, rfl⟩ | ⟨-, rfl⟩ | ⟨-, rfl⟩ := tickStep_cases h <;> rfl
  · exact takeStep_schedule h

/-- No event's step touches the events still to come. -/
theorem runEvent_schedule {e : Event} (h : runEvent e s = .next t) : t.schedule = s.schedule := by
  obtain ⟨p, w, -, -, rfl⟩ | ⟨_, _, -, -, rfl⟩ | ⟨p, -, h⟩ | ⟨-, h⟩ | ⟨-, rfl⟩ := runEvent_cases h
  · rfl
  · rfl
  · exact agentStep_schedule h
  · obtain ⟨x, -, -, rfl⟩ | ⟨-, rfl⟩ := ackStep_cases h <;> rfl
  · rfl

end Sys2Proof.Machine
end

section
/-! A drain in flight (`40_ringbuffer.md` R96, R97): its two steps, and that it ends once port C had `rem + 1` turns. -/

namespace Sys2Proof.Machine

open Sys2Proof.Laws

variable {s t u : State} {d : Draining}

theorem Draining.mayTake_iff {r : RingBuffer} : d.mayTake r = true ↔ d.rem ≠ 0 ∧ r.head ≠ r.tail := by
  simp [Draining.mayTake, RingBuffer.empty]

theorem drainStep_byte (hrem : d.rem ≠ 0) (hne : s.rb.head ≠ s.rb.tail) (hk : s.rb.tail.toNat < s.par.depth) :
    drainStep d s = .next (((s.withTail (advance s.rb.cap s.rb.tail)).emitData (s.slot s.rb.tail.toNat)).withDrain
      (some ⟨d.rem - 1, d.n + 1⟩)) := by
  rw [drainStep, if_pos (Draining.mayTake_iff.mpr ⟨hrem, hne⟩), memRead_of_lt hk]

theorem drainStep_end (h : d.rem = 0 ∨ s.rb.head = s.rb.tail) :
    drainStep d s = .next ((s.put .C (finalWord .ok d.n)).withDrain none) := by
  rw [drainStep, if_neg (by rw [Draining.mayTake_iff]; tauto)]

/-- At a turn of port C a drain in flight makes its next step. -/
theorem step_turn_of_drain {es : List Event} (hs : s.schedule = .turn .C :: es) (hd : s.drain = some d) :
    step s = drainStep d (s.withSchedule es) := by
  have hd : (s.withSchedule es).drain = some d := hd
  simp only [step_of_schedule hs, runEvent, agentStep, hd]

/-- The DATA beat as a number (`30_encoding.md` R71). -/
theorem dataWord_eq_ofNat (b : Byte) : dataWord b = BitVec.ofNat 32 (0x80 * 2 ^ 24 + b.toNat) := by
  rw [dataWord_eq_header, header_eq_ofNat, zextByte_toNat]
  rfl

/-- Settles O12. -/
theorem drainByteStepPutsBeat : Obligations.DrainByteStepPutsBeat := by
  intro s d es hs hd hrem hne hk
  rw [step_turn_of_drain hs hd, drainStep_byte (s := s.withSchedule es) hrem hne hk, ← dataWord_eq_ofNat]
  rfl

/-! ### Only port C moves a drain -/

/-- What an event makes of a drain in flight: a reset ends it, a turn of port C is one of its two steps, and any other
event leaves it. -/
def DrainMoved (d : Draining) (e : Event) (after : Option Draining) : Prop :=
  after = none ∨ (e ≠ .turn .C ∧ after = some d) ∨ (e = .turn .C ∧ d.rem ≠ 0 ∧ after = some ⟨d.rem - 1, d.n + 1⟩)

/-- Only RB_DRAIN on port C begins a drain. -/
theorem exec_drain_of_ne_C {i : Instr} (hp : s.active ≠ .C) (h : exec i s = .next t) : t.drain = s.drain := by
  obtain rfl | ⟨u, hu, ha⟩ := exec_cases h
  · rfl
  · have hu : u.drain = s.drain := by
      cases hu with
      | drain maxLen hC => exact absurd hC hp
      | _ => rfl
    obtain rfl | ⟨st, rdata, rfl⟩ := ha <;> exact hu

theorem takeStep_drain_of_ne_C {p : Port} (hp : p ≠ .C) (h : takeStep p s = .next t) : t.drain = s.drain := by
  obtain ⟨-, rfl⟩ | ⟨_, _, -, rfl⟩ | ⟨i, _, -, h⟩ := takeStep_cases h
  · rfl
  · rfl
  · exact exec_drain_of_ne_C (s := s.withActive p) hp h

theorem agentStep_drainMoved {p : Port} (hd : s.drain = some d) (h : agentStep p s = .next t) :
    DrainMoved d (.turn p) t.drain := by
  obtain ⟨rfl, d', hd', h⟩ | ⟨rfl, x, -, -, rfl⟩ | ⟨rfl, x, -, -, h⟩ | ⟨hb, h⟩ := agentStep_cases h
  · obtain rfl := Option.some.inj (hd.symm.trans hd')
    obtain ⟨hrem, -, -, rfl⟩ | ⟨-, rfl⟩ := drainStep_cases h
    · exact .inr (.inr ⟨rfl, hrem, rfl⟩)
    · exact .inl rfl
  · exact .inr (.inl ⟨nofun, hd⟩)
  · obtain ⟨-, -, rfl⟩ | ⟨-, -, rfl⟩ | ⟨-, rfl⟩ | ⟨-, rfl⟩ := tickStep_cases h <;> exact .inr (.inl ⟨nofun, hd⟩)
  · have hp : p ≠ .C := by
      rintro rfl
      simp [State.busy, hd] at hb
    exact .inr (.inl ⟨fun he => hp (Event.turn.inj he), (takeStep_drain_of_ne_C hp h).trans hd⟩)

theorem runEvent_drainMoved {e : Event} (hd : s.drain = some d) (h : runEvent e s = .next t) :
    DrainMoved d e t.drain := by
  obtain ⟨p, w, rfl, -, rfl⟩ | ⟨_, _, rfl, -, rfl⟩ | ⟨p, rfl, h⟩ | ⟨rfl, h⟩ | ⟨-, rfl⟩ := runEvent_cases h
  · exact .inr (.inl ⟨nofun, hd⟩)
  · exact .inr (.inl ⟨nofun, hd⟩)
  · exact agentStep_drainMoved hd h
  · obtain ⟨x, -, -, rfl⟩ | ⟨-, rfl⟩ := ackStep_cases h <;> exact .inr (.inl ⟨nofun, hd⟩)
  · exact .inl rfl

/-- By induction on the schedule: each of its turns of port C ends the drain or lowers `rem` by one. -/
theorem drain_ends {es : List Event} (hinv : s.Inv) (hs : s.schedule = es) (hd : s.drain = some d)
    (hturns : d.rem.toNat + 1 ≤ es.count (.turn .C)) :
    ∃ k t, k ≤ es.length ∧ core.run k s = .next t ∧ t.drain = none := by
  induction es generalizing s d with
  | nil => simp at hturns
  | cons e es ih =>
    obtain ⟨u, hu⟩ := hinv.step_next
    have he := (step_of_schedule hs).symm.trans hu
    have further {d' : Draining} (hd' : u.drain = some d') (hturns' : d'.rem.toNat + 1 ≤ es.count (.turn .C)) :
        ∃ k t, k ≤ (e :: es).length ∧ core.run k s = .next t ∧ t.drain = none := by
      obtain ⟨k, t, hk, hrun, ht⟩ := ih (hinv.step hu) (runEvent_schedule he) hd' hturns'
      exact ⟨k + 1, t, Nat.succ_le_succ hk, (run_succ hu k).trans hrun, ht⟩
    obtain hnone | ⟨hne, hsame⟩ | ⟨rfl, hrem, hless⟩ := runEvent_drainMoved (s := s.withSchedule es) hd he
    · exact ⟨1, u, Nat.succ_le_succ (Nat.zero_le _), run_succ hu 0, hnone⟩
    · rw [List.count_cons_of_ne hne] at hturns
      exact further hsame hturns
    · rw [List.count_cons_self] at hturns
      refine further hless ?_
      change (d.rem - 1).toNat + 1 ≤ _
      bv_omega

/-- Settles O13. -/
theorem drainAlwaysEnds : Obligations.DrainAlwaysEnds := by
  refine ⟨fun s d es hs hd hend => ?_, fun s d hinv hd hturns => drain_ends hinv rfl hd hturns⟩
  rw [step_turn_of_drain hs hd, drainStep_end (s := s.withSchedule es) hend]
  rfl

end Sys2Proof.Machine
end

section
/-! Laws of the ring buffer: when a write fails, the smallest buffer, the usable capacity, and a peek before a read
(`40_ringbuffer.md` R100 to R105). -/

namespace Sys2Proof.Machine

open Sys2Proof.Laws

variable {s t u : State}

/-! ### When a write fails (R100) -/

/-- A write on port P is answered FULL and nothing but that changes, or its byte is stored and it is answered OK. -/
theorem exec_rbWrite_of_P {b : Byte} (hp : s.active = .P) (h : exec (.rbWrite b) s = .next t) :
    (s.rb.full = true ∧ t = s.responded .full 0) ∨ (s.rb.full = false ∧ t = (s.withStored b).responded .ok 0) := by
  obtain ⟨hne, -⟩ | ⟨-, hf, rfl⟩ | ⟨-, hf, -, rfl⟩ := execRbWrite_cases h
  · exact absurd (hp ▸ List.mem_singleton_self _) hne
  · exact .inl ⟨hf, rfl⟩
  · exact .inr ⟨hf, rfl⟩

/-- Settles O47. -/
theorem writeFailsIffCountIsCapMinusOne : Obligations.WriteFailsIffCountIsCapMinusOne := by
  intro s b hinv hp
  have hfull := RingBuffer.full_iff_count hinv.head_lt_cap hinv.tail_lt_cap
  refine ⟨hfull, fun t h => ?_⟩
  rw [← hfull]
  obtain ⟨hf, rfl⟩ | ⟨hf, rfl⟩ := exec_rbWrite_of_P hp h
  · have hw : newWords s.out.onP (s.responded .full 0).out.onP = [finalWord .full 0] :=
      (putOn_responded hp rfl .full 0).newWords_same
    exact ⟨iff_of_true hw hf, fun _ => ⟨rfl, fun _ => rfl⟩⟩
  · have hw : newWords s.out.onP ((s.withStored b).responded .ok 0).out.onP = [finalWord .ok 0] :=
      (putOn_responded (u := s.withStored b) hp rfl .ok 0).newWords_same
    have hne : newWords s.out.onP ((s.withStored b).responded .ok 0).out.onP ≠ [finalWord .full 0] := by
      rw [hw]
      exact fun e => finalWord_ne_ok (st := .full) nofun 0 0 (List.singleton_inj.mp e).symm
    exact ⟨iff_of_false hne (by simp [hf]), fun e => absurd e hne⟩

/-! ### The smallest buffer (R105) -/

/-- Settles O48: empty and full say that the count is 0 and CAP - 1. -/
theorem smallestBufferHoldsOneByte : Obligations.SmallestBufferHoldsOneByte := by
  refine ⟨fun r hc hh ht => ?_, fun r hc hh ht => ?_, fun s hs hc => ?_, fun s hp hd => ?_⟩
  · have hc : r.cap.toNat = 2 := congrArg BitVec.toNat hc
    rw [← hc] at hh ht
    have hempty := RingBuffer.empty_iff_count ht
    have hfull := RingBuffer.full_iff_count hh ht
    have hlt := RingBuffer.count_lt_cap hh
    refine ⟨RingBuffer.empty_iff, ?_, by omega⟩
    rw [hfull, ne_eq, ← RingBuffer.empty_iff, hempty]
    omega
  · have hc : r.cap.toNat = 1 := congrArg BitVec.toNat hc
    rw [← hc] at hh ht
    have hlt := RingBuffer.count_lt_cap hh
    exact ⟨(RingBuffer.empty_iff_count ht).mpr (by omega), (RingBuffer.full_iff_count hh ht).mpr (by omega)⟩
  · have h2 := hs.inv.two_le_cap
    rw [hc] at h2
    exact absurd h2 (by decide)
  · exact (exec_rbInit_of_idle hp hd).trans (if_pos (.inl (by decide)))

/-! ### The usable capacity (R101) -/

theorem dropCommand_encode (i : Instr) : dropCommand (encode i) = [] := decode_instr_rest (decode_encode i)

/-- The state after one byte's write events: its word presented, and taken at the turn of P. -/
def State.afterWrite (s : State) (b : Byte) (es : List Event) : State :=
  ((((s.withSchedule es).withPending .P (encode (.rbWrite b))).withActive .P).withStored b).responded .ok 0

/-- A word presented on a port where none waits. -/
theorem presentWord_of_nil {p : Port} (h : s.inp.get p = []) (w : Word) :
    presentWord p w s = .next (s.withPending p [w]) := by
  have hp : s.presented p = false := by rw [State.presented, h]; rfl
  rw [presentWord, hp, h]
  rfl

/-- Two steps write one byte into a buffer that is not full. -/
theorem run_write {b : Byte} {es : List Event} (hinv : s.Inv) (hf : s.rb.full = false) (hi : s.inp.onP = [])
    (hs : s.schedule = writeEvents [b] ++ es) (k : Nat) : core.run (k + 2) s = core.run k (s.afterWrite b es) := by
  have hword : step s = .next ((s.withSchedule (.turn .P :: es)).withPending .P (encode (.rbWrite b))) :=
    (step_of_schedule hs).trans (presentWord_of_nil (s := s.withSchedule (.turn .P :: es)) (p := .P) hi _)
  have hturn : takeStep .P ((s.withSchedule es).withPending .P (encode (.rbWrite b))) = .next (s.afterWrite b es) := by
    rw [takeStep, State.withPending_inp, PerPort.get_set_same, decode_encode]
    exact exec_rbWrite_stored (s := ((s.withSchedule es).withPending .P _).withActive .P) rfl hf hinv.head_lt_depth
  rw [run_succ hword]
  exact run_succ ((step_turn_of_idle (s := (s.withSchedule (.turn .P :: es)).withPending .P _) (p := .P) rfl rfl).trans
    hturn) k

theorem State.Inv.afterWrite (h : s.Inv) (hf : s.rb.full = false) (b : Byte) (es : List Event) :
    (s.afterWrite b es).Inv :=
  ((((h.withSchedule es).withPending .P (dropCommand_encode _)).withActive .P).withStored hf b).responded .ok 0

theorem contents_afterWrite (h : s.Inv) (hf : s.rb.full = false) (b : Byte) (es : List Event) :
    (s.afterWrite b es).contents = s.contents ++ [b] :=
  (contents_congr (s := s.withStored b) rfl rfl).trans (contents_withStored h hf b)

/-- By induction on the bytes: while there is room, each write is answered OK and adds its byte at the end. -/
theorem run_writes {bs : List Byte} {es : List Event} (hinv : s.Inv) (hi : s.inp.onP = [])
    (hs : s.schedule = writeEvents bs ++ es) (hroom : s.rb.count + bs.length ≤ s.rb.cap.toNat - 1) :
    ∃ t : State, core.run (2 * bs.length) s = .next t ∧ t.schedule = es ∧ t.contents = s.contents ++ bs ∧
      t.out.onP.sent = s.out.onP.sent ++ List.replicate bs.length (finalWord .ok 0) := by
  induction bs generalizing s with
  | nil => exact ⟨s, rfl, hs, by simp, by simp⟩
  | cons b bs ih =>
    rw [List.length_cons] at hroom
    have hf : s.rb.full = false := by
      rw [Bool.eq_false_iff, ne_eq, RingBuffer.full_iff_count hinv.head_lt_cap hinv.tail_lt_cap]
      omega
    have hcount : (s.afterWrite b (writeEvents bs ++ es)).rb.count = s.rb.count + 1 :=
      RingBuffer.count_advance_head hinv.head_lt_cap hinv.tail_lt_cap hf
    have hroom' : (s.afterWrite b (writeEvents bs ++ es)).rb.count + bs.length ≤ s.rb.cap.toNat - 1 := by omega
    obtain ⟨t, hrun, hsched, hcont, hsent⟩ := ih (hinv.afterWrite hf b (writeEvents bs ++ es))
      (dropCommand_encode (.rbWrite b)) rfl hroom'
    have hput : (s.afterWrite b (writeEvents bs ++ es)).out.onP.sent = s.out.onP.sent ++ [finalWord .ok 0] := rfl
    refine ⟨t, (run_write hinv hf hi hs _).trans hrun, hsched, ?_, ?_⟩
    · rw [hcont, contents_afterWrite hinv hf, List.append_assoc, List.singleton_append]
    · rw [hsent, hput, List.append_assoc, List.length_cons, List.replicate_succ, List.singleton_append]

/-- Settles O49. -/
theorem usableCapacityIsCapMinusOne : Obligations.UsableCapacityIsCapMinusOne := by
  intro s bs es hinv hempty hi hs hlen
  have hroom : s.rb.count + bs.length ≤ s.rb.cap.toNat - 1 := by
    rwa [RingBuffer.count_eq_zero hempty, Nat.zero_add]
  obtain ⟨t, hrun, hsched, hcont, hsent⟩ := run_writes hinv hi hs hroom
  have hcont : t.contents = bs := by rw [hcont, contents_eq_nil hempty, List.nil_append]
  exact ⟨t, hrun, hsched, hcont, by rw [← contents_length, hcont], hsent⟩

/-! ### A peek before a read (R102) -/

/-- The oldest byte of the buffer is `b`. -/
structure OldestIs (s : State) (b : Byte) : Prop where
  inv : s.Inv
  not_empty : s.rb.empty = false
  slot_tail : s.slot s.rb.tail.toNat = b

/-- A write into a buffer that is not empty leaves the oldest byte's slot alone. -/
theorem slot_tail_withStored (he : s.rb.empty = false) (b : Byte) :
    (s.withStored b).slot s.rb.tail.toNat = s.slot s.rb.tail.toNat := by
  rw [slot_withStored, if_neg (RingBuffer.empty_eq_false_iff.mp he).symm]

/-- A buffer that just took a byte is not empty. -/
theorem withStored_not_empty (hf : s.rb.full = false) (b : Byte) : (s.withStored b).rb.empty = false :=
  RingBuffer.empty_eq_false_iff.mpr (RingBuffer.full_eq_false_iff.mp hf)

/-- The oldest byte stays until a turn of port C, a reset or a fresh buffer. -/
theorem OldestIs.step {b : Byte} (h : OldestIs s b) (e : step s = .next t) (hc : s.nextEvent ≠ some (.turn .C))
    (hr : s.nextEvent ≠ some .reset) (hi : freshInit s t = false) : OldestIs t b := by
  have hinv := h.inv.step e
  have hring := step_ringStep e
  generalize s.nextEvent = event at hc hr hring
  cases hring with
  | same hrb ho =>
    refine ⟨hinv, hrb ▸ h.not_empty, ?_⟩
    rw [State.slot_congr (congrArg RingBuffer.storage hrb) ho.resets, hrb, h.slot_tail]
  | fresh cap hrb hn hfresh => exact absurd (hfresh.symm.trans hi) nofun
  | store b' hf hrb ho =>
    have hslot := State.slot_congr (s := s.withStored b') (congrArg RingBuffer.storage hrb) ho.resets
    have htail : t.rb.tail = s.rb.tail := by rw [hrb]; rfl
    refine ⟨hinv, hrb ▸ withStored_not_empty hf b', ?_⟩
    rw [hslot, htail, slot_tail_withStored h.not_empty, h.slot_tail]
  | take => exact absurd rfl hc
  | reset => exact absurd rfl hr

theorem OldestIs.consumerQuiet {b : Byte} (h : OldestIs s b) (hq : ConsumerQuiet s t) : OldestIs t b := by
  induction hq with
  | refl => exact h
  | next t u _ e hc hr hi ih => exact ih.step e hc hr hi

/-- A read on port C returns the oldest byte. -/
theorem OldestIs.exec_rbRead {b : Byte} (h : OldestIs s b) :
    ∃ t, exec .rbRead (s.withActive .C) = .next t ∧ newWords s.out.onC t.out.onC = [finalWord .ok (zextByte b)] := by
  refine ⟨_, exec_rbRead_taken (s := s.withActive .C) rfl h.not_empty h.inv.tail_lt_depth, ?_⟩
  have hslot : (s.withActive .C).slot s.rb.tail.toNat = b := h.slot_tail
  have hput := putOn_responded (s := s) (u := (s.withActive .C).withTail (advance s.rb.cap s.rb.tail)) (p := .C) rfl rfl
    .ok (zextByte b)
  exact hslot.symm ▸ hput.newWords_same

/-- A peek answered OK shows the oldest byte, which stays. -/
theorem exists_oldestIs_of_peek {v : Half} (hinv : s.Inv) (hp : s.active = .C) (h : exec .rbPeek s = .next t)
    (hv : newWords s.out.onC t.out.onC = [finalWord .ok v]) :
    ∃ b, OldestIs t b ∧ finalWord .ok (zextByte b) = finalWord .ok v := by
  obtain ⟨hne, -⟩ | ⟨-, -, rfl⟩ | ⟨-, he, -, rfl⟩ := execRbPeek_cases h
  · exact absurd (hp ▸ List.mem_singleton_self _) hne
  · have hw : newWords s.out.onC (s.responded .empty 0).out.onC = [finalWord .empty 0] :=
      (putOn_responded hp rfl .empty 0).newWords_same
    exact absurd (List.singleton_inj.mp (hw.symm.trans hv)) (finalWord_ne_ok (st := .empty) nofun 0 v)
  · have hw := (putOn_responded (s := s) hp rfl .ok (zextByte (s.slot s.rb.tail.toNat))).newWords_same
    exact ⟨s.slot s.rb.tail.toNat, ⟨hinv.responded _ _, he, rfl⟩, List.singleton_inj.mp (hw.symm.trans hv)⟩

/-- Settles O50: between the peek and the read the oldest byte stays. -/
theorem peekThenReadGivesSameByte : Obligations.PeekThenReadGivesSameByte := by
  refine ⟨fun s t b hinv hne h => ?_, fun s t u v hinv hp h hv hq => ?_⟩
  · have he := RingBuffer.empty_eq_false_iff_ne.mpr hne
    obtain ⟨-, rfl⟩ | ⟨-, -, rfl⟩ | ⟨-, -, -, rfl⟩ := execRbWrite_cases h
    · exact ⟨rfl, rfl, fun _ _ => rfl⟩
    · exact ⟨rfl, rfl, fun _ _ => rfl⟩
    · exact ⟨rfl, slot_tail_withStored he b, fun k hk => (slot_withStored s b k).trans (if_neg hk)⟩
  · obtain ⟨b, holdest, hb⟩ := exists_oldestIs_of_peek hinv hp h hv
    rw [← hb]
    exact (holdest.consumerQuiet hq).exec_rbRead

end Sys2Proof.Machine
end

section
/-! The timer commands (`41_timer.md` R107 to R114): each command's words and its guards, the comparison of ticks, and
that a command's effect depends on its own timer only. -/

namespace Sys2Proof.Machine

open Sys2Proof.Laws

variable {s : State} {i : Instr} {j : Index} {body : Result}

/-! ### One timer of a state -/

theorem timer_eq_of_getElem? {k : Nat} {y : Timer} (h : s.timers[k]? = some y) : s.timer k = y := by
  rw [State.timer, List.getD_eq_getElem?_getD, h, Option.getD_some]

/-- The update and the read both miss where no such timer is built. -/
theorem timer_withTimer_same (s : State) (k : Nat) (x : Timer) :
    (s.withTimer k x).timer k = if k < s.timers.length then x else Timer.inert := by
  rw [State.timer, State.withTimer_timers, List.getD_eq_getElem?_getD, List.getElem?_set_self']
  by_cases hk : k < s.timers.length <;> simp [hk]

theorem timer_withTimer_ne (s : State) {k l : Nat} (h : l ≠ k) (x : Timer) :
    (s.withTimer k x).timer l = s.timer l := by
  simp only [State.timer, State.withTimer_timers, List.getD_eq_getElem?_getD, List.getElem?_set_ne h.symm]

theorem withTimer_timer (s : State) (k : Nat) : s.withTimer k (s.timer k) = s := by
  have hset : s.timers.set k (s.timer k) = s.timers := by
    by_cases hk : k < s.timers.length
    · rw [State.timer, List.getD_eq_getElem _ _ hk, List.set_getElem_self]
    · exact List.set_eq_of_length_le (Nat.le_of_not_lt hk)
  rw [State.withTimer, hset]

/-! ### The comparison of ticks (R109 to R112) -/

theorem tickSub_toNat (a b : Tick) : (tickSub a b).toNat = (a.toNat + 2 ^ 32 - b.toNat) % 2 ^ 32 := by
  have hb := b.isLt
  rw [tickSub, BitVec.toNat_sub]
  congr 1
  omega

theorem Timer.expired_iff (x : Timer) (t : Tick) :
    x.expired t = true ↔ x.running = true ∧ x.duration.toNat ≤ (tickSub t x.startTick).toNat := by
  rw [Timer.expired, Bool.and_eq_true, decide_eq_true_iff]

theorem Timer.expired_running_iff (a d t : Tick) :
    Timer.expired ⟨a, d, true⟩ t = true ↔ d.toNat ≤ (tickSub t a).toNat :=
  (Timer.expired_iff _ t).trans (and_iff_right rfl)

/-- The ticks since the start are counted mod 2^32 (R111). -/
theorem tickSub_add_ofNat (a : Tick) (k : Nat) : (tickSub (a + BitVec.ofNat 32 k) a).toNat = k % 2 ^ 32 := by
  rw [tickSub, add_sub_cancel_left, BitVec.toNat_ofNat]

/-- Only the tick before the start is the greatest difference away from it (R112). -/
theorem maxTick_le_tickSub_iff (a t : Tick) : (0xFFFFFFFF : Tick).toNat ≤ (tickSub t a).toNat ↔ t = a - 1 := by
  rw [tickSub]
  constructor <;> intro h <;> bv_omega

/-! ### The guards of a timer command -/

theorem onTimer_of_lt (hj : j.toNat < s.par.ntimers) : onTimer j s body = body := if_neg (Nat.not_le.mpr hj)

theorem onTimer_of_le (hj : s.par.ntimers ≤ j.toNat) : onTimer j s body = .next (s.responded .errIndex 0) := if_pos hj

/-- Both guards let the command through: port T and a timer that is built. -/
theorem onPort_onTimer_taken (hi : i.ports = [.T]) (hp : s.active = .T) (hj : j.toNat < s.par.ntimers) :
    onPort i s (onTimer j s body) = body :=
  (onPort_of_onlyPort hi hp).trans (onTimer_of_lt hj)

theorem onPort_onTimer_errIndex (hi : i.ports = [.T]) (hp : s.active = .T) (hj : s.par.ntimers ≤ j.toNat) :
    onPort i s (onTimer j s body) = .next (s.responded .errIndex 0) :=
  (onPort_of_onlyPort hi hp).trans (onTimer_of_le hj)

theorem exec_tmrStart_armed {a d : Tick} (hp : s.active = .T) (hj : j.toNat < s.par.ntimers) :
    exec (.tmrStart j a d) s = .next ((s.withTimer j.toNat ⟨a, d, true⟩).responded .ok 0) :=
  onPort_onTimer_taken rfl hp hj

theorem exec_tmrStop_disarmed (hp : s.active = .T) (hj : j.toNat < s.par.ntimers) :
    exec (.tmrStop j) s =
      .next ((s.withTimer j.toNat { s.timer j.toNat with running := false }).responded .ok 0) :=
  onPort_onTimer_taken rfl hp hj

theorem exec_tmrExpired_answered {tick : Tick} (hp : s.active = .T) (hj : j.toNat < s.par.ntimers) :
    exec (.tmrExpired j tick) s = .next (s.responded .ok (rdataBool ((s.timer j.toNat).expired tick))) :=
  onPort_onTimer_taken rfl hp hj

/-! ### The words of the commands -/

theorem decode_timer_of_encode {opc : Index} {ops : List Word} (h : encode i = header opc j 0 :: ops) :
    decode (BitVec.ofNat 32 (opc.toNat * 2 ^ 24 + j.toNat * 2 ^ 16) :: ops) = .instr i [] := by
  have hw : header opc j 0 = BitVec.ofNat 32 (opc.toNat * 2 ^ 24 + j.toNat * 2 ^ 16) := by simp [header_eq_ofNat]
  rw [← hw, ← h, decode_encode]

/-! ### The statements on one command -/

/-- Settles O20. -/
theorem tmrStartArmsTimer : Obligations.TmrStartArmsTimer :=
  ⟨fun _ _ _ => decode_timer_of_encode (opc := 0x30) rfl,
    fun _ _ _ _ => ⟨exec_of_not_onlyPort rfl, onPort_onTimer_errIndex rfl, exec_tmrStart_armed⟩⟩

/-- Settles O21. -/
theorem tmrStopKeepsHistory : Obligations.TmrStopKeepsHistory := by
  refine ⟨fun _ => decode_timer_of_encode (opc := 0x31) rfl,
    fun j s => ⟨exec_of_not_onlyPort rfl, onPort_onTimer_errIndex rfl, fun y hp hj hy => ?_⟩⟩
  rw [exec_tmrStop_disarmed hp hj, timer_eq_of_getElem? hy]
  rfl

/-- Settles O22: the source's formula is the difference the model takes. -/
theorem tmrExpiredComparesDifference : Obligations.TmrExpiredComparesDifference := by
  refine ⟨fun _ _ => decode_timer_of_encode (opc := 0x32) rfl,
    fun j t s => ⟨exec_of_not_onlyPort rfl, onPort_onTimer_errIndex rfl, fun y hp hj hy => ?_⟩, by decide, by decide⟩
  rw [exec_tmrExpired_answered hp hj, timer_eq_of_getElem? hy]
  simp only [rdataBool, Timer.expired_iff, tickSub_toNat]

/-- Settles O23; that `d` is not 0 is not needed. -/
theorem timerAliasesEachTurnOfTheCounter : Obligations.TimerAliasesEachTurnOfTheCounter := by
  intro a d k _
  rw [Timer.expired_running_iff, tickSub_add_ofNat]

/-- Settles O24: each extreme by the comparison, and a start command leaves what it was given. -/
theorem timerDurationExtremes : Obligations.TimerDurationExtremes := by
  refine ⟨fun a t => (Timer.expired_running_iff a 0 t).mpr (Nat.zero_le _),
    fun a t => (Timer.expired_running_iff a _ t).trans (maxTick_le_tickSub_iff a t), fun j a d s hp hj hlen => ?_⟩
  refine ⟨_, exec_tmrStart_armed hp hj, ?_⟩
  rw [State.timer_congr (State.responded_timers ..), timer_withTimer_same, if_pos (hlen ▸ hj)]

/-! ### Timers are independent (R114) -/

/-- What a timer command leaves in its timer and answers. -/
structure TimerAnswer where
  timer : Timer
  status : Status
  rdata : Half

/-- The answer of a timer command on timer `j`, whose value is `x`: the timer stays as it is when the port or the
index is refused, and `taken` says what the command does otherwise. -/
def guardedAnswer (taken : Timer → TimerAnswer) (par : Params) (p : Port) (j : Index) (x : Timer) : TimerAnswer :=
  if p ≠ .T then ⟨x, .errPort, 0⟩ else if par.ntimers ≤ j.toNat then ⟨x, .errIndex, 0⟩ else taken x

/-- The state once timer `j` and the issuing port have their answer. -/
def State.timerAnswered (s : State) (j : Index) (o : TimerAnswer) : State :=
  (s.withTimer j.toNat o.timer).responded o.status o.rdata

/-- A command that leaves its timer as it is changes nothing but for its response. -/
theorem timerAnswered_unchanged (s : State) (j : Index) (st : Status) (rdata : Half) :
    s.timerAnswered j ⟨s.timer j.toNat, st, rdata⟩ = s.responded st rdata := by
  rw [State.timerAnswered, withTimer_timer]

/-- What `i` does is to answer on timer `j` and the issuing port, and the answer comes from the parameters, the port and
that timer alone. -/
def ActsOnTimer (i : Instr) (j : Index) : Prop :=
  ∃ taken : Timer → TimerAnswer, ∀ s,
    exec i s = .next (s.timerAnswered j (guardedAnswer taken s.par s.active j (s.timer j.toNat)))

theorem actsOnTimer_of_guards (hi : i.ports = [.T]) (taken : Timer → TimerAnswer)
    (hexec : ∀ s, exec i s = onPort i s (onTimer j s (.next (s.timerAnswered j (taken (s.timer j.toNat)))))) :
    ActsOnTimer i j := by
  refine ⟨taken, fun s => (hexec s).trans ?_⟩
  unfold guardedAnswer
  split_ifs with hp hj
  · rw [timerAnswered_unchanged, onPort_refused (by rw [hi]; exact mt List.mem_singleton.mp hp)]
  · rw [timerAnswered_unchanged, onPort_onTimer_errIndex hi (not_not.mp hp) hj]
  · rw [onPort_onTimer_taken hi (not_not.mp hp) (Nat.not_le.mp hj)]

theorem actsOnTimer_tmrStart (j : Index) (a d : Tick) : ActsOnTimer (.tmrStart j a d) j :=
  actsOnTimer_of_guards rfl (fun _ => ⟨⟨a, d, true⟩, .ok, 0⟩) fun _ => rfl

theorem actsOnTimer_tmrStop (j : Index) : ActsOnTimer (.tmrStop j) j :=
  actsOnTimer_of_guards rfl (fun x => ⟨{ x with running := false }, .ok, 0⟩) fun _ => rfl

theorem actsOnTimer_tmrExpired (j : Index) (tick : Tick) : ActsOnTimer (.tmrExpired j tick) j := by
  refine actsOnTimer_of_guards rfl (fun x => ⟨x, .ok, rdataBool (x.expired tick)⟩) fun s => ?_
  rw [timerAnswered_unchanged]
  rfl

theorem timer_timerAnswered_ne (s : State) (o : TimerAnswer) {k : Nat} (hk : k ≠ j.toNat) :
    (s.timerAnswered j o).timer k = s.timer k :=
  (State.timer_congr (s := s.withTimer j.toNat o.timer) rfl k).trans (timer_withTimer_ne s hk _)

theorem timer_timerAnswered_same (s : State) (j : Index) (o : TimerAnswer) :
    (s.timerAnswered j o).timer j.toNat = if j.toNat < s.timers.length then o.timer else Timer.inert :=
  (State.timer_congr (s := s.withTimer j.toNat o.timer) rfl _).trans (timer_withTimer_same s _ _)

theorem newWords_timerAnswered (s : State) (j : Index) (o : TimerAnswer) :
    newWords (s.out.get s.active) ((s.timerAnswered j o).out.get s.active) = [finalWord o.status o.rdata] :=
  (putOn_responded (s := s) (u := s.withTimer j.toNat o.timer) rfl rfl _ _).newWords_same

/-- Settles O25: two states alike in what the command reads get one answer. -/
theorem timersAreIndependent : Obligations.TimersAreIndependent := by
  intro i j hi s s' t t' h h'
  have hacts : ActsOnTimer i j := by
    obtain ⟨a, d, rfl⟩ | rfl | ⟨tick, rfl⟩ := hi
    · exact actsOnTimer_tmrStart j a d
    · exact actsOnTimer_tmrStop j
    · exact actsOnTimer_tmrExpired j tick
  obtain ⟨f, hf⟩ := hacts
  obtain rfl := Host.Outcome.next.inj ((hf s).symm.trans h)
  obtain rfl := Host.Outcome.next.inj ((hf s').symm.trans h')
  refine ⟨fun k hk => timer_timerAnswered_ne s _ hk, fun htimer hpar hactive hlen => ⟨?_, ?_⟩⟩
  · rw [timer_timerAnswered_same, timer_timerAnswered_same, htimer, hpar, hactive, hlen]
  · rw [newWords_timerAnswered, ← hactive, newWords_timerAnswered, htimer, hpar, hactive]

end Sys2Proof.Machine
end

section
/-! The scheduler's rules (`42_scheduler.md` R115 to R121): the two commands and their words, the due test, and the
three steps of a tick in flight with the host's acknowledgement between them. -/

namespace Sys2Proof.Machine

open Sys2Proof.Laws

variable {s : State} {x : Ticking} {y : Task} {es : List Event}

/-! ### The commands -/

/-- The refusals of SCH_REGISTER on its port, in order, and the entry added (R115). -/
theorem exec_schRegister_of_S {a : Index} {nm : Half} {p : Tick} (hp : s.active = .S) :
    exec (.schRegister a nm p) s =
      if s.sch.phase = .running then .next (s.responded .errPhase 0)
      else if p = 0 then .next (s.responded .errConfig 0)
      else if s.sch.ntasks.toNat = s.par.ntasks then .next (s.responded .errRegFull 0)
      else .next ((s.withRegistered ⟨p, 0, a, nm⟩).responded .ok (rdataNat s.sch.ntasks.toNat)) :=
  onPort_of_onlyPort rfl hp

theorem exec_schTick_of_S {cur : Tick} (hp : s.active = .S) :
    exec (.schTick cur) s = .next (s.withPass cur).accepted :=
  onPort_of_onlyPort rfl hp

/-- The new entry stands behind the registered ones, and every other entry stays. -/
theorem task_withRegistered (hn : s.sch.ntasks.toNat < s.sch.tasks.length) (y : Task) (i : Nat) :
    (s.withRegistered y).task i = if i = s.sch.ntasks.toNat then y else s.task i :=
  (State.task_congr (s := s.withTask s.sch.ntasks.toNat y) rfl i).trans (task_withTask hn y i)

/-- Settles O14. -/
theorem schRegisterAddsTask : Obligations.SchRegisterAddsTask := by
  refine ⟨fun a nm p => ?_, fun a nm p s => ⟨exec_of_not_onlyPort rfl, fun hp hph => ?_, fun hp hph h0 => ?_,
    fun hp hph h0 hfull => ?_, fun hp hph h0 hroom hlen h256 => ?_⟩⟩
  · have hd := decode_encode (.schRegister a nm p)
    rwa [encode, header_eq_ofNat] at hd
  · rw [exec_schRegister_of_S hp, if_pos hph]
  · rw [exec_schRegister_of_S hp, if_neg (by simp [hph]), if_pos h0]
  · rw [exec_schRegister_of_S hp, if_neg (by simp [hph]), if_neg h0, if_pos hfull]
  · have hexec : exec (.schRegister a nm p) s =
        .next ((s.withRegistered ⟨p, 0, a, nm⟩).responded .ok (rdataNat s.sch.ntasks.toNat)) := by
      rw [exec_schRegister_of_S hp, if_neg (by simp [hph]), if_neg h0, if_neg hroom.ne]
    have htask := task_withRegistered (hroom.trans_eq hlen.symm) ⟨p, 0, a, nm⟩
    refine ⟨_, hexec, ?_, hph, (htask _).trans (if_pos rfl), fun i hi => (htask i).trans (if_neg hi), ?_⟩
    · change (s.sch.ntasks + 1).toNat = _
      bv_omega
    · rw [← BitVec.ofNat_toNat]
      rfl

/-- Settles O15. -/
theorem schTickAcceptBeginsPass : Obligations.SchTickAcceptBeginsPass :=
  ⟨fun cur => decode_encode (.schTick cur), fun _ _ => ⟨exec_of_not_onlyPort rfl, exec_schTick_of_S⟩⟩

/-! ### The due test (R121) -/

theorem Task.due_iff (y : Task) (cur : Tick) :
    y.due cur = true ↔ y.period.toNat ≤ (cur.toNat + 2 ^ 32 - y.lastRun.toNat) % 2 ^ 32 := by
  rw [Task.due, decide_eq_true_iff, tickSub_toNat]

theorem Task.due_eq_false_iff (y : Task) (cur : Tick) :
    y.due cur = false ↔ (cur.toNat + 2 ^ 32 - y.lastRun.toNat) % 2 ^ 32 < y.period.toNat := by
  rw [← Bool.not_eq_true, Task.due_iff, Nat.not_le]

theorem task_eq_of_getElem? {i : Nat} (h : s.sch.tasks[i]? = some y) : s.task i = y := by
  rw [State.task, List.getD_eq_getElem?_getD, h, Option.getD_some]

/-- The event word as a number (`30_encoding.md` R72). -/
theorem dispatchWord_eq_ofNat (i : TaskCount) (y : Task) : dispatchWord i y =
    BitVec.ofNat 32 (i.toNat % 2 ^ 8 * 2 ^ 24 + y.action.toNat * 2 ^ 16 + y.name.toNat) := by
  rw [dispatchWord, header_eq_ofNat, BitVec.toNat_setWidth]

/-! ### The steps of a tick in flight (R117 to R120) -/

theorem tickStep_dispatch (hi : x.i.toNat < s.sch.ntasks.toNat) (hd : (s.task x.i.toNat).due x.cur = true) :
    tickStep x s = .next (dispatchStep x s) := by
  rw [tickStep, if_pos hi, if_pos hd]

theorem tickStep_skip (hi : x.i.toNat < s.sch.ntasks.toNat) (hd : (s.task x.i.toNat).due x.cur = false) :
    tickStep x s = .next (skipStep x s) := by
  rw [tickStep, if_pos hi, if_neg (by simp [hd])]

theorem tickStep_end (hi : x.i = s.sch.ntasks) : tickStep x s = .next (endStep x s) := by
  rw [tickStep, if_neg (by simp [hi]), if_pos hi]

theorem agentStep_of_tick (hx : s.tick = some x) : agentStep .S s = if x.wait then hold s else tickStep x s := by
  simp only [agentStep, hx]

/-- At a turn of port S a tick that does not wait makes its next step. -/
theorem step_turn_of_tick (hs : s.schedule = .turn .S :: es) (hx : s.tick = some x) (hw : x.wait = false) :
    step s = tickStep x (s.withSchedule es) := by
  rw [step_of_schedule hs, runEvent, agentStep_of_tick (s := s.withSchedule es) hx, if_neg (by simp [hw])]

/-- A turn of port S while a dispatch waits is no step of the block [log 3]. -/
theorem step_turn_of_waiting (hs : s.schedule = .turn .S :: es) (hx : s.tick = some x) (hw : x.wait = true) :
    step s = .next (s.withSchedule es) := by
  rw [step_of_schedule hs, runEvent, agentStep_of_tick (s := s.withSchedule es) hx, if_pos hw, hold]

/-- A due task's turn. -/
theorem step_dispatch (hs : s.schedule = .turn .S :: es) (hx : s.tick = some x) (hw : x.wait = false)
    (hi : x.i.toNat < s.sch.ntasks.toNat) (hd : (s.task x.i.toNat).due x.cur = true) :
    step s = .next (dispatchStep x (s.withSchedule es)) :=
  (step_turn_of_tick hs hx hw).trans (tickStep_dispatch (s := s.withSchedule es) hi hd)

/-- The turn of a task that is not due. -/
theorem step_skip (hs : s.schedule = .turn .S :: es) (hx : s.tick = some x) (hw : x.wait = false)
    (hi : x.i.toNat < s.sch.ntasks.toNat) (hd : (s.task x.i.toNat).due x.cur = false) :
    step s = .next (skipStep x (s.withSchedule es)) :=
  (step_turn_of_tick hs hx hw).trans (tickStep_skip (s := s.withSchedule es) hi hd)

/-- The turn after the last task. -/
theorem step_end (hs : s.schedule = .turn .S :: es) (hx : s.tick = some x) (hw : x.wait = false)
    (hi : x.i = s.sch.ntasks) : step s = .next (endStep x (s.withSchedule es)) :=
  (step_turn_of_tick hs hx hw).trans (tickStep_end (s := s.withSchedule es) hi)

theorem ackStep_of_waiting (hx : s.tick = some x) (hw : x.wait = true) :
    ackStep s = .next (s.withTick (some { x with i := x.i + 1, wait := false })) := by
  simp [ackStep, hx, hw]

theorem ackStep_of_not_waiting (hx : ∀ x, s.tick = some x → x.wait = false) : ackStep s = .next s := by
  unfold ackStep
  split
  · rfl
  · rename_i x ht
    rw [hx x ht]
    rfl

theorem step_ack_of_waiting (hs : s.schedule = .ack :: es) (hx : s.tick = some x) (hw : x.wait = true) :
    step s = .next ((s.withSchedule es).withTick (some { x with i := x.i + 1, wait := false })) :=
  (step_of_schedule hs).trans (ackStep_of_waiting (s := s.withSchedule es) hx hw)

/-- Settles O16. -/
theorem dispatchStepPutsEvent : Obligations.DispatchStepPutsEvent := by
  refine ⟨Task.due_iff, fun s x es y hs hx hw hi hy hdue => ?_⟩
  have htask : s.task x.i.toNat = y := task_eq_of_getElem? hy
  have htask' : (s.withSchedule es).task x.i.toNat = y := htask
  rw [step_dispatch hs hx hw hi (htask ▸ (Task.due_iff y x.cur).mpr hdue), dispatchStep, htask', dispatchWord_eq_ofNat]
  rfl

/-- Settles O17. -/
theorem skipStepPassesTask : Obligations.SkipStepPassesTask := by
  intro s x es y hs hx hw hi hy hdue
  have htask : s.task x.i.toNat = y := task_eq_of_getElem? hy
  rw [step_skip hs hx hw hi (htask ▸ (Task.due_eq_false_iff y x.cur).mpr hdue), skipStep, hw]
  rfl

/-- Settles O18. -/
theorem ackEndsWaitOrIsIgnored : Obligations.AckEndsWaitOrIsIgnored :=
  fun s es => ⟨fun _ => step_ack_of_waiting,
    fun hs hx => (step_of_schedule hs).trans (ackStep_of_not_waiting (s := s.withSchedule es) hx),
    fun _ => step_turn_of_waiting⟩

/-- Settles O19. -/
theorem tickEndStepAnswersCount : Obligations.TickEndStepAnswersCount := fun _ _ _ => step_end

end Sys2Proof.Machine
end

section
/-! The phase (`42_scheduler.md` R125, `10_state.md` R31): a pass that port S begins is the one way from SETUP to
RUNNING, and a reset the one way back. -/

namespace Sys2Proof.Machine

variable {s t : State}

/-- From `s`, at event `e`, idle port S takes the SCH_TICK that waits there, and `t` has its pass begun. -/
def PassBegins (s t : State) (e : Option Event) : Prop :=
  e = some (.turn .S) ∧ s.tick = none ∧ ∃ cur rest, decode (s.inp.get .S) = .instr (.schTick cur) rest ∧
    t.sch.phase = .running ∧ t.tick = some ⟨cur, 0, 0, false⟩

/-- Every command but SCH_TICK leaves the phase alone. -/
theorem exec_phase_of_ne_schTick {i : Instr} (hi : ∀ cur, i ≠ .schTick cur) (h : exec i s = .next t) :
    t.sch.phase = s.sch.phase := by
  cases i with
  | schTick cur => exact absurd rfl (hi cur)
  | schRegister action name period =>
    obtain ⟨-, rfl⟩ | ⟨-, -, rfl⟩ | ⟨-, -, -, rfl⟩ | ⟨-, -, -, -, rfl⟩ | ⟨-, -, -, -, rfl⟩ :=
      execSchRegister_cases h <;> rfl
  | rbInit cap => obtain ⟨-, rfl⟩ | ⟨-, -, rfl⟩ | ⟨-, -, -, rfl⟩ | ⟨-, -, -, -, rfl⟩ := execRbInit_cases h <;> rfl
  | rbIsEmpty => obtain ⟨-, rfl⟩ | ⟨-, rfl⟩ := execRbIsEmpty_cases h <;> rfl
  | rbIsFull => obtain ⟨-, rfl⟩ | ⟨-, rfl⟩ := execRbIsFull_cases h <;> rfl
  | rbCount => obtain ⟨-, rfl⟩ | ⟨-, rfl⟩ := execRbCount_cases h <;> rfl
  | rbAvailable => obtain ⟨-, rfl⟩ | ⟨-, rfl⟩ := execRbAvailable_cases h <;> rfl
  | rbWrite b => obtain ⟨-, rfl⟩ | ⟨-, -, rfl⟩ | ⟨-, -, -, rfl⟩ := execRbWrite_cases h <;> rfl
  | rbRead => obtain ⟨-, rfl⟩ | ⟨-, -, rfl⟩ | ⟨-, -, -, rfl⟩ := execRbRead_cases h <;> rfl
  | rbPeek => obtain ⟨-, rfl⟩ | ⟨-, -, rfl⟩ | ⟨-, -, -, rfl⟩ := execRbPeek_cases h <;> rfl
  | rbDrain maxLen => obtain ⟨-, rfl⟩ | ⟨-, rfl⟩ := execRbDrain_cases h <;> rfl
  | tmrStart j start duration => obtain ⟨-, rfl⟩ | ⟨-, -, rfl⟩ | ⟨-, -, rfl⟩ := execTmrStart_cases h <;> rfl
  | tmrStop j => obtain ⟨-, rfl⟩ | ⟨-, -, rfl⟩ | ⟨-, -, rfl⟩ := execTmrStop_cases h <;> rfl
  | tmrExpired j tick => obtain ⟨-, rfl⟩ | ⟨-, -, rfl⟩ | ⟨-, -, rfl⟩ := execTmrExpired_cases h <;> rfl

theorem takeStep_phase {p : Port} (hb : s.busy p = false) (h : takeStep p s = .next t) :
    t.sch.phase = s.sch.phase ∨ PassBegins s t (some (.turn p)) := by
  obtain ⟨-, rfl⟩ | ⟨_, _, -, rfl⟩ | ⟨i, rest, hd, h⟩ := takeStep_cases h
  · exact .inl rfl
  · exact .inl rfl
  · by_cases hi : ∃ cur, i = .schTick cur
    · obtain ⟨cur, rfl⟩ := hi
      obtain ⟨-, rfl⟩ | ⟨hS, rfl⟩ := execSchTick_cases h
      · exact .inl rfl
      · obtain rfl : p = .S := hS
        exact .inr ⟨rfl, by simpa [State.busy] using hb, cur, rest, hd, rfl, rfl⟩
    · exact .inl (exec_phase_of_ne_schTick (s := s.withActive p) (not_exists.mp hi) h)

theorem agentStep_phase {p : Port} (h : agentStep p s = .next t) :
    t.sch.phase = s.sch.phase ∨ PassBegins s t (some (.turn p)) := by
  obtain ⟨-, d, -, h⟩ | ⟨-, x, -, -, rfl⟩ | ⟨-, x, -, -, h⟩ | ⟨hb, h⟩ := agentStep_cases h
  · obtain ⟨-, -, -, rfl⟩ | ⟨-, rfl⟩ := drainStep_cases h <;> exact .inl rfl
  · exact .inl rfl
  · obtain ⟨-, -, rfl⟩ | ⟨-, -, rfl⟩ | ⟨-, rfl⟩ | ⟨-, rfl⟩ := tickStep_cases h <;> exact .inl rfl
  · exact takeStep_phase hb h

theorem runEvent_phase {e : Event} (hr : e ≠ .reset) (h : runEvent e s = .next t) :
    t.sch.phase = s.sch.phase ∨ PassBegins s t (some e) := by
  obtain ⟨p, w, -, -, rfl⟩ | ⟨_, _, -, -, rfl⟩ | ⟨p, rfl, h⟩ | ⟨-, h⟩ | ⟨he, -⟩ := runEvent_cases h
  · exact .inl rfl
  · exact .inl rfl
  · exact agentStep_phase h
  · obtain ⟨x, -, -, rfl⟩ | ⟨-, rfl⟩ := ackStep_cases h <;> exact .inl rfl
  · exact absurd he hr

/-- A step that is no reset leaves the phase, or begins a pass. -/
theorem step_phase (hr : s.nextEvent ≠ some .reset) (h : step s = .next t) :
    t.sch.phase = s.sch.phase ∨ PassBegins s t s.nextEvent := by
  obtain ⟨-, rfl⟩ | ⟨e, he, h⟩ := step_cases h
  · exact .inl rfl
  · rw [he] at hr ⊢
    exact runEvent_phase (s := s.withSchedule s.schedule.tail) (mt (congrArg some) hr) h

/-- Settles O43. -/
theorem phaseChangesOnlyByTickAndReset : Obligations.PhaseChangesOnlyByTickAndReset := by
  intro s t h hr
  obtain hsame | ⟨hturn, hidle, cur, rest, hd, hrun, htick⟩ := step_phase hr h
  · exact ⟨hsame.trans, fun hsetup hrun => nomatch hsetup.symm.trans (hsame.symm.trans hrun)⟩
  · exact ⟨fun _ => hrun, fun _ _ => ⟨hturn, hidle, cur, rest, hd, htick⟩⟩

end Sys2Proof.Machine
end

section
/-! The due test from pass to pass (`42_scheduler.md` R127, R128): a repeated tick value dispatches nothing, and passes
at the ticks 1, 2, 3, … dispatch a new task at the multiples of its period. -/

namespace Sys2Proof.Machine

theorem Task.afterPass_of_due {x : Task} {cur : Tick} (h : x.due cur = true) :
    x.afterPass cur = { x with lastRun := cur } := if_pos h

theorem Task.afterPass_of_not_due {x : Task} {cur : Tick} (h : x.due cur = false) : x.afterPass cur = x :=
  if_neg (Bool.eq_false_iff.mp h)

/-- Settles O57: once a task ran at `cur`, no tick has elapsed for it; a task that was not due stays so. -/
theorem repeatedTickDispatchesNothing : Obligations.RepeatedTickDispatchesNothing := by
  intro x cur hp
  cases h : x.due cur with
  | true =>
    rw [Task.afterPass_of_due h, Task.due_eq_false_iff, Nat.add_sub_cancel_left, Nat.mod_self]
    exact BitVec.toNat_pos_of_ne_zero hp
  | false => rw [Task.afterPass_of_not_due h, h]

/-- What passes at the ticks of a list make of a task, in order. -/
def Task.afterPasses (x : Task) (ts : List Tick) : Task := ts.foldl Task.afterPass x

/-- The count for one tick more, by the due test after the passes before it. -/
theorem dispatchCount_concat (x : Task) (ts : List Tick) (cur : Tick) :
    dispatchCount x (ts ++ [cur]) = dispatchCount x ts + ((x.afterPasses ts).due cur).toNat := by
  induction ts generalizing x with
  | nil => simp [dispatchCount, Task.afterPasses]
  | cons c ts ih => simp [dispatchCount, ih, Task.afterPasses, Nat.add_assoc]

theorem Task.afterPasses_concat (x : Task) (ts : List Tick) (cur : Tick) :
    x.afterPasses (ts ++ [cur]) = (x.afterPasses ts).afterPass cur := by
  simp [Task.afterPasses]

/-- The ticks 1 to `n`. -/
def ticksTo (n : Nat) : List Tick := (List.range n).map fun k => BitVec.ofNat 32 (k + 1)

theorem ticksTo_succ (n : Nat) : ticksTo (n + 1) = ticksTo n ++ [BitVec.ofNat 32 (n + 1)] := by
  simp [ticksTo, List.range_succ]

/-- What passes at the ticks 1 to `n` make of a new task: it last ran at the last multiple of its period. -/
def Task.ranTo (p : Tick) (a : Index) (nm : Half) (n : Nat) : Task :=
  ⟨p, BitVec.ofNat 32 (n / p.toNat * p.toNat), a, nm⟩

section Counts
variable {p : Tick} {n : Nat}

/-- After the passes at the ticks 1 to `n`, the task is due at `n + 1` just when that is a multiple of its period. -/
theorem Task.due_ranTo_iff (hp : p ≠ 0) (a : Index) (nm : Half) (hn : n + 1 < 2 ^ 32) :
    (Task.ranTo p a nm n).due (BitVec.ofNat 32 (n + 1)) = true ↔ p.toNat ∣ n + 1 := by
  have hpos : 0 < p.toNat := BitVec.toNat_pos_of_ne_zero hp
  have hmod := Nat.mod_lt n hpos
  have hsplit := Nat.div_add_mod' n p.toNat
  have hnow : (BitVec.ofNat 32 (n + 1)).toNat = n + 1 := Nat.mod_eq_of_lt hn
  have hlast : (BitVec.ofNat 32 (n / p.toNat * p.toNat)).toNat = n / p.toNat * p.toNat :=
    Nat.mod_eq_of_lt (by omega)
  have helapsed : (n + 1 + 2 ^ 32 - n / p.toNat * p.toNat) % 2 ^ 32 = n % p.toNat + 1 := by omega
  calc (Task.ranTo p a nm n).due (BitVec.ofNat 32 (n + 1)) = true
      ↔ p.toNat ≤ n % p.toNat + 1 := by rw [Task.due_iff, Task.ranTo, hnow, hlast, helapsed]
    _ ↔ p.toNat ∣ n % p.toNat + 1 :=
        ⟨fun h => (Nat.le_antisymm h hmod).dvd, Nat.le_of_dvd (Nat.succ_pos _)⟩
    _ ↔ p.toNat ∣ n + 1 := by
        rw [← Nat.dvd_add_right (Nat.dvd_mul_left p.toNat (n / p.toNat)), ← Nat.add_assoc, hsplit]

theorem Task.afterPass_ranTo (hp : p ≠ 0) (a : Index) (nm : Half) (hn : n + 1 < 2 ^ 32) :
    (Task.ranTo p a nm n).afterPass (BitVec.ofNat 32 (n + 1)) = Task.ranTo p a nm (n + 1) := by
  have hdue := Task.due_ranTo_iff hp a nm hn
  cases h : (Task.ranTo p a nm n).due (BitVec.ofNat 32 (n + 1)) with
  | true =>
    rw [Task.afterPass_of_due h, Task.ranTo, Task.ranTo, Nat.div_mul_cancel (hdue.mp h)]
  | false =>
    have hndvd : ¬ p.toNat ∣ n + 1 := mt hdue.mpr (Bool.eq_false_iff.mp h)
    rw [Task.afterPass_of_not_due h, Task.ranTo, Task.ranTo, Nat.succ_div_of_not_dvd hndvd]

/-- By induction on the number of ticks. -/
theorem Task.afterPasses_ticksTo (hp : p ≠ 0) (a : Index) (nm : Half) (hn : n < 2 ^ 32) :
    (Task.ranTo p a nm 0).afterPasses (ticksTo n) = Task.ranTo p a nm n := by
  induction n with
  | zero => rfl
  | succ n ih =>
    rw [ticksTo_succ, Task.afterPasses_concat, ih (Nat.lt_of_succ_lt hn), Task.afterPass_ranTo hp a nm hn]

/-- By induction on the number of ticks: the quotient grows by one at each multiple of the period, where the task is
due. -/
theorem dispatchCount_ticksTo (hp : p ≠ 0) (a : Index) (nm : Half) (hn : n < 2 ^ 32) :
    dispatchCount (Task.ranTo p a nm 0) (ticksTo n) = n / p.toNat := by
  induction n with
  | zero => exact (Nat.zero_div _).symm
  | succ n ih =>
    have hlt := Nat.lt_of_succ_lt hn
    have hdue : ((Task.ranTo p a nm n).due (BitVec.ofNat 32 (n + 1))).toNat = if p.toNat ∣ n + 1 then 1 else 0 := by
      simp only [Bool.toNat, Bool.cond_eq_ite, Task.due_ranTo_iff hp a nm hn]
    rw [ticksTo_succ, dispatchCount_concat, ih hlt, Task.afterPasses_ticksTo hp a nm hlt, hdue, Nat.succ_div]

end Counts

/-- Settles O56: a new task last ran at 0. -/
theorem dispatchCountIsFloor : Obligations.DispatchCountIsFloor := by
  intro p a nm n hp hn
  have hnew : Task.ranTo p a nm 0 = ⟨p, 0, a, nm⟩ := by rw [Task.ranTo, Nat.zero_div, Nat.zero_mul]; rfl
  exact hnew ▸ dispatchCount_ticksTo hp a nm hn

end Sys2Proof.Machine
end

section
/-! A whole pass with every dispatch acknowledged at once (`42_scheduler.md` R122 to R124): by induction on the tasks
still to be examined, from any point of the scan. -/

namespace Sys2Proof.Machine

variable {s : State} {cur : Tick} {n : Nat} {x : Task} {done todo rest : List Task} {es : List Event}

/-- A pass at `cur` that comes to task `i` and has dispatched `n` times. -/
def scanAt (cur : Tick) (i n : Nat) (wait : Bool) : Ticking := ⟨cur, BitVec.ofNat 9 i, BitVec.ofNat 9 n, wait⟩

theorem scanAt_succ (cur : Tick) (i n : Nat) (wait : Bool) :
    { scanAt cur i n wait with i := (scanAt cur i n wait).i + 1, wait := false } = scanAt cur (i + 1) n false := by
  simp [scanAt, BitVec.ofNat_add]

/-- A pass at `cur` is in flight and does not wait: it has examined the tasks `done` and dispatched `n` times, the tasks
`todo` are still to be examined, and nobody registered the entries `rest`. -/
structure Scanning (s : State) (cur : Tick) (n : Nat) (done todo rest : List Task) : Prop where
  tick : s.tick = some (scanAt cur done.length n false)
  tasks : s.sch.tasks = done ++ todo ++ rest
  ntasks : s.sch.ntasks.toNat = done.length + todo.length
  count_le : n ≤ done.length

/-- `s` with its pass ended: the registry's entries are `tasks`, the words `words` are put on the dispatch channel, the
response says `n` dispatches, and the events `es` are to come. -/
def State.passEnded (s : State) (es : List Event) (tasks : List Task) (words : List Word) (n : Nat) : State :=
  { s with
    schedule := es
    tick := none
    sch := { s.sch with tasks }
    dispatch := ⟨s.dispatch.kept, s.dispatch.sent ++ words⟩
    out := { s.out with onS := ⟨s.out.onS.kept, s.out.onS.sent ++ [finalWord .ok (BitVec.ofNat 16 n)]⟩ } }

/-- `s` with task `i`, which is `x`, dispatched at `cur` as the `n + 1`st of the pass, and acknowledged. -/
def State.dispatched (s : State) (cur : Tick) (i n : Nat) (x : Task) : State :=
  ((s.emitDispatch (dispatchWord (BitVec.ofNat 9 i) x)).withTask i { x with lastRun := cur }).withTick
    (some (scanAt cur (i + 1) (n + 1) false))

namespace Scanning

/-- A registry index fits the scan's 9 bits (`10_state.md` R35). -/
theorem index_toNat (h : Scanning s cur n done todo rest) : (scanAt cur done.length n false).i.toNat = done.length := by
  have hlt := s.sch.ntasks.isLt
  have hn := h.ntasks
  rw [scanAt, BitVec.toNat_ofNat, Nat.mod_eq_of_lt (by omega)]

theorem index_lt (h : Scanning s cur n done (x :: todo) rest) :
    (scanAt cur done.length n false).i.toNat < s.sch.ntasks.toNat := by
  rw [h.index_toNat, h.ntasks]
  exact Nat.lt_add_of_pos_right (Nat.succ_pos _)

/-- The task the scan comes to is the first of those still to be examined. -/
theorem task_index (h : Scanning s cur n done (x :: todo) rest) :
    s.task (scanAt cur done.length n false).i.toNat = x := by
  rw [h.index_toNat]
  exact task_eq_of_getElem? (by simp [h.tasks])

/-- The number of dispatches fits its 9 bits, so the response has it whole. -/
theorem count_setWidth (h : Scanning s cur n done todo rest) :
    (scanAt cur done.length n false).n.setWidth 16 = BitVec.ofNat 16 n := by
  have hlt := s.sch.ntasks.isLt
  have hn := h.ntasks
  have hle := h.count_le
  have hnat : (BitVec.ofNat 9 n).toNat = n := Nat.mod_eq_of_lt (by omega)
  rw [scanAt, ← BitVec.ofNat_toNat, hnat]

/-- With no task left, the turn of port S ends the pass. -/
theorem step_end (h : Scanning s cur n done [] rest) (hs : s.schedule = .turn .S :: es) :
    step s = .next (s.passEnded es (done ++ rest) [] n) := by
  have hi : (scanAt cur done.length n false).i = s.sch.ntasks :=
    BitVec.eq_of_toNat_eq (h.index_toNat.trans h.ntasks.symm)
  have htasks : s.sch.tasks = done ++ rest := by simpa using h.tasks
  rw [Machine.step_end hs h.tick rfl hi, State.passEnded, ← htasks, List.append_nil, ← h.count_setWidth]
  rfl

/-- A task that is not due takes one turn. -/
theorem step_skip (h : Scanning s cur n done (x :: todo) rest) (hs : s.schedule = .turn .S :: es)
    (hd : x.due cur = false) :
    step s = .next ((s.withSchedule es).withTick (some (scanAt cur (done.length + 1) n false))) := by
  rw [Machine.step_skip hs h.tick rfl h.index_lt (h.task_index.symm ▸ hd), ← scanAt_succ]
  rfl

/-- A task that is due takes a turn and the host's acknowledgement. -/
theorem run_dispatch (h : Scanning s cur n done (x :: todo) rest) (hs : s.schedule = .turn .S :: .ack :: es)
    (hd : x.due cur = true) (k : Nat) :
    core.run (k + 2) s = core.run k ((s.withSchedule es).dispatched cur done.length n x) := by
  have hturn := step_dispatch hs h.tick rfl h.index_lt (h.task_index.symm ▸ hd)
  have hwait : (dispatchStep (scanAt cur done.length n false) (s.withSchedule (.ack :: es))).tick =
      some (scanAt cur done.length (n + 1) true) := by simp [dispatchStep, scanAt, BitVec.ofNat_add]
  have hack := step_ack_of_waiting rfl hwait rfl
  have htask : (s.withSchedule (.ack :: es)).task (scanAt cur done.length n false).i.toNat = x := h.task_index
  rw [run_succ hturn, run_succ hack, scanAt_succ, dispatchStep, htask, h.index_toNat]
  rfl

theorem skipped (h : Scanning s cur n done (x :: todo) rest) (es : List Event) :
    Scanning ((s.withSchedule es).withTick (some (scanAt cur (done.length + 1) n false))) cur n (done ++ [x]) todo
      rest where
  tick := by simp
  tasks := by simpa using h.tasks
  ntasks := by simpa [Nat.add_assoc, Nat.add_comm 1] using h.ntasks
  count_le := by simpa using Nat.le_succ_of_le h.count_le

theorem dispatched (h : Scanning s cur n done (x :: todo) rest) (es : List Event) :
    Scanning ((s.withSchedule es).dispatched cur done.length n x) cur (n + 1) (done ++ [{ x with lastRun := cur }]) todo
      rest where
  tick := by simp [State.dispatched]
  tasks := by simp [State.dispatched, h.tasks]
  ntasks := by simpa [State.dispatched, Nat.add_assoc, Nat.add_comm 1] using h.ntasks
  count_le := by simpa using h.count_le

/-- The rest of the pass, by induction on the tasks still to be examined. -/
theorem run (h : Scanning s cur n done todo rest) (hs : s.schedule = passEvents cur todo ++ es) :
    core.run (passEvents cur todo).length s =
      .next (s.passEnded es (done ++ todo.map (fun x => x.afterPass cur) ++ rest) (passWords cur done.length todo)
        (n + (todo.filter (fun x => x.due cur)).length)) := by
  induction todo generalizing s n done with
  | nil => simpa [passEvents, passWords, Host.Core.run] using run_succ (h.step_end hs) 0
  | cons x todo ih =>
    cases hd : x.due cur with
    | false =>
      simp only [passEvents, hd, Bool.false_eq_true, if_false, List.cons_append] at hs ⊢
      rw [List.length_cons, run_succ (h.step_skip hs hd), ih (h.skipped _) rfl]
      simp [State.passEnded, passWords, hd, Task.afterPass_of_not_due hd]
    | true =>
      simp only [passEvents, hd, if_true, List.cons_append] at hs ⊢
      rw [List.length_cons, List.length_cons, h.run_dispatch hs hd, ih (h.dispatched _) rfl]
      simp [State.passEnded, State.dispatched, passWords, hd, Task.afterPass_of_due hd, Nat.add_assoc, Nat.add_comm 1]

end Scanning

/-- Settles O55: a pass just begun has all registered tasks to examine. -/
theorem passDispatchesEachDueTaskOnce : Obligations.PassDispatchesEachDueTaskOnce := by
  intro s cur es hinv ht hs
  have hlen : s.registered.length = s.sch.ntasks.toNat := by
    rw [State.registered, List.length_take, hinv.tasks_length, Nat.min_eq_left hinv.ntasks_le]
  have h : Scanning s cur 0 [] s.registered (s.sch.tasks.drop s.sch.ntasks.toNat) := {
    tick := ht
    tasks := (List.take_append_drop _ _).symm
    ntasks := by simp [hlen]
    count_le := Nat.le_refl _ }
  simpa [State.passEnded] using h.run hs

end Sys2Proof.Machine
end

section
/-! The turn of an idle port and the words that wait there (`60_exceptions.md` R129, R132, R141): a whole command runs,
words still to come are waited for, and nothing stops the block. -/

namespace Sys2Proof.Machine

variable {s : State} {p : Port}

/-- Settles O34: the agent of an idle port takes the command that waits there. -/
theorem stepRunsDecodedCommand : Obligations.StepRunsDecodedCommand := by
  intro s p es i rest hs hb hd _
  rw [step_turn_of_idle hs hb, takeStep, State.withSchedule_inp, hd]
  rfl

theorem presented_eq_false_iff : s.presented p = false ↔ decode (s.inp.get p) = .incomplete := by
  unfold State.presented
  split <;> simp_all

theorem presentWord_of_incomplete (h : decode (s.inp.get p) = .incomplete) (w : Word) :
    presentWord p w s = .next (s.withPending p (s.inp.get p ++ [w])) := by
  rw [presentWord, if_neg (by simp [presented_eq_false_iff.mpr h])]

theorem presentWord_of_whole (h : decode (s.inp.get p) ≠ .incomplete) (w : Word) : presentWord p w s = .next s := by
  have hp : s.presented p = true := Bool.of_not_eq_false (mt presented_eq_false_iff.mp h)
  rw [presentWord, if_pos hp, hold]

theorem takeStep_of_incomplete (h : decode (s.inp.get p) = .incomplete) : takeStep p s = .next s := by
  rw [takeStep, h]
  rfl

/-- Settles O35. -/
theorem wordsGatherUntilCommandIsWhole : Obligations.WordsGatherUntilCommandIsWhole := by
  intro s p w es
  refine ⟨fun hs hd => ?_, fun hs hd => ?_, fun hs hb hd => ?_⟩
  · exact (step_of_schedule hs).trans (presentWord_of_incomplete (s := s.withSchedule es) hd w)
  · exact (step_of_schedule hs).trans (presentWord_of_whole (s := s.withSchedule es) hd w)
  · exact (step_turn_of_idle hs hb).trans (takeStep_of_incomplete (s := s.withSchedule es) hd)

/-- Settles O39: `head` and `tail` name slots that exist. -/
theorem noStepStops : Obligations.NoStepStops := fun _ h => h.step_next

end Sys2Proof.Machine
end

section
/-! How a command ends when its port takes it (`60_exceptions.md` R129 to R131): refused with nothing changed, answered
OK, held, or accepted to be answered later. -/

namespace Sys2Proof.Machine

/-- How the command `i`, taken in `s`, is answered in `t`. -/
inductive CommandAnswer (i : Instr) (s t : State) : Prop where
  | refused (st : Status) (hst : st ∈ statusesOf i) (hne : st ≠ .ok) (ht : t = s.responded st 0)
  | done (u : State) (rdata : Half) (hu : CommandEffect s u) (ht : t = u.responded .ok rdata)
  | held (cap : Half) (hi : i = .rbInit cap) (hp : s.active = .S) (hd : s.drain ≠ none) (ht : t = s)
  | accepted (u : State) (hi : (∃ m, i = .rbDrain m) ∨ (∃ cur, i = .schTick cur)) (hu : CommandEffect s u)
      (hb : u.busy s.active = true) (ht : t = u.accepted)

theorem ok_mem_statusesOf (i : Instr) : .ok ∈ statusesOf i := by
  cases i <;> exact List.mem_cons_self

theorem errPort_mem_statusesOf (i : Instr) : .errPort ∈ statusesOf i := by
  cases i <;> exact List.mem_cons_of_mem _ List.mem_cons_self

variable {s t u : State} {i : Instr}

theorem CommandAnswer.wrongPort (ht : t = s.responded .errPort 0) : CommandAnswer i s t :=
  .refused .errPort (errPort_mem_statusesOf i) nofun ht

/-- A command that only reads the units. -/
theorem CommandAnswer.read {rdata : Half} (ht : t = s.responded .ok rdata) : CommandAnswer i s t :=
  .done s rdata .same ht

/-- Each command ends in one of the four ways, with a status of its row. -/
theorem exec_commandAnswer (h : exec i s = .next t) : CommandAnswer i s t := by
  cases i with
  | rbInit cap =>
    obtain ⟨-, e⟩ | ⟨hp, hd, e⟩ | ⟨-, -, -, e⟩ | ⟨hp, hd, h2, hc, e⟩ := execRbInit_cases h
    · exact .wrongPort e
    · exact .held cap rfl hp (Option.isSome_iff_ne_none.mp hd) e
    · exact .refused .errConfig (by simp [statusesOf]) nofun e
    · exact .done (s.withFresh cap) 0 (.fresh cap hp hd h2 hc) e
  | rbIsEmpty => exact (execRbIsEmpty_cases h).elim (fun e => .wrongPort e.2) (fun e => .read e.2)
  | rbIsFull => exact (execRbIsFull_cases h).elim (fun e => .wrongPort e.2) (fun e => .read e.2)
  | rbCount => exact (execRbCount_cases h).elim (fun e => .wrongPort e.2) (fun e => .read e.2)
  | rbAvailable => exact (execRbAvailable_cases h).elim (fun e => .wrongPort e.2) (fun e => .read e.2)
  | rbWrite b =>
    obtain ⟨-, e⟩ | ⟨-, -, e⟩ | ⟨hp, hf, hk, e⟩ := execRbWrite_cases h
    · exact .wrongPort e
    · exact .refused .full (by simp [statusesOf]) nofun e
    · exact .done (s.withStored b) 0 (.store b hp hf hk) e
  | rbRead =>
    obtain ⟨-, e⟩ | ⟨-, -, e⟩ | ⟨hp, he, hk, e⟩ := execRbRead_cases h
    · exact .wrongPort e
    · exact .refused .empty (by simp [statusesOf]) nofun e
    · exact .done _ _ (.take hp he hk) e
  | rbPeek =>
    obtain ⟨-, e⟩ | ⟨-, -, e⟩ | ⟨-, -, -, e⟩ := execRbPeek_cases h
    · exact .wrongPort e
    · exact .refused .empty (by simp [statusesOf]) nofun e
    · exact .read e
  | rbDrain maxLen =>
    obtain ⟨-, e⟩ | ⟨hp, e⟩ := execRbDrain_cases h
    · exact .wrongPort e
    · exact .accepted _ (.inl ⟨maxLen, rfl⟩) (.drain maxLen hp) (hp ▸ rfl) e
  | schRegister action name period =>
    obtain ⟨-, e⟩ | ⟨-, -, e⟩ | ⟨-, -, -, e⟩ | ⟨-, -, -, -, e⟩ | ⟨hp, hs, hx, hn, e⟩ := execSchRegister_cases h
    · exact .wrongPort e
    · exact .refused .errPhase (by simp [statusesOf]) nofun e
    · exact .refused .errConfig (by simp [statusesOf]) nofun e
    · exact .refused .errRegFull (by simp [statusesOf]) nofun e
    · exact .done (s.withRegistered ⟨period, 0, action, name⟩) _ (.register _ hp hs hx hn) e
  | schTick cur =>
    obtain ⟨-, e⟩ | ⟨hp, e⟩ := execSchTick_cases h
    · exact .wrongPort e
    · exact .accepted (s.withPass cur) (.inr ⟨cur, rfl⟩) (.pass cur hp) (hp ▸ rfl) e
  | tmrStart j start duration =>
    obtain ⟨-, e⟩ | ⟨-, -, e⟩ | ⟨hp, hj, e⟩ := execTmrStart_cases h
    · exact .wrongPort e
    · exact .refused .errIndex (by simp [statusesOf]) nofun e
    · exact .done _ 0 (.timer _ _ hp hj) e
  | tmrStop j =>
    obtain ⟨-, e⟩ | ⟨-, -, e⟩ | ⟨hp, hj, e⟩ := execTmrStop_cases h
    · exact .wrongPort e
    · exact .refused .errIndex (by simp [statusesOf]) nofun e
    · exact .done _ 0 (.timer _ _ hp hj) e
  | tmrExpired j tick =>
    obtain ⟨-, e⟩ | ⟨-, -, e⟩ | ⟨-, -, e⟩ := execTmrExpired_cases h
    · exact .wrongPort e
    · exact .refused .errIndex (by simp [statusesOf]) nofun e
    · exact .read e

/-- A command takes its words and names its port only as it is answered. -/
theorem CommandEffect.port_eq (h : CommandEffect s u) : u.inp = s.inp ∧ u.active = s.active := by
  cases h <;> exact ⟨rfl, rfl⟩

theorem CommandEffect.putOn_responded (h : CommandEffect s u) (st : Status) (rdata : Half) :
    PutOn s (u.responded st rdata) s.active (finalWord st rdata) :=
  Machine.putOn_responded h.port_eq.2 h.channels_eq.1 st rdata

/-! ### A refused command changes nothing (R131) -/

/-- A final response tells its status. -/
theorem status_eq_of_finalWord_eq {st st' : Status} {rdata rdata' : Half}
    (h : finalWord st rdata = finalWord st' rdata') : st = st' := by
  have hread := congrArg readResponse h
  simp only [readResponse_finalWord, Option.some.injEq, Response.final.injEq] at hread
  exact hread.1

/-- A command whose port shows a status other than OK was refused. -/
theorem CommandAnswer.eq_refused (h : CommandAnswer i s t) {st : Status} {r : Half} (hst : st ≠ .ok)
    (hw : newWords (s.out.get s.active) (t.out.get s.active) = [finalWord st r]) : t = s.responded st 0 := by
  cases h with
  | refused st' _ _ ht =>
    have hput := (Machine.putOn_responded (s := s) rfl rfl st' 0).newWords_same
    rw [← ht, hw] at hput
    rw [ht, status_eq_of_finalWord_eq (List.singleton_inj.mp hput)]
  | done u rdata hu ht =>
    have hput := (hu.putOn_responded .ok rdata).newWords_same
    rw [← ht, hw] at hput
    exact absurd (List.singleton_inj.mp hput) (finalWord_ne_ok hst r rdata)
  | held _ _ _ _ ht => simp [ht] at hw
  | accepted u _ hu _ ht => simp [ht, hu.channels_eq.1] at hw

/-- A port that shows a status other than OK after its command was taken: the command was refused. -/
theorem takeStep_eq_refused {p : Port} {st : Status} {r : Half} (hst : st ≠ .ok) (h : takeStep p s = .next t)
    (hw : newWords (s.out.get p) (t.out.get p) = [finalWord st r]) : t = (s.withActive p).responded st 0 := by
  obtain ⟨-, rfl⟩ | ⟨why, rest, -, rfl⟩ | ⟨i, rest, -, h⟩ := takeStep_cases h
  · simp at hw
  · have hput := (putOn_responded (s := s) (u := s.withActive p) rfl rfl .errIllegal 0).newWords_same
    rw [status_eq_of_finalWord_eq (List.singleton_inj.mp (hw.symm.trans hput))]
  · exact (exec_commandAnswer h).eq_refused hst hw

/-- Settles O40. -/
theorem failedCommandChangesNothing : Obligations.FailedCommandChangesNothing := by
  intro p s t st r hst h hw
  rw [takeStep_eq_refused hst h hw]
  exact ⟨⟨rfl, rfl, rfl, rfl, rfl, rfl, rfl, rfl⟩, rfl, rfl⟩

/-! ### One final response (R130) -/

/-- Settles O41: refused and answered OK are its first case, held its second, accepted its third. -/
theorem takenCommandAnswersOnce : Obligations.TakenCommandAnswersOnce := by
  intro p s t i rest hd h
  have hexec : exec i (s.withActive p) = .next t := by rwa [takeStep, hd] at h
  cases exec_commandAnswer hexec with
  | refused st hst _ ht => exact .inl ⟨st, 0, hst, ht ▸ rfl⟩
  | done u rdata hu ht => exact .inl ⟨.ok, rdata, ok_mem_statusesOf i, ht ▸ hu.putOn_responded .ok rdata⟩
  | held cap hi _ hdrain ht => exact .inr (.inl ⟨⟨cap, hi⟩, hdrain, ht⟩)
  | accepted u hi hu hb ht =>
    exact .inr (.inr ⟨hi, ht ▸ hu.channels_eq.1, ht ▸ (by cases p <;> exact hb)⟩)

end Sys2Proof.Machine
end

section
/-! A dispatch that is never acknowledged (`60_exceptions.md` R144): a step with no acknowledgement and no reset leaves
the tick, port S and the dispatch channel alone, but for words that join those waiting there. -/

namespace Sys2Proof.Machine

/-- From `s` to `t` the scheduler's side stood still: the tick, the words put on port S and on the dispatch channel,
and the words waiting on port S, which others may only have joined to make a whole command. -/
structure SchedulerStill (s t : State) : Prop where
  tick : t.tick = s.tick
  out : t.out.onS = s.out.onS
  dispatch : t.dispatch = s.dispatch
  joined : s.inp.onS <+: t.inp.onS
  whole : decode s.inp.onS ≠ .incomplete → t.inp.onS = s.inp.onS

variable {s t u : State} {x : Ticking}

namespace SchedulerStill

theorem of_eq (ht : t.tick = s.tick) (ho : t.out.get .S = s.out.get .S) (hd : t.dispatch = s.dispatch)
    (hi : t.inp.get .S = s.inp.get .S) : SchedulerStill s t :=
  have hjoined : s.inp.get .S <+: t.inp.get .S := hi ▸ List.prefix_rfl
  ⟨ht, ho, hd, hjoined, fun _ => hi⟩

theorem refl (s : State) : SchedulerStill s s := of_eq rfl rfl rfl rfl

theorem trans (h : SchedulerStill s t) (h' : SchedulerStill t u) : SchedulerStill s u where
  tick := h'.tick.trans h.tick
  out := h'.out.trans h.out
  dispatch := h'.dispatch.trans h.dispatch
  joined := h.joined.trans h'.joined
  whole hw := (h'.whole (h.whole hw ▸ hw)).trans (h.whole hw)

end SchedulerStill

/-- Only SCH_TICK on port S begins a tick. -/
theorem CommandEffect.tick_of_ne_S (h : CommandEffect s u) (hp : s.active ≠ .S) : u.tick = s.tick := by
  cases h with
  | pass cur hS => exact absurd hS hp
  | _ => rfl

theorem exec_schedulerStill {i : Instr} (hp : s.active ≠ .S) (h : exec i s = .next t) : SchedulerStill s t := by
  obtain rfl | ⟨u, hu, ha⟩ := exec_cases h
  · exact .refl t
  · have htick := hu.tick_of_ne_S hp
    obtain ⟨hout, hdispatch⟩ := hu.channels_eq
    obtain ⟨hinp, hactive⟩ := hu.port_eq
    have hS : Port.S ≠ u.active := hactive ▸ hp.symm
    obtain rfl | ⟨st, rdata, rfl⟩ := ha
    · refine .of_eq htick (by rw [State.accepted_out, hout]) hdispatch ?_
      rw [State.accepted_inp, PerPort.get_set_ne _ _ hS, hinp]
    · refine .of_eq htick ?_ hdispatch ?_
      · rw [State.responded_out, PerPort.get_set_ne _ _ hS, hout]
      · rw [State.responded_inp, PerPort.get_set_ne _ _ hS, hinp]

theorem takeStep_schedulerStill {p : Port} (hp : p ≠ .S) (h : takeStep p s = .next t) : SchedulerStill s t := by
  obtain ⟨-, rfl⟩ | ⟨_, _, -, rfl⟩ | ⟨i, _, -, h⟩ := takeStep_cases h
  · exact .refl t
  · refine .of_eq rfl ?_ rfl ?_
    · exact PerPort.get_set_ne _ _ hp.symm
    · exact PerPort.get_set_ne _ _ hp.symm
  · have hstill := exec_schedulerStill (s := s.withActive p) hp h
    exact ⟨hstill.tick, hstill.out, hstill.dispatch, hstill.joined, hstill.whole⟩

/-- While a dispatch waits, port S is busy and its agent has no step. -/
theorem agentStep_schedulerStill {p : Port} (hx : s.tick = some x) (hw : x.wait = true) (h : agentStep p s = .next t) :
    SchedulerStill s t := by
  obtain ⟨-, d, -, h⟩ | ⟨-, _, -, -, rfl⟩ | ⟨-, y, hy, hy', -⟩ | ⟨hb, h⟩ := agentStep_cases h
  · obtain ⟨-, -, -, rfl⟩ | ⟨-, rfl⟩ := drainStep_cases h <;> exact .of_eq rfl rfl rfl rfl
  · exact .refl t
  · obtain rfl := Option.some.inj (hx.symm.trans hy)
    exact absurd (hw.symm.trans hy') nofun
  · have hp : p ≠ .S := by
      rintro rfl
      simp [State.busy, hx] at hb
    exact takeStep_schedulerStill hp h

theorem withPending_schedulerStill {p : Port} (hd : decode (s.inp.get p) = .incomplete) (w : Word) :
    SchedulerStill s (s.withPending p (s.inp.get p ++ [w])) := by
  by_cases hp : p = .S
  · subst hp
    exact ⟨rfl, rfl, rfl, List.prefix_append _ _, fun hw => absurd hd hw⟩
  · exact .of_eq rfl rfl rfl (PerPort.get_set_ne _ _ (Ne.symm hp))

theorem runEvent_schedulerStill {e : Event} (hx : s.tick = some x) (hw : x.wait = true) (he : e ≠ .ack ∧ e ≠ .reset)
    (h : runEvent e s = .next t) : SchedulerStill s t := by
  obtain ⟨p, w, -, hd, rfl⟩ | ⟨_, _, -, -, rfl⟩ | ⟨p, -, h⟩ | ⟨ha, -⟩ | ⟨hr, -⟩ := runEvent_cases h
  · exact withPending_schedulerStill hd w
  · exact .refl t
  · exact agentStep_schedulerStill hx hw h
  · exact absurd ha he.1
  · exact absurd hr he.2

/-- The next event is the first of the schedule or a turn. -/
theorem nextEvent_cases {e : Event} (h : s.nextEvent = some e) :
    e ∈ s.schedule ∨ ∃ p, s.nextPort = some p ∧ e = .turn p := by
  unfold State.nextEvent at h
  split at h
  · obtain ⟨p, hp, rfl⟩ := Option.map_eq_some_iff.mp h
    exact .inr ⟨p, hp, rfl⟩
  · rename_i hs
    exact .inl (hs ▸ Option.some.inj h ▸ List.mem_cons_self)

/-- A step takes at most the first event off the schedule. -/
theorem step_schedule (h : step s = .next t) : t.schedule = s.schedule.tail := by
  obtain ⟨hn, rfl⟩ | ⟨e, -, h⟩ := step_cases h
  · unfold State.nextEvent at hn
    split at hn
    · rename_i hs
      rw [hs, List.tail_nil]
    · exact nomatch hn
  · exact runEvent_schedule h

theorem step_schedulerStill (hx : s.tick = some x) (hw : x.wait = true) (hs : ∀ e ∈ s.schedule, e ≠ .ack ∧ e ≠ .reset)
    (h : step s = .next t) : SchedulerStill s t := by
  obtain ⟨-, rfl⟩ | ⟨e, he, h⟩ := step_cases h
  · exact .refl t
  · have hquiet : e ≠ .ack ∧ e ≠ .reset := by
      obtain hmem | ⟨p, -, rfl⟩ := nextEvent_cases he
      · exact hs e hmem
      · exact ⟨nofun, nofun⟩
    have hstill := runEvent_schedulerStill (s := s.withSchedule s.schedule.tail) hx hw hquiet h
    exact ⟨hstill.tick, hstill.out, hstill.dispatch, hstill.joined, hstill.whole⟩

/-- A run of one step more begins with a step. -/
theorem exists_step_of_run_succ {k : Nat} (h : core.run (k + 1) s = .next t) :
    ∃ u, step s = .next u ∧ core.run k u = .next t := by
  cases hstep : step s with
  | next u => exact ⟨u, rfl, (run_succ hstep k).symm.trans h⟩
  | fault r | refused r =>
    have hcore : core.step s = _ := hstep
    simp [Host.Core.run, hcore] at h

/-- By induction on the number of steps. -/
theorem run_schedulerStill {k : Nat} (hx : s.tick = some x) (hw : x.wait = true)
    (hs : ∀ e ∈ s.schedule, e ≠ .ack ∧ e ≠ .reset) (h : core.run k s = .next t) : SchedulerStill s t := by
  induction k generalizing s with
  | zero =>
    obtain rfl : s = t := Host.Outcome.next.inj h
    exact .refl s
  | succ k ih =>
    obtain ⟨u, hu, hrun⟩ := exists_step_of_run_succ h
    have hstill := step_schedulerStill hx hw hs hu
    have hquiet : ∀ e ∈ u.schedule, e ≠ .ack ∧ e ≠ .reset := fun e he =>
      hs e (List.mem_of_mem_tail (step_schedule hu ▸ he))
    exact hstill.trans (ih (hstill.tick.trans hx) hquiet hrun)

/-- Settles O58. -/
theorem unacknowledgedTickHangs : Obligations.UnacknowledgedTickHangs := by
  intro s x hx hw hs k t h
  have hstill := run_schedulerStill hx hw hs h
  exact ⟨hstill.tick.trans hx, hstill.out, hstill.dispatch, hstill.joined, hstill.whole⟩

end Sys2Proof.Machine
end

section
/-! Coming to rest (`60_exceptions.md` R142, R146) [log 2]: with nothing scheduled, each step takes a command that waits,
or brings the drain or the tick in flight nearer its end. -/

namespace Sys2Proof.Machine

variable {s t u : State}

/-- The number of words waiting on the ports. -/
def State.wordsWaiting (s : State) : Nat :=
  s.inp.onP.length + s.inp.onC.length + s.inp.onS.length + s.inp.onT.length

/-- The most steps a drain in flight still takes: its bytes and its end (`40_ringbuffer.md` R96, R97). -/
def Draining.stepsLeft (d : Draining) : Nat := d.rem.toNat + 1

/-- A bound that each step of a tick over `n` tasks lowers: the tasks to examine, the end, and the wait that a dispatch
begins (`42_scheduler.md` R117 to R120). -/
def Ticking.stepsLeft (x : Ticking) (n : Nat) : Nat := n - x.i.toNat + 1 + (!x.wait).toNat

/-- The steps left of what is in flight. -/
def State.stepsInFlight (s : State) : Nat :=
  s.drain.elim 0 Draining.stepsLeft + s.tick.elim 0 fun x => x.stepsLeft s.sch.ntasks.toNat

/-- `t` is nearer to rest than `s`: fewer words wait, or as many and less is in flight. -/
def NearerRest (s t : State) : Prop :=
  t.wordsWaiting < s.wordsWaiting ∨ (t.wordsWaiting = s.wordsWaiting ∧ t.stepsInFlight < s.stepsInFlight)

/-- Taking the one command that waits on a port leaves fewer words. -/
theorem wordsWaiting_lt_of_taken {p : Port} (hw : s.inp.get p ≠ []) (ht : t.inp = s.inp.set p []) :
    t.wordsWaiting < s.wordsWaiting := by
  have hpos : 0 < (s.inp.get p).length := List.length_pos_iff.mpr hw
  unfold State.wordsWaiting
  rw [ht]
  cases p <;> simp at hpos ⊢ <;> omega

theorem drainStep_nearerRest {d : Draining} (hd : s.drain = some d) (h : drainStep d s = .next t) : NearerRest s t := by
  obtain ⟨hrem, -, -, rfl⟩ | ⟨-, rfl⟩ := drainStep_cases h
  · refine .inr ⟨rfl, Nat.add_lt_add_right ?_ _⟩
    rw [hd]
    change (d.rem - 1).toNat + 1 < d.rem.toNat + 1
    bv_omega
  · refine .inr ⟨rfl, Nat.add_lt_add_right ?_ _⟩
    rw [hd]
    exact Nat.succ_pos _

theorem tickStep_nearerRest {x : Ticking} (hx : s.tick = some x) (hw : x.wait = false)
    (hi : x.i.toNat ≤ s.sch.ntasks.toNat) (h : tickStep x s = .next t) : NearerRest s t := by
  have hleft : x.stepsLeft s.sch.ntasks.toNat = s.sch.ntasks.toNat - x.i.toNat + 2 := by rw [Ticking.stepsLeft, hw]; rfl
  obtain ⟨-, -, rfl⟩ | ⟨hlt, -, rfl⟩ | ⟨-, rfl⟩ | ⟨hgt, -⟩ := tickStep_cases h
  · refine .inr ⟨rfl, Nat.add_lt_add_left ?_ _⟩
    rw [hx]
    change s.sch.ntasks.toNat - x.i.toNat + 1 < x.stepsLeft s.sch.ntasks.toNat
    omega
  · refine .inr ⟨rfl, Nat.add_lt_add_left ?_ _⟩
    rw [hx]
    change s.sch.ntasks.toNat - (x.i + 1).toNat + 1 + (!x.wait).toNat < x.stepsLeft s.sch.ntasks.toNat
    rw [hleft, hw]
    simp only [Bool.not_false, Bool.toNat_true]
    bv_omega
  · refine .inr ⟨rfl, Nat.add_lt_add_left ?_ _⟩
    rw [hx]
    change 0 < x.stepsLeft s.sch.ntasks.toNat
    omega
  · omega

/-- Every command but a held RB_INIT takes its words. -/
theorem exec_inp {i : Instr} (h : exec i s = .next t) :
    t.inp = s.inp.set s.active (dropCommand (s.inp.get s.active)) ∨
    ∃ cap, i = .rbInit cap ∧ s.active = .S ∧ s.drain ≠ none := by
  cases exec_commandAnswer h with
  | refused st _ _ ht => exact .inl (ht ▸ rfl)
  | done u rdata hu ht =>
    obtain ⟨hinp, hactive⟩ := hu.port_eq
    exact .inl (by rw [ht, State.responded_inp, hinp, hactive])
  | held cap hi hp hd _ => exact .inr ⟨cap, hi, hp, hd⟩
  | accepted u _ hu _ ht =>
    obtain ⟨hinp, hactive⟩ := hu.port_eq
    exact .inl (by rw [ht, State.accepted_inp, hinp, hactive])

/-! ### The enabled agents -/

theorem enabled_of_idle {p : Port} (hb : s.busy p = false) :
    s.enabled p = (s.presented p && !(decide (p = .S) && s.initPresented && s.drain.isSome)) := by
  cases p with
  | P | T => simp [State.enabled]
  | C =>
    have hd : s.drain.isSome = false := hb
    simp [State.enabled, hd]
  | S =>
    have hx : s.tick = none := by simpa [State.busy] using hb
    simp [State.enabled, hx]

theorem initPresented_of_decode {cap : Half} {rest : List Word}
    (h : decode (s.inp.get .S) = .instr (.rbInit cap) rest) : s.initPresented = true := by
  rw [State.initPresented, h]

/-- An idle port whose agent has an enabled step holds a whole command, and takes it. -/
theorem takeStep_nearerRest {p : Port} (hinv : s.Inv) (hb : s.busy p = false) (he : s.enabled p = true)
    (h : takeStep p s = .next t) : NearerRest s t := by
  rw [enabled_of_idle hb, Bool.and_eq_true, Bool.not_eq_true'] at he
  obtain ⟨hpres, hfree⟩ := he
  have hw : s.inp.get p ≠ [] := by
    intro hnil
    rw [State.presented, hnil] at hpres
    exact nomatch hpres
  have taken (ht : t.inp = s.inp.set p (dropCommand (s.inp.get p))) : NearerRest s t :=
    .inl (wordsWaiting_lt_of_taken hw (hinv.one_command p ▸ ht))
  obtain ⟨hd, -⟩ | ⟨_, _, -, rfl⟩ | ⟨i, _, hd, h⟩ := takeStep_cases h
  · exact absurd (hpres.symm.trans (presented_eq_false_iff.mpr hd)) nofun
  · exact taken rfl
  · obtain ht | ⟨cap, rfl, hp, hdrain⟩ := exec_inp h
    · exact taken ht
    · obtain rfl : p = .S := hp
      have hdrain : s.drain.isSome = true := Option.isSome_iff_ne_none.mpr hdrain
      simp [initPresented_of_decode hd, hdrain] at hfree

theorem agentStep_nearerRest {p : Port} (hinv : s.Inv) (he : s.enabled p = true) (h : agentStep p s = .next t) :
    NearerRest s t := by
  obtain ⟨-, d, hd, h⟩ | ⟨rfl, x, hx, hw, -⟩ | ⟨-, x, hx, hw, h⟩ | ⟨hb, h⟩ := agentStep_cases h
  · exact drainStep_nearerRest hd h
  · simp [State.enabled, hx, hw] at he
  · exact tickStep_nearerRest hx hw (Nat.le_of_add_right_le (hinv.tick_scan x hx).1) h
  · exact takeStep_nearerRest hinv hb he h

/-! ### Rest -/

/-- At rest no drain is in flight, a tick only if it awaits the host, and no idle port holds a whole command. -/
structure AtRest (s : State) : Prop where
  drain : s.drain = none
  tick : ∀ x, s.tick = some x → x.wait = true
  idle : ∀ p, s.busy p = false → s.presented p = false

theorem atRest_of_nextPort_eq_none (hinv : s.Inv) (h : s.nextPort = none) : AtRest s := by
  have hall : ∀ p, s.enabled p = false := by
    intro p
    have hmem : p ∈ [Port.P, .C, .S, .T] := by cases p <;> decide
    simpa using List.find?_eq_none.mp h p hmem
  have hdrain : s.drain = none := by
    have hC := hall .C
    simp only [State.enabled, Bool.or_eq_false_iff] at hC
    simpa using hC.1
  refine ⟨hdrain, fun x hx => ?_, fun p hb => ?_⟩
  · have hscan : x.i.toNat ≤ s.sch.ntasks.toNat := Nat.le_of_add_right_le (hinv.tick_scan x hx).1
    simpa [State.enabled, hx, hscan] using hall .S
  · simpa [enabled_of_idle hb, hdrain] using hall p

theorem step_of_nothing (hs : s.schedule = []) (hn : s.nextPort = none) : step s = .next s := by
  have he : s.nextEvent = none := by rw [State.nextEvent, hs, hn]; rfl
  rw [step_eq, he]

theorem step_nearerRest {p : Port} (hinv : s.Inv) (hs : s.schedule = []) (hn : s.nextPort = some p)
    (h : step s = .next t) : NearerRest s t := by
  have hstep : step s = agentStep p s := by rw [step, stepBody, hs]; simp only [runIdle, hn]
  exact agentStep_nearerRest hinv (List.find?_some hn) (hstep ▸ h)

/-- By recursion on the words waiting and then on what is in flight. -/
theorem comes_to_rest (s : State) (hinv : s.Inv) (hs : s.schedule = []) :
    ∃ k t, core.run k s = .next t ∧ AtRest t ∧ step t = .next t := by
  match hn : s.nextPort with
  | none => exact ⟨0, s, rfl, atRest_of_nextPort_eq_none hinv hn, step_of_nothing hs hn⟩
  | some p =>
    obtain ⟨u, hu⟩ := hinv.step_next
    have hless : Prod.Lex (· < ·) (· < ·) (u.wordsWaiting, u.stepsInFlight) (s.wordsWaiting, s.stepsInFlight) :=
      Prod.lex_def.mpr (step_nearerRest hinv hs hn hu)
    obtain ⟨k, t, hrun, hrest, hstill⟩ := comes_to_rest u (hinv.step hu) (by rw [step_schedule hu, hs, List.tail_nil])
    exact ⟨k + 1, t, (run_succ hu k).trans hrun, hrest, hstill⟩
termination_by (s.wordsWaiting, s.stepsInFlight)
decreasing_by exact hless

/-- Settles O59. -/
theorem blockComesToRest : Obligations.BlockComesToRest := by
  intro s hinv hs
  obtain ⟨k, t, hrun, hrest, hstill⟩ := comes_to_rest s hinv hs
  exact ⟨k, t, hrun, hrest.drain, hrest.tick, hrest.idle, hstill⟩

end Sys2Proof.Machine
end

section
/-! Reset and the hazards of polling (`70_reset_and_hazards.md` R147, R148, R162). -/

namespace Sys2Proof.Machine

variable {s t : State}

/-! ### A polled answer until the port's own turn (R162) -/

/-- CAP is at least 2, so an empty buffer has room. -/
theorem State.Inv.not_full_of_head_eq_tail (h : s.Inv) (he : s.rb.head = s.rb.tail) : s.rb.full = false := by
  have hcap := h.two_le_cap
  have hcount := RingBuffer.count_eq_zero he
  rw [Bool.eq_false_iff, ne_eq, RingBuffer.full_iff_count h.head_lt_cap h.tail_lt_cap]
  omega

/-- A read makes room: the count falls below what it was, so below `CAP - 1`. -/
theorem State.Inv.not_full_withTail_advance (h : s.Inv) (he : s.rb.empty = false) :
    (s.withTail (advance s.rb.cap s.rb.tail)).rb.full = false := by
  have hread := h.withTail_advance he
  have hlt := RingBuffer.count_lt_cap h.head_lt_cap
  have hcount : (s.withTail (advance s.rb.cap s.rb.tail)).rb.count + 1 = s.rb.count :=
    RingBuffer.count_advance_tail h.head_lt_cap h.tail_lt_cap he
  rw [Bool.eq_false_iff, ne_eq, RingBuffer.full_iff_count hread.head_lt_cap hread.tail_lt_cap]
  change _ ≠ s.rb.cap.toNat - 1
  omega

/-- Only a turn of port P fills the buffer: a reset and a fresh buffer leave it empty, and a read makes room. -/
theorem RingStep.not_full {e : Option Event} (h : RingStep s t e) (hs : s.Inv) (ht : t.Inv) (hf : s.rb.full = false)
    (hp : e ≠ some (.turn .P)) : t.rb.full = false := by
  cases h with
  | same hrb => rwa [hrb]
  | fresh cap hrb => exact ht.not_full_of_head_eq_tail (by rw [hrb]; rfl)
  | store => exact absurd rfl hp
  | take he hrb => exact hrb ▸ hs.not_full_withTail_advance he
  | reset hn he => exact ht.not_full_of_head_eq_tail he

/-- Settles O54: "not full" by what a step makes of the ring buffer, "available" because the oldest byte stays. -/
theorem polledAnswersStayTrue : Obligations.PolledAnswersStayTrue := by
  refine fun s t hinv h => ⟨fun hf hp => ?_, fun he hc hr hi => ?_⟩
  · exact (step_ringStep h).not_full hinv (hinv.step h) hf hp
  · have holdest : OldestIs s (s.slot s.rb.tail.toNat) := ⟨hinv, he, rfl⟩
    exact (holdest.step h hc hr hi).not_empty

/-! ### The reset event (R147, R148) -/

/-- A reset discards the words not yet taken. -/
@[simp] theorem State.doReset_inp_get (s : State) (p : Port) : s.doReset.inp.get p = [] := by cases p <;> rfl

/-- A reset cuts each response channel and takes no word off it. -/
@[simp] theorem State.doReset_out_get (s : State) (p : Port) : s.doReset.out.get p = (s.out.get p).cut :=
  PerPort.get_map ..

/-- No tick is in flight after a reset, so an acknowledgement then is one nobody awaits. -/
theorem ackStep_doReset (s : State) : ackStep s.doReset = .next s.doReset := ackStep_of_not_waiting nofun

theorem step_reset {es : List Event} (hs : s.schedule = .reset :: es) : step s = .next (s.withSchedule es).doReset :=
  step_of_schedule hs

/-- Settles O2: the channels as `Channel.cut` leaves them, every other field by the definition of the reset state. -/
theorem resetEventFromAnyState : Obligations.ResetEventFromAnyState := by
  intro s es hs
  have hout (p : Port) : ((s.withSchedule es).doReset.out.get p).words = (s.out.get p).words ∧
      ((s.withSchedule es).doReset.out.get p).sent = [] := by
    rw [State.doReset_out_get]
    exact ⟨Channel.cut_words _, rfl⟩
  exact ⟨(s.withSchedule es).doReset, step_reset hs, rfl, rfl, rfl, rfl, rfl, List.length_replicate, rfl, rfl,
    State.doReset_inp_get _, hout, Channel.cut_words _, rfl, rfl, ackStep_doReset _⟩

end Sys2Proof.Machine
end
